-- ==== Sys2Proof/Word.lean ====
section
/-! DEFINITION. The word types of the MMSC decode core (R8: bits are numbered from 0 at the least significant bit and
every value is unsigned). -/

namespace Sys2Proof

/-- A byte of data memory, of the dictionary or of a bitstream. -/
abbrev Byte := BitVec 8

/-- A 32-bit register, table or memory word. -/
abbrev Word := BitVec 32

end Sys2Proof
end

