-- ==== Sys2Proof/Config.lean ====
section
/-! DEFINITION. The values of R7 that the source or a decision states, each as a named constant; the record in which the machine
takes them as arguments (`Literals`, D41, I17), which has these values in `State.reset`; and the free values: constants with no
body, about which nothing can be proved. -/

namespace Sys2Proof

/-- `ADDR_W` (R7): the width of a data-memory address. -/
def Config.addrW : Nat := 32

/-- The register window is 0x100 bytes long (R20). -/
def Config.windowSize : Nat := 0x100

/-- `TABLE_WORDS` (R7): the words of the cipher state table (R37). -/
def Config.tableWords : Nat := 256

/-- `LAG_WORDS` (R7): the iterations of the pre-pass. -/
def Config.lagWords : Nat := 250

/-- `MAP_LEN` (R7, C1). -/
def Config.mapLen : Nat := 250

/-- `B_INIT` (R7): the initial cursor `b`. -/
def Config.bInit : Word := 103

/-- `LCG_WIDTH` (R7): the width of the accumulator of the pre-pass (R41). -/
def Config.lcgWidth : Nat := 64

/-- `LCG_MUL` (R7). -/
def Config.lcgMul : Nat := 0x41C64E6D

/-- `LCG_ADD` (R7). -/
def Config.lcgAdd : Nat := 0xFFFF00003039

/-- `DIAG_START` (R7). -/
def Config.diagStart : Nat := 5

/-- `DIAG_STRIDE` (R7). -/
def Config.diagStride : Nat := 7

/-- `DIAG_COUNT` (R7). -/
def Config.diagCount : Nat := 32

/-- `BOOT_SEED` (R7): the seed of `DECRYPT`'s bootstrap (R110). -/
def Config.bootSeed : Word := 1234567890

/-- `DICT_SIZE` (R7): the bytes of the sliding dictionary (R45). -/
def Config.dictSize : Nat := 4096

/-- `OFFSET_BITS` (R7): the width of a match's offset field (R90). -/
def Config.offsetBits : Nat := 12

/-- `LENGTH_BITS` (R7): the width of a match's length field (R90). -/
def Config.lengthBits : Nat := 4

/-- `LITERAL_BITS` (R7): the width of a literal's field (R89). -/
def Config.literalBits : Nat := 8

/-- `MIN_MATCH` (R7): a match copies its length field plus this many bytes. -/
def Config.minMatch : Nat := 2

/-- `W_INIT` (R7, C3): the initial dictionary write index. -/
def Config.wInit : Nat := 1

/-- `HEADER_SIZE` (R7): the bytes of a container's header (R190). -/
def Config.headerSize : Nat := 20

/-- The constants of R7 that a model takes as arguments (D41, I17): each is a named parameter, whose value R7 states. -/
structure Literals where
  /-- `ADDR_W`: the bits of a data-memory address -/
  addrW : Nat
  /-- `TABLE_WORDS`: the words of the cipher state table -/
  tableWords : Nat
  /-- `LAG_WORDS`: the iterations of the pre-pass, and the slots that it fills -/
  lagWords : Nat
  /-- `MAP_LEN`: the entries of `MAP` -/
  mapLen : Nat
  /-- `B_INIT` -/
  bInit : Word
  /-- `LCG_MUL` -/
  lcgMul : Nat
  /-- `LCG_ADD` -/
  lcgAdd : Nat
  /-- `LCG_WIDTH`: the bits of the accumulator -/
  lcgWidth : Nat
  /-- `DIAG_START` -/
  diagStart : Nat
  /-- `DIAG_STRIDE` -/
  diagStride : Nat
  /-- `DIAG_COUNT` -/
  diagCount : Nat
  /-- `BOOT_SEED` -/
  bootSeed : Word
  /-- `DICT_SIZE`: the bytes of the dictionary -/
  dictSize : Nat
  /-- `OFFSET_BITS` -/
  offsetBits : Nat
  /-- `LENGTH_BITS` -/
  lengthBits : Nat
  /-- `LITERAL_BITS` -/
  literalBits : Nat
  /-- `MIN_MATCH` -/
  minMatch : Nat
  /-- `W_INIT` -/
  wInit : Nat
  deriving DecidableEq, Repr

/-- The constants with the values that R7 states. -/
def Literals.source : Literals where
  addrW := Config.addrW
  tableWords := Config.tableWords
  lagWords := Config.lagWords
  mapLen := Config.mapLen
  bInit := Config.bInit
  lcgMul := Config.lcgMul
  lcgAdd := Config.lcgAdd
  lcgWidth := Config.lcgWidth
  diagStart := Config.diagStart
  diagStride := Config.diagStride
  diagCount := Config.diagCount
  bootSeed := Config.bootSeed
  dictSize := Config.dictSize
  offsetBits := Config.offsetBits
  lengthBits := Config.lengthBits
  literalBits := Config.literalBits
  minMatch := Config.minMatch
  wInit := Config.wInit

/-- A free byte: a byte of a race (R73) or of an unspecified reset value (R49). Log entries 7 and 9. -/
opaque Config.freeByte : Nat → Byte

/-- A free word: a register read while busy (R28 to R30), a result after a race (R266), an unspecified reset value (R49),
or what a register takes from a host value of more than 32 bits. Log entries 7, 9 and 13. -/
opaque Config.freeWord : Nat → Word

/-- A free bit: which of its two values `KSV` reads as while busy (R22). Log entry 7. -/
opaque Config.freeBit : Nat → Bool

/-- A free number: a host subtraction below zero, a host variable never assigned (R92 states no value), `ACC` and `W` after a reset
event (R49). Log entries 7 and 13. -/
opaque Config.freeNat : Nat → Nat

end Sys2Proof
end

