-- ==== Sys2Proof/Syntax.lean ====
section
/-! DEFINITION. The commands of the block (R82), the fields of a command word (R80), the symbols of the LZ77 bitstream
(R89 to R91) and the host notation (R92). -/

namespace Sys2Proof

/-- The six commands, one constructor per row of the opcode table (R82). A command carries no operand (R81). -/
inductive Instr where
  | cinit
  | cnext
  | decrypt
  | decryptS
  | csum
  | lzdec
  deriving DecidableEq, Repr

/-- The fields of the one command-word format `CMDW` (R80). -/
structure CmdWord where
  /-- bits 3:0 -/
  op : BitVec 4
  /-- bit 4 -/
  s : BitVec 1
  /-- bits 31:5 -/
  rsv : BitVec 27
  deriving DecidableEq, Repr

/-- Why a word decodes to no command (R84). `shortWord`: fewer than the 32 bits that every command word has (R85). -/
inductive Illegal where
  | reservedBits
  | reservedOpcode
  | seedBit
  | shortWord
  deriving DecidableEq, Repr

/-- A symbol of the LZ77 bitstream: a literal (R89), a match (R90), the end-of-stream marker (R91). Its fields are unsigned numbers
(R87); how many bits they have is `LITERAL_BITS`, `OFFSET_BITS` and `LENGTH_BITS` (`Symbol.wellFormed`). -/
inductive Symbol where
  | literal (lit : Nat)
  | copy (offset len : Nat)
  | endOfStream
  deriving DecidableEq, Repr

/-- The registers of the window (R20), the `reg` of the host grammar (R92). -/
inductive HReg where
  | cmd
  | status
  | seed
  | srcAddr
  | srcLen
  | dstAddr
  | dstLen
  | result
  | outCount
  | inPos
  deriving DecidableEq, Repr

/-- A host variable `%name`; the model numbers the names. -/
abbrev Var := Nat

/-- A label of a host program; the model numbers the names. -/
abbrev Label := Nat

/-- Host expressions (R92); `value` may be any expression. -/
inductive Expr where
  | var (x : Var)
  | val (n : Nat)
  | and (a b : Expr)
  | shr (a b : Expr)
  | add (a b : Expr)
  | sub (a b : Expr)
  deriving DecidableEq, Repr

/-- An entry of the host's report: the two warnings of R200, the code of a block error (R197), or any other text. -/
inductive Note where
  | checksumMismatchStage1
  | checksumMismatchStage2
  | errorCode (code : Nat)
  | text (t : String)
  deriving DecidableEq, Repr

/-- The name of a fatal error: those of R200, `BlockError` (R197), or any other. -/
inductive Fatal where
  | fileTooSmall
  | unknownCompressionKind
  | unimplementedCompression
  | truncatedStream
  | blockError
  | other (name : String)
  deriving DecidableEq, Repr

/-- The statements of the host grammar (R92), `FATAL` with the code that it reports if it reports one (R197, log entry 18), and three
host moves the grammar has no line for: a bus access to the window at any address and width (R31, R32), and the platform
reset (R204, R260). -/
inductive Stmt where
  | wr (r : HReg) (e : Expr)
  | rd (r : HReg) (keep : Option Var)
  | cmd (m : Instr)
  | memset (addr : Expr) (bytes : List Byte)
  | memrd (addr n : Expr) (x : Var)
  | memcpy (dst src n : Expr)
  | memfill (addr n : Expr) (b : Byte)
  | assign (x : Var) (e : Expr)
  | beq (a b : Expr) (target : Label)
  | bne (a b : Expr) (target : Label)
  | bltu (a b : Expr) (target : Label)
  | note (n : Note)
  | fatal (f : Fatal) (code : Option Expr)
  | halt
  | busWrite (addr : Expr) (width : Nat) (e : Expr)
  | busRead (addr : Expr) (width : Nat) (keep : Option Var)
  | reset
  deriving DecidableEq, Repr

/-- One line of a host program: an optional label and a statement (R92). -/
structure Line where
  label : Option Label
  stmt : Stmt
  deriving DecidableEq, Repr

/-- How a host program ended (R205). -/
inductive HostEnd where
  | halt
  | fatal (f : Fatal)
  deriving DecidableEq, Repr

/-- The label a statement may branch to. -/
def Stmt.target? : Stmt → Option Label
  | .wr _ _ => none
  | .rd _ _ => none
  | .cmd _ => none
  | .memset _ _ => none
  | .memrd _ _ _ => none
  | .memcpy _ _ _ => none
  | .memfill _ _ _ => none
  | .assign _ _ => none
  | .beq _ _ l => some l
  | .bne _ _ l => some l
  | .bltu _ _ l => some l
  | .note _ => none
  | .fatal _ _ => none
  | .halt => none
  | .busWrite _ _ _ => none
  | .busRead _ _ _ => none
  | .reset => none

end Sys2Proof
end

