-- ==== Sys2Proof/WellFormed.lean ====
section
/-! DEFINITION. Well-formedness of command words (R84), instructions (R81), bitstream symbols (R90) and host programs
(R92). -/

namespace Sys2Proof

/-- Check 1 (R84): the reserved bits 31:5 are 0. -/
def CmdWord.rsvClear (c : CmdWord) : Bool := c.rsv == 0

/-- Check 2 (R82, R84): the opcode is one of 0x1 to 0x5. -/
def CmdWord.opLegal (c : CmdWord) : Bool := decide (1 ≤ c.op.toNat) && decide (c.op.toNat ≤ 5)

/-- Check 3 (R83, R84): `S` is 0 unless the opcode is `DECRYPT`'s. -/
def CmdWord.seedBitOk (c : CmdWord) : Bool := c.s == 0 || c.op == 3

/-- A command word is legal when it passes the three checks of R84. -/
def CmdWord.wellFormed (c : CmdWord) : Bool := c.rsvClear && c.opLegal && c.seedBitOk

/-- A command carries no immediate, register number or address (R81), so every one is well-formed. -/
def Instr.wellFormed : Instr → Bool
  | .cinit => true
  | .cnext => true
  | .decrypt => true
  | .decryptS => true
  | .csum => true
  | .lzdec => true

/-- A symbol's fields fit their widths (R89, R90), and a match has a nonzero offset (R90): offset 0 is the end-of-stream marker
(R91). -/
def Symbol.wellFormed (l : Literals) : Symbol → Bool
  | .literal c => decide (c < 2 ^ l.literalBits)
  | .copy off len => off != 0 && decide (off < 2 ^ l.offsetBits) && decide (len < 2 ^ l.lengthBits)
  | .endOfStream => true

/-- The labels that a host program's lines carry. -/
def labelsOf (p : List Line) : List Label := p.filterMap Line.label

/-- No two lines carry one label: R92 does not ask for it, and the machine gives a program without it a meaning all the same
(`findLabel`; DESIGN CHOICE, log entry 24). -/
def labelsUnique (p : List Line) : Bool := decide (labelsOf p).Nodup

/-- Every branch has a line to go to ("a branch goes to its label", R92). -/
def targetsDefined (p : List Line) : Bool :=
  p.all fun l => match l.stmt.target? with
    | none => true
    | some t => (labelsOf p).contains t

/-- A host program is well-formed when its branches have targets (R92) and, which is the model's own (log entry 24), its labels are
unique. -/
def programWellFormed (p : List Line) : Bool := labelsUnique p && targetsDefined p

end Sys2Proof
end

