-- ==== Sys2Proof/Decode.lean ====
section
/-! DEFINITION. The command-word decoder (R86) and encoder (R82), little-endian byte layout of a register word (R32), and
the bit-level encoding of the LZ77 symbols (R87 to R91). -/

namespace Sys2Proof

/-- The fields of a written word (R80). -/
def CmdWord.ofWord (v : Word) : CmdWord where
  op := v.extractLsb' 0 4
  s := v.extractLsb' 4 1
  rsv := v.extractLsb' 5 27

/-- The word that holds the given fields (R80). -/
def CmdWord.toWord (c : CmdWord) : Word := c.rsv ++ c.s ++ c.op

/-- R86's test of `v[4]` for the opcodes that must have it 0. -/
def requireNoSeedBit (c : CmdWord) (i : Instr) : Except Illegal Instr :=
  if c.s = 0 then .ok i else .error .seedBit

/-- R86 on the fields of a word. -/
def decodeFields (c : CmdWord) : Except Illegal Instr :=
  if c.rsv ≠ 0 then .error .reservedBits
  else if c.op = 0x1 then requireNoSeedBit c .cinit
  else if c.op = 0x2 then requireNoSeedBit c .cnext
  else if c.op = 0x3 then .ok (if c.s = 0 then .decrypt else .decryptS)
  else if c.op = 0x4 then requireNoSeedBit c .csum
  else if c.op = 0x5 then requireNoSeedBit c .lzdec
  else .error .reservedOpcode

/-- The decode function of R86, total on every 32-bit word. -/
def decode (v : Word) : Except Illegal Instr := decodeFields (CmdWord.ofWord v)

/-- A 32-bit word from four bytes, least significant first (R32, R62). -/
def wordOfBytes (b0 b1 b2 b3 : Byte) : Word := b3 ++ b2 ++ b1 ++ b0

/-- The decoder on bytes: a command word is its first four bytes, little-endian (R32, R85). -/
def decodeBytes : List Byte → Except Illegal (Instr × List Byte)
  | b0 :: b1 :: b2 :: b3 :: rest =>
    match decode (wordOfBytes b0 b1 b2 b3) with
    | .ok i => .ok (i, rest)
    | .error e => .error e
  | _ => .error .shortWord

/-- The fields of a command's word (R82, R83). -/
def Instr.fields : Instr → CmdWord
  | .cinit => ⟨0x1, 0, 0⟩
  | .cnext => ⟨0x2, 0, 0⟩
  | .decrypt => ⟨0x3, 0, 0⟩
  | .decryptS => ⟨0x3, 1, 0⟩
  | .csum => ⟨0x4, 0, 0⟩
  | .lzdec => ⟨0x5, 0, 0⟩

/-- The encoder: the full word of a command (R82). -/
def encode (i : Instr) : Word := i.fields.toWord

/-- The low `n` bytes of a number, least significant first. -/
def leBytes : Nat → Nat → List Byte
  | 0, _ => []
  | n + 1, v => BitVec.ofNat 8 v :: leBytes n (v / 256)

/-- The number that a list of bytes holds, least significant first (R9, R62). -/
def leNat : List Byte → Nat
  | [] => 0
  | b :: bs => b.toNat + 256 * leNat bs

/-- The four bytes of an opcode-table word, every bit at or above `nbits` being 0. -/
def tableBytes (nbits w : Nat) : List Byte := leBytes 4 (w % 2 ^ nbits)

/-- The word that those four bytes are. -/
def tableWord (nbits w : Nat) : Word := BitVec.ofNat 32 (leNat (tableBytes nbits w))

/-- The instruction that the decoder reads from an opcode-table word. -/
def decodeTableWord (nbits w : Nat) : Option Instr :=
  match decodeBytes (tableBytes nbits w) with
  | .ok (i, _) => some i
  | .error _ => none

/-- The bits of a field, most significant first (R87). -/
def bitsMsb : Nat → Nat → List Bool
  | 0, _ => []
  | n + 1, v => v.testBit n :: bitsMsb n v

/-- The bits of a symbol in stream order (R89, R90, R91). -/
def Symbol.bits (l : Literals) : Symbol → List Bool
  | .literal c => true :: bitsMsb l.literalBits c
  | .copy off len => false :: (bitsMsb l.offsetBits off ++ bitsMsb l.lengthBits len)
  | .endOfStream => false :: bitsMsb l.offsetBits 0

/-- Reads a field of `n` bits, the first becoming bit `n - 1` (R87), after the bits already in `v`.
`none` where the stream has fewer bits. -/
def takeBits : Nat → Nat → List Bool → Option (Nat × List Bool)
  | 0, v, bs => some (v, bs)
  | _ + 1, _, [] => none
  | n + 1, v, b :: bs => takeBits n (2 * v + b.toNat) bs

/-- Reads one symbol: the decision bit, then for decision 0 the offset field, 0 being the end marker (R91). -/
def takeSymbol (l : Literals) (bs : List Bool) : Option (Symbol × List Bool) :=
  match takeBits 1 0 bs with
  | none => none
  | some (1, bs1) =>
    match takeBits l.literalBits 0 bs1 with
    | none => none
    | some (c, bs2) => some (.literal c, bs2)
  | some (_, bs1) =>
    match takeBits l.offsetBits 0 bs1 with
    | none => none
    | some (off, bs2) =>
      if off = 0 then some (.endOfStream, bs2)
      else match takeBits l.lengthBits 0 bs2 with
        | none => none
        | some (len, bs3) => some (.copy off len, bs3)

/-- The bits of a buffer: bytes in ascending order, bit 7 of each first (R87). -/
def bitsOfBytes (bs : List Byte) : List Bool := bs.flatMap fun b => bitsMsb 8 b.toNat

end Sys2Proof
end

