-- ==== Sys2Proof/Machine/State.lean ====
section
/-! DEFINITION. The state of the machine: the block's registers and hidden state (R20 to R49), the data memory (R60), the
platform's parameters (R7), the host agent (R92, R204), and the model's own bookkeeping of what the host may rely on. -/

namespace Sys2Proof.Machine

/-- The completion codes of `STATUS.ERR` (R222). Codes 8 to 15 are never produced, so they have no constructor. -/
inductive ErrCode where
  | ok
  | illegal
  | range
  | length
  | overlap
  | notInit
  | truncated
  | bus
  deriving DecidableEq, Repr

/-- `PHASE` (R36). `running none` is `RUNNING(ILLEGAL)` (R220). `STATUS.BUSY` is 1 exactly while it is `running`. -/
inductive Phase where
  | idle
  | running (op : Option Instr)
  deriving DecidableEq, Repr

/-- The reading of the pre-pass, parameter `LCG_READING` (R7, D14). -/
inductive LcgReading where
  | acc64
  | acc32
  deriving DecidableEq, Repr

/-- The byte order of the decryption tail, parameter `TAIL_ORDER` (R7, R112, D19). -/
inductive TailOrder where
  | msbFirst
  | lsbFirst
  deriving DecidableEq, Repr

/-- The region `[base, base + len)` of a byte-addressed space. -/
structure Range where
  base : Nat
  len : Nat
  deriving DecidableEq, Repr

/-- The parameters that the platform, the source's constants or a reading of the source fixes (R7). No step changes them. -/
structure Params where
  /-- the constants of the source and of the spec's choice (D41, I17) -/
  lits : Literals
  lcgReading : LcgReading
  tailOrder : TailOrder
  /-- `MEM_FAULT` (R67): the addresses at which a data-memory access fails -/
  memFaults : List Range
  /-- `REG_BASE` (R20) -/
  regBase : Nat
  deriving DecidableEq, Repr

/-- A region that a command is handed (R204), and whether the command writes it (R68). -/
structure Loan where
  region : Range
  writes : Bool
  deriving DecidableEq, Repr

/-- The host agent: its program, the place of its next line, its variables (sorted by name, no repeats), its report and,
once it has ended, how (R92, R205). -/
structure HostState where
  prog : List Line
  pc : Nat
  vars : List (Var × Nat)
  notes : List Note
  ended : Option HostEnd
  deriving DecidableEq, Repr

/-- The machine. -/
structure State where
  /-- `CMD` (R21) -/
  cmd : Word
  /-- `STATUS.DONE` (R22) -/
  done : Bool
  /-- `STATUS.KSV` (R22, R43) -/
  ksv : Bool
  /-- `STATUS.EOS` (R22) -/
  eos : Bool
  /-- `STATUS.ERR` (R22, R222) -/
  err : ErrCode
  /-- `SEED` (R23) -/
  seed : Word
  /-- `SRC_ADDR` (R24) -/
  srcAddr : Word
  /-- `SRC_LEN` (R25) -/
  srcLen : Word
  /-- `DST_ADDR` (R26) -/
  dstAddr : Word
  /-- `DST_LEN` (R27) -/
  dstLen : Word
  /-- `RESULT` (R28) -/
  result : Word
  /-- `OUT_COUNT` (R29) -/
  outCount : Word
  /-- `IN_POS` (R30) -/
  inPos : Word
  /-- `PHASE` (R36), and with it `STATUS.BUSY` (R22) -/
  phase : Phase
  /-- `T[0..255]` (R37 to R40), `TABLE_WORDS` words -/
  tab : List Word
  /-- `ACC` (R41), a number below `2^LCG_WIDTH` -/
  acc : Nat
  /-- `DICT[0..4095]` (R45), `DICT_SIZE` bytes -/
  dict : List Byte
  /-- `W` (R46), an index below `DICT_SIZE` -/
  wIndex : Nat
  /-- `POS` (R47) -/
  pos : Word
  /-- `MASK` (R47) -/
  mask : Byte
  /-- `RACK` (R47) -/
  rack : Byte
  /-- the data memory (R60), in canonical form -/
  mem : List Host.Cell
  /-- the parameters (R7) -/
  params : Params
  /-- the host agent (R92) -/
  host : HostState
  /-- model's own: for each command yet to start, how many host statements pass before its transition (R269) -/
  sched : List Nat
  /-- model's own: how many host statements the running command still lets pass -/
  turns : Nat
  /-- model's own: the index of the next free value -/
  draws : Nat
  /-- model's own: the host has read `STATUS` with `BUSY = 0` since its last accepted `CMD` write (R72, R265) -/
  polled : Bool
  /-- model's own: the bytes that the running command, or the last one to end, reads and writes (R68); none once the host has
  read its end -/
  held : List Loan
  /-- model's own: the bytes that commands before that one wrote, the host not having read `STATUS` with `BUSY = 0` since (R72) -/
  unseen : List Range
  /-- model's own: the bytes that the running command might reach and the host has accessed meanwhile (R73) -/
  touched : List Nat
  deriving DecidableEq, Repr

/-- Why the machine stops. No error of the block is here: those are completion codes (R221, R235). -/
inductive Fault where
  /-- Raised by a host memory statement at an address of `2^ADDR_W` or more, which the data memory does not have (R60). Safe. -/
  | hostAddress
  /-- Raised by a host memory statement at a byte with `MEM_FAULT`: what the host gets there is the platform's (R67). Safe. -/
  | hostBus
  /-- Raised by `LZDEC` if it made more passes than R155 allows, which R155 says never happens. Safe. -/
  | passBound
  deriving DecidableEq, Repr

/-- Why a step has no meaning. -/
inductive Refusal where
  /-- An instruction with no meaning yet, by its mnemonic: none is left in this model. Safe. -/
  | notModelled (mnemonic : String)
  /-- Raised by a host branch to a label that no line of the program has: such a program is ill-formed (R92). Safe. -/
  | noSuchLabel (target : Label)
  /-- Raised by a host bus access outside the register window: not an access to the block (R20, R204). Safe. -/
  | outsideWindow
  deriving DecidableEq, Repr

/-- The parameters' defaults of R7; `REG_BASE` is open, 0 here (log entry 5). -/
def Params.default : Params where
  lits := Literals.source
  lcgReading := .acc64
  tailOrder := .msbFirst
  memFaults := []
  regBase := 0

/-- The host before a program is loaded (log entry 4). -/
def HostState.empty : HostState where
  prog := []
  pc := 0
  vars := []
  notes := []
  ended := none

/-- The machine right after reset (R49, R261). `T`, `ACC`, `DICT`, `W`, `POS`, `MASK` and `RACK` are unspecified there: the
values are log entry 2's. -/
def State.reset : State where
  cmd := 0
  done := false
  ksv := false
  eos := false
  err := .ok
  seed := 0
  srcAddr := 0
  srcLen := 0
  dstAddr := 0
  dstLen := 0
  result := 0
  outCount := 0
  inPos := 0
  phase := .idle
  tab := List.replicate Config.tableWords 0
  acc := 0
  dict := List.replicate Config.dictSize 0
  wIndex := 0
  pos := 0
  mask := 0x80
  rack := 0
  mem := []
  params := Params.default
  host := HostState.empty
  sched := []
  turns := 0
  draws := 0
  polled := true
  held := []
  unseen := []
  touched := []

end Sys2Proof.Machine
end

