-- ==== Sys2Proof/Machine/Ops.lean ====
section
/-! DEFINITION. The named operations: the byte store behind the data memory, the block's memory primitives (R9, R61, R67),
access to `T` and `DICT`, free values, and the completion of a command (R221), which is what an error is on this hardware
(R235). -/

namespace Sys2Proof.Machine

/-! ## The data memory as a canonical list of cells -/

/-- What a byte that nothing has written reads as (log entry 1). -/
def Memory.unlisted : Byte := 0

/-- The byte at an address. -/
def Memory.read : List Host.Cell → Nat → Byte
  | [], _ => Memory.unlisted
  | c :: m, x => if x = c.1 then c.2 else Memory.read m x

/-- Stores a byte, keeping the canonical form: a cell equal to what an unlisted address reads as is dropped. -/
def Memory.write : List Host.Cell → Nat → Byte → List Host.Cell
  | [], x, v => if v = Memory.unlisted then [] else [(x, v)]
  | c :: m, x, v =>
    if x < c.1 then (if v = Memory.unlisted then c :: m else (x, v) :: c :: m)
    else if x = c.1 then (if v = Memory.unlisted then m else (x, v) :: m)
    else c :: Memory.write m x v

/-- The canonical form of a list whose addresses start at `lo` or above. -/
def Memory.wfFrom : Nat → List Host.Cell → Bool
  | _, [] => true
  | lo, c :: m => decide (lo ≤ c.1) && decide (c.2 ≠ Memory.unlisted) && Memory.wfFrom (c.1 + 1) m

/-- The canonical form: addresses strictly rising, no cell equal to what an unlisted address reads as. -/
def Memory.wf (m : List Host.Cell) : Bool := Memory.wfFrom 0 m

/-- Every listed address is below `n`. -/
def Memory.below (n : Nat) (m : List Host.Cell) : Bool := m.all fun c => decide (c.1 < n)

/-! ## Regions and platform predicate -/

/-- The data memory has `2^ADDR_W` bytes (R60). -/
def memSize (s : State) : Nat := 2 ^ s.params.lits.addrW

/-- Whether an address lies in a region. -/
def Range.has (r : Range) (x : Nat) : Bool := decide (r.base ≤ x) && decide (x < r.base + r.len)

/-- Whether an address lies in one of a list of regions that a command is handed. -/
def inLoans (ls : List Loan) (x : Nat) : Bool := ls.any fun l => l.region.has x

/-- Whether an address lies in one of them that the command writes. -/
def inWrites (ls : List Loan) (x : Nat) : Bool := ls.any fun l => l.writes && l.region.has x

/-- The regions of a list that the command writes. -/
def writtenOf (ls : List Loan) : List Range := (ls.filter Loan.writes).map Loan.region

/-- A region without one byte. -/
def Range.without (x : Nat) (r : Range) : List Range :=
  if r.has x then [⟨r.base, x - r.base⟩, ⟨x + 1, r.base + r.len - (x + 1)⟩] else [r]

/-- `MEM_FAULT(x)` (R67). -/
def memFault (s : State) (x : Nat) : Bool := s.params.memFaults.any fun r => r.has x

/-! ## Named updates -/

/-- Replaces the data memory. -/
def State.setMem (s : State) (m : List Host.Cell) : State := { s with mem := m }

/-- Replaces the cipher state table. -/
def State.setTab (s : State) (t : List Word) : State := { s with tab := t }

/-- Replaces the bitstream cursor (R47). -/
def State.setCursor (s : State) (pos : Word) (mask rack : Byte) : State :=
  { s with pos := pos, mask := mask, rack := rack }

/-- Replaces the number of free values drawn. -/
def State.setDraws (s : State) (n : Nat) : State := { s with draws := n }

/-- Replaces the record of the bytes that commands use and of those that the host has not seen (R68, R72). -/
def State.setSeen (s : State) (h : List Loan) (u : List Range) : State := { s with held := h, unseen := u }

/-- Replaces the record of the host's accesses to the running command's regions (R73). -/
def State.setTouched (s : State) (xs : List Nat) : State := { s with touched := xs }

/-- Replaces the host agent. -/
def State.setHost (s : State) (h : HostState) : State := { s with host := h }

/-! ## Completion (R221): the one way a command ends, with or without an error -/

/-- `complete(code)` of R221. -/
def complete (c : ErrCode) (s : State) : State := { s with err := c, done := true, phase := .idle }

/-- `finish` (R9, R221). -/
def finish (s : State) : State := complete .ok s

/-- `raise Error(code)` (R9, R221): saves nothing, transfers control nowhere (R235); there is no return from it (R236). -/
def raiseError (c : ErrCode) (s : State) : State := complete c s

/-! ## Results of a command's parts -/

/-- What a part of a command's pseudocode does: go on with a value, or end the command at once with a code (R9). -/
inductive Res (α : Type) where
  | ok (a : α) (s : State)
  | stop (c : ErrCode) (s : State)
  deriving DecidableEq, Repr

/-! ## Memory primitives of the block (R9, R61, R67, R230) -/

/-- A one-byte read; `none` where `MEM_FAULT` holds (R67). It changes nothing (R66). -/
def readByte (x : Nat) (s : State) : Option Byte :=
  if memFault s x then none else some (Memory.read s.mem x)

/-- A one-byte write; `none` where `MEM_FAULT` holds: the write changes nothing (R230). -/
def writeByte (x : Nat) (v : Byte) (s : State) : Option State :=
  if memFault s x then none else some (s.setMem (Memory.write s.mem x v))

/-- `MemRead(x, n)`: `n` byte reads in ascending order, little-endian (R9, R61, R62). -/
def memRead : Nat → Nat → State → Option Nat
  | _, 0, _ => some 0
  | x, n + 1, s =>
    match readByte x s with
    | none => none
    | some b =>
      match memRead (x + 1) n s with
      | none => none
      | some v => some (b.toNat + 256 * v)

/-- `MemWrite(x, n, v)`: `n` byte writes in ascending order (R9, R61); a failing byte leaves those before it written (R230). -/
def memWrite : Nat → Nat → Nat → State → Res Unit
  | _, 0, _, s => .ok () s
  | x, n + 1, v, s =>
    match writeByte x (BitVec.ofNat 8 v) s with
    | none => .stop .bus s
    | some s1 => memWrite (x + 1) n (v / 256) s1

/-- `MemRead(x, 4)` as a 32-bit word, `LE32(x)` (R9). -/
def readWord (x : Nat) (s : State) : Option Word :=
  match memRead x 4 s with
  | none => none
  | some v => some (BitVec.ofNat 32 v)

/-! ## The tables -/

/-- Stores at index `i` of a list; a list that is too short is first filled up with the default, so that every index can be stored
to. -/
def setAt {α : Type} (d : α) : List α → Nat → α → List α
  | [], 0, v => [v]
  | [], i + 1, v => d :: setAt d [] i v
  | _ :: t, 0, v => v :: t
  | x :: t, i + 1, v => x :: setAt d t i v

/-- The slot that a computed index names: the index itself below `TABLE_WORDS` (R37); above, which only constants other than R7's
reach, modulo `TABLE_WORDS` (DESIGN CHOICE, log entry 26). -/
def slot (l : Literals) (i : Nat) : Nat := i % l.tableWords

/-- `T[i]` (R37). -/
def tabGet (t : List Word) (i : Nat) : Word := t.getD i 0

/-- `T[i] <- v`. -/
def tabSet (t : List Word) (i : Nat) (v : Word) : List Word := setAt 0 t i v

/-- `DICT[i]` (R45). -/
def dictGet (d : List Byte) (i : Nat) : Byte := d.getD i 0

/-- `DICT[i] <- v`. -/
def dictSet (d : List Byte) (i : Nat) (v : Byte) : List Byte := setAt 0 d i v

/-! ## Free values -/

/-- Draws a free word. -/
def drawWord (s : State) : Word × State := (Config.freeWord s.draws, s.setDraws (s.draws + 1))

/-- Stores a free byte at an address (R73). -/
def scrambleByte (x : Nat) (s : State) : State :=
  (s.setMem (Memory.write s.mem x (Config.freeByte s.draws))).setDraws (s.draws + 1)

/-- Stores a free byte at each address of a list. -/
def scrambleBytes : List Nat → State → State
  | [], s => s
  | x :: xs, s => scrambleBytes xs (scrambleByte x s)

/-- Stores at each address of a list the byte that it holds in another memory. -/
def restoreBytes (m : List Host.Cell) : List Nat → State → State
  | [], s => s
  | x :: xs, s => restoreBytes m xs (s.setMem (Memory.write s.mem x (Memory.read m x)))

/-- Stores free bytes at `n` addresses from `x` up. -/
def scrambleFrom : Nat → Nat → State → State
  | _, 0, s => s
  | x, n + 1, s => scrambleFrom (x + 1) n (scrambleByte x s)

/-- Stores free bytes in every region of a list. -/
def scrambleLoans : List Loan → State → State
  | [], s => s
  | l :: ls, s => scrambleLoans ls (scrambleFrom l.region.base l.region.len s)

end Sys2Proof.Machine
end

