-- ==== Sys2Proof/Machine/Operands.lean ====
section
/-! DEFINITION. The operands of the commands: regions and their range (R65), overlap (R154), the pre-checks in their order
(R231), and the bytes a command may read or write (R68). -/

namespace Sys2Proof.Machine

/-- The source region `[SRC_ADDR, SRC_ADDR + SRC_LEN)`. -/
def srcRegion (s : State) : Range := ⟨s.srcAddr.toNat, s.srcLen.toNat⟩

/-- The destination region `[DST_ADDR, DST_ADDR + DST_LEN)`. -/
def dstRegion (s : State) : Range := ⟨s.dstAddr.toNat, s.dstLen.toNat⟩

/-- A region is in range when it does not pass the top of a memory of `n` bytes, computed without wrap-around; an empty region always
is (R65). -/
def Range.inRange (n : Nat) (r : Range) : Bool := decide (r.len = 0) || decide (r.base + r.len ≤ n)

/-- Overlap as R154 defines it. -/
def Range.overlaps (a b : Range) : Bool :=
  decide (0 < a.len) && decide (0 < b.len) && decide (a.base < b.base + b.len) && decide (b.base < a.base + a.len)

/-- The pre-checks of each command in the order of R231; `none` when all pass. `ILLEGAL` is the decoder's. -/
def precheck (i : Instr) (s : State) : Option ErrCode :=
  match i with
  | .cinit => none
  | .cnext => if s.ksv then none else some .notInit
  | .decrypt => if (srcRegion s).inRange (memSize s) then none else some .range
  | .decryptS =>
    if !(srcRegion s).inRange (memSize s) then some .range
    else if s.srcLen.toNat < 4 then some .length
    else none
  | .csum => if (srcRegion s).inRange (memSize s) then none else some .range
  | .lzdec =>
    if !(srcRegion s).inRange (memSize s) then some .range
    else if !(dstRegion s).inRange (memSize s) then some .range
    else if (srcRegion s).overlaps (dstRegion s) then some .overlap
    else none

/-- The regions that a command with these operands might reach, whatever memory holds: none where a pre-check fails (R229). Of
its two regions `LZDEC` uses a part that depends on their bytes (R68, `usedBy`). -/
def loansOf (i : Instr) (s : State) : List Loan :=
  match precheck i s with
  | some _ => []
  | none =>
    match i with
    | .cinit => []
    | .cnext => []
    | .decrypt => [⟨srcRegion s, true⟩]
    | .decryptS => [⟨⟨s.srcAddr.toNat, 4⟩, false⟩, ⟨⟨s.srcAddr.toNat + 4, s.srcLen.toNat - 4⟩, true⟩]
    | .csum => [⟨⟨s.srcAddr.toNat, 4 * (s.srcLen.toNat / 4)⟩, false⟩]
    | .lzdec => if s.dstLen = 0 then [] else [⟨srcRegion s, false⟩, ⟨dstRegion s, true⟩]

/-- The bytes that a command started in `s` and ended in `t` reads and writes (R68): of `LZDEC`'s regions the `IN_POS` bytes that
it loaded and the `OUT_COUNT` bytes that it emitted. Where a fault stops `DECRYPT` or `CSUM` (R230) the bytes past it count too, for
R68's table gives those commands their whole regions (DESIGN CHOICE, log entry 25). -/
def usedBy (i : Instr) (s t : State) : List Loan :=
  match i with
  | .cinit => loansOf .cinit s
  | .cnext => loansOf .cnext s
  | .decrypt => loansOf .decrypt s
  | .decryptS => loansOf .decryptS s
  | .csum => loansOf .csum s
  | .lzdec =>
    match precheck .lzdec s with
    | some _ => []
    | none => [⟨⟨s.srcAddr.toNat, t.inPos.toNat⟩, false⟩, ⟨⟨s.dstAddr.toNat, t.outCount.toNat⟩, true⟩]

end Sys2Proof.Machine
end

