-- ==== Sys2Proof/Machine/Checksum.lean ====
section
/-! DEFINITION. The checksum fold engine and `CSUM` (R180 to R184). -/

namespace Sys2Proof.Machine

/-- One word of the fold (R180): XOR at an even index, wrapping addition at an odd one (R182). -/
def foldWord (i : Nat) (acc w : Word) : Word := if i % 2 = 0 then acc ^^^ w else acc + w

/-- The fold over `count` words from address `x` up, the first having index `i`; `none` at a `BUS` (R180). -/
def csumLoop : Nat → Nat → Nat → Word → State → Option Word
  | 0, _, _, acc, _ => some acc
  | count + 1, i, x, acc, s =>
    match readWord x s with
    | none => none
    | some w => csumLoop count (i + 1) (x + 4) (foldWord i acc w) s

/-- `CSUM` (R180): the trailing `SRC_LEN mod 4` bytes are not read (R181); a `BUS` leaves `RESULT` (R230). -/
def execCsum (s : State) : Host.Outcome State Fault Refusal :=
  match precheck .csum s with
  | some c => .next (raiseError c s)
  | none =>
    match csumLoop (s.srcLen.toNat / 4) 0 s.srcAddr.toNat 0 s with
    | none => .next (raiseError .bus s)
    | some acc => .next (finish { s with result := acc })

end Sys2Proof.Machine
end

