-- ==== Sys2Proof/Machine/Cipher.lean ====
section
/-! DEFINITION. The stream cipher: `CipherInit` (R100 to R105), `CipherNext` (R106), and the commands `CINIT` (R107),
`CNEXT` (R108) and `DECRYPT` with either seed source (R109 to R114). -/

namespace Sys2Proof.Machine

/-- One step of the accumulator (R102); under `acc32` only the low 32 bits carry over (D14). -/
def lcgStep (p : Params) (a : Nat) : Nat :=
  match p.lcgReading with
  | .acc64 => (a * p.lits.lcgMul + p.lits.lcgAdd) % 2 ^ p.lits.lcgWidth
  | .acc32 => (a % 2 ^ 32 * p.lits.lcgMul + p.lits.lcgAdd) % 2 ^ p.lits.lcgWidth

/-- The table entry that an accumulator value gives (R103): its top 16 bits over its low 16 bits. -/
def lcgEntry (l : Literals) (a : Nat) : Word := BitVec.ofNat 32 (a / 2 ^ (l.lcgWidth - 16) % 2 ^ 16 * 2 ^ 16 + a % 2 ^ 16)

/-- The accumulator at the start of a `CipherInit` (R101). -/
def accStart (l : Literals) (seed : Word) : Nat := seed.toNat % 2 ^ l.lcgWidth

/-- The accumulator after `n` iterations of the pre-pass (R102). -/
def lcgRun (p : Params) : Nat → Nat → Nat
  | 0, a => a
  | n + 1, a => lcgRun p n (lcgStep p a)

/-- The table after the pre-pass (R102, R103). With `n + 1` iterations to go, the iteration is `k = LAG_WORDS - 1 - n`, and
`n + 2` is its slot `251 - k`: the pre-pass fills the slots from `LAG_WORDS + 1` down to 2 (for another `LAG_WORDS` than R7's, DESIGN
CHOICE, log entry 26). -/
def prePass (p : Params) : Nat → Nat → List Word → List Word
  | 0, _, t => t
  | n + 1, a, t => prePass p n (lcgStep p a) (tabSet t (slot p.lits (n + 2)) (lcgEntry p.lits (lcgStep p a)))

/-- The diagonal finalisation (R105), the loop of R100 with its iterations counted. With `DIAG_COUNT` = 32 these are
the iterations with `bit` not 0; for another count see log entry 26 (DESIGN CHOICE). -/
def diagonal (l : Literals) : Nat → Word → Word → Nat → List Word → List Word
  | 0, _, _, _, t => t
  | n + 1, bit, ones, i, t =>
    diagonal l n (bit >>> 1) (ones >>> 1) (i + l.diagStride)
      (tabSet t (slot l i) (bit ||| (tabGet t (slot l i) &&& ones)))

/-- The table that `CipherInit(seed)` makes of an old table (R100). -/
def seedTable (p : Params) (seed : Word) (t : List Word) : List Word :=
  diagonal p.lits p.lits.diagCount 0x80000000 0xFFFFFFFF p.lits.diagStart
    (tabSet (tabSet (prePass p p.lits.lagWords (accStart p.lits seed) t) 0 0) 1 p.lits.bInit)

/-- `CipherInit(seed)` (R100). -/
def cipherInit (seed : Word) (s : State) : State :=
  { s with
    acc := lcgRun s.params s.params.lits.lagWords (accStart s.params.lits seed)
    tab := seedTable s.params seed s.tab
    ksv := true }

/-- A cursor as an index of `MAP` and of the lag region: 0 to 249 in every state a run reaches (R38); elsewhere taken modulo
`MAP_LEN` (log entry 3). -/
def cursorIndex (l : Literals) (a : Word) : Nat := a.toNat % l.mapLen

/-- `MAP[i]` (R42). -/
def mapAt (l : Literals) (i : Nat) : Nat := (i + 1) % l.mapLen

/-- `CipherNext` on the table (R106): the keystream word and the table after it. -/
def keyStep (l : Literals) (t : List Word) : Word × List Word :=
  let a := cursorIndex l (tabGet t 0)
  let b := cursorIndex l (tabGet t 1)
  let t1 := tabSet t 0 (BitVec.ofNat 32 (mapAt l a))
  let t2 := tabSet t1 1 (BitVec.ofNat 32 (mapAt l b))
  let c := tabGet t2 (slot l (b + 2)) ^^^ tabGet t2 (slot l (a + 2))
  (c, tabSet t2 (slot l (a + 2)) c)

/-- `CipherNext()` (R106). -/
def cipherNext (s : State) : Word × State :=
  ((keyStep s.params.lits s.tab).1, s.setTab (keyStep s.params.lits s.tab).2)

/-- The word loop of `DECRYPT` (R111): `count` words from address `x` up. The word is read before the keystream word is
drawn (R230). -/
def decryptWords : Nat → Nat → State → Res Unit
  | 0, _, s => .ok () s
  | count + 1, x, s =>
    match readWord x s with
    | none => .stop .bus s
    | some w =>
      let k := cipherNext s
      match memWrite x 4 (w ^^^ k.1).toNat k.2 with
      | .stop c s' => .stop c s'
      | .ok _ s' => decryptWords count (x + 4) s'

/-- The keystream byte of tail byte `j` (R112). -/
def tailByte (o : TailOrder) (k : Word) (j : Nat) : Byte :=
  match o with
  | .msbFirst => k.extractLsb' (24 - 8 * j) 8
  | .lsbFirst => k.extractLsb' (8 * j) 8

/-- The tail's bytes (R112): `count` bytes from address `x` up, the first being tail byte `j` of the word `k`. -/
def decryptTailBytes : Nat → Nat → Nat → Word → State → Res Unit
  | 0, _, _, _, s => .ok () s
  | count + 1, j, x, k, s =>
    match readByte x s with
    | none => .stop .bus s
    | some b =>
      match writeByte x (b ^^^ tailByte s.params.tailOrder k j) s with
      | none => .stop .bus s
      | some s' => decryptTailBytes count (j + 1) (x + 1) k s'

/-- The tail of `DECRYPT` (R112): a word is drawn only when there are trailing bytes. -/
def decryptTail (t x : Nat) (s : State) : Res Unit :=
  if t = 0 then .ok () s
  else
    let k := cipherNext s
    decryptTailBytes t 0 x k.1 k.2

/-- The cipher set-up of `DECRYPT` (R110): bootstrap, `T[254] <- 0`, then the seed. -/
def decryptSetup (seed : Word) (s : State) : State :=
  let s1 := cipherInit s.params.lits.bootSeed s
  cipherInit seed (s1.setTab (tabSet s1.tab (slot s1.params.lits 254) 0))

/-- The body of `DECRYPT` after its seed is known (R110, R111, R112): `n` bytes at `base`. -/
def decryptBody (seed : Word) (base n : Nat) (s : State) : State :=
  match decryptWords (n / 4) base (decryptSetup seed s) with
  | .stop c s' => raiseError c s'
  | .ok _ s1 =>
    match decryptTail (n % 4) (base + 4 * (n / 4)) s1 with
    | .stop c s' => raiseError c s'
    | .ok _ s2 => finish s2

/-- `CINIT` (R107). -/
def execCinit (s : State) : Host.Outcome State Fault Refusal := .next (finish (cipherInit s.seed s))

/-- `CNEXT` (R108). -/
def execCnext (s : State) : Host.Outcome State Fault Refusal :=
  match precheck .cnext s with
  | some c => .next (raiseError c s)
  | none =>
    let k := cipherNext s
    .next (finish { k.2 with result := k.1 })

/-- `DECRYPT` with `S = 0`: the seed is `SEED` (R109). -/
def execDecrypt (s : State) : Host.Outcome State Fault Refusal :=
  match precheck .decrypt s with
  | some c => .next (raiseError c s)
  | none => .next (decryptBody s.seed s.srcAddr.toNat s.srcLen.toNat s)

/-- `DECRYPT` with `S = 1`: the seed is the region's first four bytes, read and not written (R109); a fault there comes
before anything else (R230). -/
def execDecryptS (s : State) : Host.Outcome State Fault Refusal :=
  match precheck .decryptS s with
  | some c => .next (raiseError c s)
  | none =>
    match readWord s.srcAddr.toNat s with
    | none => .next (raiseError .bus s)
    | some seed => .next (decryptBody seed (s.srcAddr.toNat + 4) (s.srcLen.toNat - 4) s)

end Sys2Proof.Machine
end

