-- ==== Sys2Proof/Machine/Lz77.lean ====
section
/-! DEFINITION. The decompressor: the bitstream cursor (R143, R144), the dictionary and output (R145), and `LZDEC`
(R140 to R156). -/

namespace Sys2Proof.Machine

/-- Loads a new byte into the cursor when the current one is exhausted (R143). -/
def cursorLoad (s : State) : Res Unit :=
  if s.mask = 0x80 then
    if s.srcLen.toNat ≤ s.pos.toNat then .stop .truncated s
    else
      match readByte (s.srcAddr.toNat + s.pos.toNat) s with
      | none => .stop .bus s
      | some b => .ok () (s.setCursor (s.pos + 1) s.mask b)
  else .ok () s

/-- The mask after a bit is taken (R143). -/
def nextMask (m : Byte) : Byte := if m >>> 1 = 0 then 0x80 else m >>> 1

/-- `ReadBit()` (R143). -/
def readBit (s : State) : Res Bool :=
  match cursorLoad s with
  | .stop c s' => .stop c s'
  | .ok _ s1 => .ok (decide (s1.rack &&& s1.mask ≠ 0)) (s1.setCursor s1.pos (nextMask s1.mask) s1.rack)

/-- `ReadBits(n)` (R144): `n` more bits after those already in `v`. -/
def readBits : Nat → Nat → State → Res Nat
  | 0, v, s => .ok v s
  | n + 1, v, s =>
    match readBit s with
    | .stop c s' => .stop c s'
    | .ok b s1 => readBits n (2 * v + b.toNat) s1

/-- One symbol of the bitstream, read as `LZDEC`'s loop reads it (R140, R91). -/
def readSymbol (s : State) : Res Symbol :=
  match readBits 1 0 s with
  | .stop c s' => .stop c s'
  | .ok d s1 =>
    if d = 1 then
      match readBits s.params.lits.literalBits 0 s1 with
      | .stop c s' => .stop c s'
      | .ok v s2 => .ok (.literal v) s2
    else
      match readBits s.params.lits.offsetBits 0 s1 with
      | .stop c s' => .stop c s'
      | .ok off s2 =>
        if off = 0 then .ok .endOfStream s2
        else
          match readBits s.params.lits.lengthBits 0 s2 with
          | .stop c s' => .stop c s'
          | .ok len s3 => .ok (.copy off len) s3

/-- `Emit(c)` (R145): a failing output write changes nothing (R230); a full output stops with `OK` (R149). -/
def emit (c : Byte) (s : State) : Res Unit :=
  match writeByte (s.dstAddr.toNat + s.outCount.toNat) c s with
  | none => .stop .bus s
  | some s1 =>
    let s2 := { s1 with
      dict := dictSet s1.dict s1.wIndex c, wIndex := (s1.wIndex + 1) % s1.params.lits.dictSize, outCount := s1.outCount + 1 }
    if s2.outCount = s2.dstLen then .stop .ok s2 else .ok () s2

/-- The copy of a match (R147): `n` bytes from dictionary index `off` up, modulo `DICT_SIZE`, each read just before it is emitted. -/
def copyMatch : Nat → Nat → State → Res Unit
  | 0, _, s => .ok () s
  | n + 1, off, s =>
    match emit (dictGet s.dict (off % s.params.lits.dictSize)) s with
    | .stop c s' => .stop c s'
    | .ok _ s1 => copyMatch n (off + 1) s1

/-- What a symbol does (R146, R147, R148). A literal of more than 8 bits, which only another `LITERAL_BITS` than R7's makes, emits its
low byte (DESIGN CHOICE, log entry 26). -/
def applySymbol (sym : Symbol) (s : State) : Res Unit :=
  match sym with
  | .literal c => emit (BitVec.ofNat 8 c) s
  | .copy off len => copyMatch (len + s.params.lits.minMatch) off s
  | .endOfStream => .stop .ok { s with eos := true }

/-- One pass of `LZDEC`'s loop (R140). -/
def lzPass (s : State) : Res Unit :=
  match readSymbol s with
  | .stop c s' => .stop c s'
  | .ok sym s1 => applySymbol sym s1

/-- `LZDEC`'s loop with its passes counted; `ok` only if the count ran out. -/
def lzLoop : Nat → State → Res Unit
  | 0, s => .ok () s
  | n + 1, s =>
    match lzPass s with
    | .stop c s' => .stop c s'
    | .ok _ s1 => lzLoop n s1

/-- The fewest bits of a symbol after which `LZDEC` goes on: 9 with R7's field widths (R155). -/
def symbolBits (l : Literals) : Nat := 1 + min l.literalBits l.offsetBits

/-- The most passes that `LZDEC` makes (R155). -/
def lzPassBound (s : State) : Nat := 8 * s.srcLen.toNat / symbolBits s.params.lits + 1

/-- The start of `LZDEC` after its pre-checks (R141); a `W_INIT` that is no index, which is not R7's, is taken modulo `DICT_SIZE`
(DESIGN CHOICE, log entry 26). -/
def lzStart (s : State) : State :=
  { s with
    dict := List.replicate s.params.lits.dictSize 0, wIndex := s.params.lits.wInit % s.params.lits.dictSize, pos := 0,
    mask := 0x80, outCount := 0, eos := false }

/-- `Stop(code)` (R140, R151); `EOS` already holds its value. -/
def lzStop (c : ErrCode) (s : State) : State := complete c { s with inPos := s.pos }

/-- `LZDEC` (R140). -/
def execLzdec (s : State) : Host.Outcome State Fault Refusal :=
  match precheck .lzdec s with
  | some c => .next (raiseError c s)
  | none =>
    if s.dstLen = 0 then .next (lzStop .ok (lzStart s))
    else
      match lzLoop (lzPassBound s) (lzStart s) with
      | .stop c s' => .next (lzStop c s')
      | .ok _ _ => .fault .passBound

end Sys2Proof.Machine
end

