-- ==== Sys2Proof/Machine/Dispatch.lean ====
section
/-! DEFINITION. One arm per command (R82): the meaning of a command from its start to its completion (R220, R221). -/

namespace Sys2Proof.Machine

def exec (i : Instr) (s : State) : Host.Outcome State Fault Refusal :=
  match i with
  | .cinit => Sys2Proof.Machine.execCinit s
  | .cnext => Sys2Proof.Machine.execCnext s
  | .decrypt => Sys2Proof.Machine.execDecrypt s
  | .decryptS => Sys2Proof.Machine.execDecryptS s
  | .csum => Sys2Proof.Machine.execCsum s
  | .lzdec => Sys2Proof.Machine.execLzdec s

end Sys2Proof.Machine
end

