-- ==== Sys2Proof/Machine/Flags.lean ====
section
/-! DEFINITION. `STATUS`: its word (R22), the codes of its `ERR` field (R222), and what a command's start does to it (R220). -/

namespace Sys2Proof.Machine

/-- The 4-bit code of `STATUS.ERR` (R222). -/
def ErrCode.code : ErrCode → BitVec 4
  | .ok => 0
  | .illegal => 1
  | .range => 2
  | .length => 3
  | .overlap => 4
  | .notInit => 5
  | .truncated => 6
  | .bus => 7

/-- `STATUS.BUSY` (R22, R36). -/
def busy (s : State) : Bool :=
  match s.phase with
  | .idle => false
  | .running _ => true

/-- The `STATUS` word (R22): bits 31:8 are 0, then `ERR`, `EOS`, `KSV`, `DONE`, `BUSY`. -/
def statusWord (s : State) : Word :=
  0#24 ++ s.err.code ++ BitVec.ofBool s.eos ++ BitVec.ofBool s.ksv ++ BitVec.ofBool s.done ++ BitVec.ofBool (busy s)

/-- What the start of a command does to `STATUS` and `PHASE` (R220): `KSV` is not changed. -/
def startStatus (op : Option Instr) (s : State) : State :=
  { s with done := false, err := .ok, eos := false, phase := .running op }

end Sys2Proof.Machine
end

