-- ==== Sys2Proof/Machine/Window.lean ====
section
/-! DEFINITION. The command's run and its races (R73), the register window (R20 to R34), and the platform reset (R260, R261). -/

namespace Sys2Proof.Machine

/-! ## Starting a command (R220) -/

/-- What the written word decodes to: `none` for an ILLEGAL word (R86). -/
def decodeOp (v : Word) : Option Instr :=
  match decode v with
  | .ok i => some i
  | .error _ => none

/-- The bytes that a started command will read and write (R68, R204), as long as the host does not race with it: an illegal word
accesses none (R223). -/
def heldBy (op : Option Instr) (s : State) : List Loan :=
  match op with
  | none => []
  | some i =>
    match exec i s with
    | .next t => usedBy i s t
    | .fault _ => []
    | .refused _ => []

/-- The bytes that commands now ended wrote, the host not having read `STATUS` with `BUSY = 0` since (R72). -/
def pastWrites (s : State) : List Range :=
  match s.phase with
  | .idle => writtenOf s.held ++ s.unseen
  | .running _ => s.unseen

/-- The start of the command that a written word encodes (R220), and the hand-over of its regions (R204). -/
def acceptCommand (v : Word) (s : State) : State :=
  let s1 := { startStatus (decodeOp v) s with cmd := v, polled := false, unseen := pastWrites s, touched := [] }
  { s1 with held := heldBy (decodeOp v) s1 }

/-- An accepted `CMD` write (R21, R220): the schedule says how many host statements pass before the command's transition. -/
def startCommand (v : Word) (s : State) : State :=
  { acceptCommand v s with turns := s.sched.headD 0, sched := s.sched.tail }

/-- Places a command so that the next step runs it: the accepted `CMD` write of its word with no host statement to pass. -/
def placeCommand (v : Word) (s : State) : State := { acceptCommand v s with turns := 0 }

/-! ## Running a command as one transition (R269), with the draws of a race (R73); log entry 9 -/

/-- The regions that the running command might reach. -/
def reach (s : State) : List Loan :=
  match s.phase with
  | .idle => []
  | .running none => []
  | .running (some i) => loansOf i s

/-- Whether the host has written a byte that the running command reads and does not write, so that what it will reach is open. -/
def misled (s : State) : Bool := s.touched.any fun x => s.held.any fun l => !l.writes && l.region.has x

/-- The bytes of the running command: the host's access to one of them now is a race (R73). Once the host has raced with what the
command reads, which they are is open, so they are all it might reach (R266). -/
def exposed (s : State) : List Loan :=
  match s.phase with
  | .idle => []
  | .running _ => if misled s then reach s else s.held

/-- After a race the result registers that the command writes hold any value (R35, R266). -/
def freeResults (i : Instr) (s : State) : State :=
  match i with
  | .cinit => s
  | .cnext => s
  | .decrypt => s
  | .decryptS => s
  | .csum => if s.err = .ok then { s with result := Config.freeWord s.draws, draws := s.draws + 1 } else s
  | .lzdec =>
    { s with outCount := Config.freeWord s.draws, inPos := Config.freeWord (s.draws + 1), draws := s.draws + 2 }

/-- Whether the host has accessed a byte that a command, started in `s` and ended in `u`, used: a race (R73). -/
def raced (i : Instr) (s u : State) : Bool := s.touched.any (inLoans (usedBy i s u))

/-- The end of a race, `t` being where the command ended over free bytes: the bytes that the host accessed hold any value if the
command used them (R73), and so do its results (R266); the others are as the host left them. -/
def settleRace (i : Instr) (s t : State) : State :=
  let used := usedBy i s t
  let t1 := restoreBytes s.mem (s.touched.filter fun x => !inLoans used x) t
  { freeResults i (scrambleBytes (s.touched.filter (inLoans used)) t1) with held := used, touched := [] }

/-- A running command that the host has raced with: a byte that the host has accessed is read as any value (R73). -/
def runRaced (i : Instr) (s : State) : Host.Outcome State Fault Refusal :=
  match exec i (scrambleBytes s.touched s) with
  | .next t => .next (settleRace i s t)
  | .fault f => .fault f
  | .refused r => .refused r

/-- The running command's transition: an illegal word only completes (R223); a command that used no byte that the host has accessed
ends as it would have (R266). -/
def runCommand (op : Option Instr) (s : State) : Host.Outcome State Fault Refusal :=
  match op with
  | none => .next ((raiseError .illegal s).setTouched [])
  | some i =>
    if s.touched.isEmpty then exec i s
    else
      match exec i s with
      | .next u => if raced i s u then runRaced i s else .next (u.setTouched [])
      | .fault f => .fault f
      | .refused r => .refused r

/-! ## Register addresses (R20) -/

/-- The offset of a register in the window (R20). -/
def regOffset : HReg → Nat
  | .cmd => 0x00
  | .status => 0x04
  | .seed => 0x08
  | .srcAddr => 0x0C
  | .srcLen => 0x10
  | .dstAddr => 0x14
  | .dstLen => 0x18
  | .result => 0x1C
  | .outCount => 0x20
  | .inPos => 0x24

/-- The register at an aligned offset; none from 0x28 to 0xFC (R20, R31). -/
def regAt (off : Nat) : Option HReg :=
  if off = 0x00 then some .cmd
  else if off = 0x04 then some .status
  else if off = 0x08 then some .seed
  else if off = 0x0C then some .srcAddr
  else if off = 0x10 then some .srcLen
  else if off = 0x14 then some .dstAddr
  else if off = 0x18 then some .dstLen
  else if off = 0x1C then some .result
  else if off = 0x20 then some .outCount
  else if off = 0x24 then some .inPos
  else none

/-- The offset of a host bus address in the window (R20); none outside it. -/
def windowOffset (p : Params) (addr : Nat) : Option Nat :=
  if p.regBase ≤ addr ∧ addr < p.regBase + Config.windowSize then some (addr - p.regBase) else none

/-- The window accepts only 32-bit accesses at offsets that are multiples of 4 (R32). -/
def accessOk (off width : Nat) : Bool := decide (width = 4) && decide (off % 4 = 0)

/-! ## Reads (R21 to R32) -/

/-- `KSV` as the running command will leave it (R22). -/
def ksvAfter (op : Option Instr) (s : State) : Bool :=
  match op with
  | none => s.ksv
  | some i =>
    match exec i s with
    | .next t => t.ksv
    | .fault _ => s.ksv
    | .refused _ => s.ksv

/-- A read of `STATUS` (R22). While a command runs, `KSV` reads as its old or its new value; where the two differ that is a
draw. A read with `BUSY = 0` gives the host its regions back (R72, R204). -/
def readStatus (s : State) : Word × State :=
  match s.phase with
  | .idle => (statusWord s, { s with polled := true, held := [], unseen := [] })
  | .running op =>
    if ksvAfter op s = s.ksv then (statusWord s, s)
    else (statusWord { s with ksv := Config.freeBit s.draws }, s.setDraws (s.draws + 1))

/-- A read of a result register: a draw until the host has read `BUSY = 0` (R28 to R30, R265). -/
def readResult (v : Word) (s : State) : Word × State := if s.polled then (v, s) else drawWord s

/-- A read of a register. -/
def readReg (r : HReg) (s : State) : Word × State :=
  match r with
  | .cmd => (s.cmd, s)
  | .status => readStatus s
  | .seed => (s.seed, s)
  | .srcAddr => (s.srcAddr, s)
  | .srcLen => (s.srcLen, s)
  | .dstAddr => (s.dstAddr, s)
  | .dstLen => (s.dstLen, s)
  | .result => readResult s.result s
  | .outCount => readResult s.outCount s
  | .inPos => readResult s.inPos s

/-- A read of the window: 0 where the access is of another width or place (R32) or the offset is reserved (R31). -/
def windowRead (off width : Nat) (s : State) : Word × State :=
  if accessOk off width then
    match regAt off with
    | none => (0, s)
    | some r => readReg r s
  else (0, s)

/-! ## Writes (R21, R23 to R27, R31 to R34) -/

/-- A write of a register while `BUSY = 0`: `STATUS` and the result registers ignore it (R33). -/
def writeReg (r : HReg) (v : Word) (s : State) : State :=
  match r with
  | .cmd => startCommand v s
  | .status => s
  | .seed => { s with seed := v }
  | .srcAddr => { s with srcAddr := v }
  | .srcLen => { s with srcLen := v }
  | .dstAddr => { s with dstAddr := v }
  | .dstLen => { s with dstLen := v }
  | .result => s
  | .outCount => s
  | .inPos => s

/-- A write of the window: ignored while `BUSY = 1` (R34), at another width or place (R32), or at a reserved offset (R31). -/
def windowWrite (off width : Nat) (v : Word) (s : State) : State :=
  if busy s then s
  else if accessOk off width then
    match regAt off with
    | none => s
    | some r => writeReg r v s
  else s

/-! ## Platform reset (R260, R261) -/

/-- One of the eight values of `MASK` (R47). -/
def freeMask (n : Nat) : Byte := 0x80#8 >>> (Config.freeNat n % 8)

/-- The block's state after a reset, the unspecified part of it free (R49, R261). Memory, platform and host are as they were. -/
def resetBlock (s : State) : State :=
  { State.reset with
    tab := (List.range s.params.lits.tableWords).map fun i => Config.freeWord (s.draws + i)
    acc := Config.freeNat s.draws % 2 ^ s.params.lits.lcgWidth
    dict := (List.range s.params.lits.dictSize).map fun i => Config.freeByte (s.draws + i)
    wIndex := Config.freeNat (s.draws + 1) % s.params.lits.dictSize
    pos := Config.freeWord (s.draws + s.params.lits.tableWords)
    mask := freeMask (s.draws + 2)
    rack := Config.freeByte (s.draws + s.params.lits.dictSize)
    mem := s.mem
    params := s.params
    host := s.host
    sched := s.sched
    draws := s.draws + s.params.lits.tableWords + s.params.lits.dictSize + 3
    unseen := pastWrites s }

/-- A platform reset (R260): a running command is abandoned, and its bytes then hold any value (I16); else the data memory is
not touched (R261). -/
def platformReset (s : State) : State :=
  match s.phase with
  | .idle => resetBlock s
  | .running _ => resetBlock (scrambleLoans (exposed s) s)

end Sys2Proof.Machine
end

