-- ==== Sys2Proof/Machine/HostAgent.lean ====
section
/-! DEFINITION. The host agent: expressions, data-memory accesses, and one statement of its program (R92, R204), with the
races of its accesses to the regions of a command (R72, R73). -/

namespace Sys2Proof.Machine

/-! ## Variables and expressions -/

/-- The value of a host variable, if it has been assigned. -/
def lookupVar : List (Var × Nat) → Var → Option Nat
  | [], _ => none
  | p :: vs, x => if x = p.1 then some p.2 else lookupVar vs x

/-- Assigns a host variable, keeping the list sorted by name. -/
def assignVar : List (Var × Nat) → Var → Nat → List (Var × Nat)
  | [], x, v => [(x, v)]
  | p :: vs, x, v =>
    if x < p.1 then (x, v) :: p :: vs
    else if x = p.1 then (x, v) :: vs
    else p :: assignVar vs x v

/-- The value of an expression over unbounded unsigned integers (R92), with the index of the next free value: a variable never
assigned and a subtraction below zero have no stated value (log entry 13). -/
def evalExpr (vars : List (Var × Nat)) : Expr → Nat → Nat × Nat
  | .val v, n => (v, n)
  | .var x, n =>
    match lookupVar vars x with
    | some v => (v, n)
    | none => (Config.freeNat n, n + 1)
  | .and a b, n =>
    let p := evalExpr vars a n
    let q := evalExpr vars b p.2
    (p.1 &&& q.1, q.2)
  | .shr a b, n =>
    let p := evalExpr vars a n
    let q := evalExpr vars b p.2
    (p.1 >>> q.1, q.2)
  | .add a b, n =>
    let p := evalExpr vars a n
    let q := evalExpr vars b p.2
    (p.1 + q.1, q.2)
  | .sub a b, n =>
    let p := evalExpr vars a n
    let q := evalExpr vars b p.2
    if q.1 ≤ p.1 then (p.1 - q.1, q.2) else (Config.freeNat q.2, q.2 + 1)

/-- Evaluates an expression of the host's program. -/
def evalHost (e : Expr) (s : State) : Nat × State :=
  let p := evalExpr s.host.vars e s.draws
  (p.1, s.setDraws p.2)

/-- What a 32-bit register write carries of a host value; R92 does not say for a value of more than 32 bits (log entry 13). -/
def asWord (v : Nat) (s : State) : Word × State :=
  if v < 2 ^ 32 then (BitVec.ofNat 32 v, s) else drawWord s

/-- Evaluates the value of a register write. -/
def evalWord (e : Expr) (s : State) : Word × State :=
  let p := evalHost e s
  asWord p.1 p.2

/-- Goes to the next line. -/
def advance (s : State) : State := s.setHost { s.host with pc := s.host.pc + 1 }

/-- Assigns a host variable. -/
def setVar (x : Var) (v : Nat) (s : State) : State := s.setHost { s.host with vars := assignVar s.host.vars x v }

/-- Keeps the value read, where a `RD` names a variable for it. -/
def keepIn (keep : Option Var) (w : Word) (s : State) : State :=
  match keep with
  | none => s
  | some x => setVar x w.toNat s

/-- The line that carries a label: the first, where two lines carry it (DESIGN CHOICE, log entry 24; R92 does not say which). -/
def findLabel : List Line → Label → Option Nat
  | [], _ => none
  | l :: ls, t => if l.label = some t then some 0 else (findLabel ls t).map (· + 1)

/-- Goes to the line that carries a label; a program without it is ill-formed. -/
def goto (t : Label) (s : State) : Host.Outcome State Fault Refusal :=
  match findLabel s.host.prog t with
  | none => .refused (.noSuchLabel t)
  | some k => .next (s.setHost { s.host with pc := k })

/-- Branches when a condition holds (R92). -/
def branchIf (c : Bool) (t : Label) (s : State) : Host.Outcome State Fault Refusal :=
  if c then goto t s else .next (advance s)

/-! ## Data-memory accesses of the host -/

/-- What a host memory access does: a value and the state after it, or a fault. -/
inductive HostRes (α : Type) where
  | ok (a : α) (s : State)
  | fault (f : Fault)
  deriving DecidableEq, Repr

/-- Records an access to a byte that the running command might reach: whether it is a race (R73) is known only when the command
has ended. -/
def markTouched (hit : Bool) (x : Nat) (s : State) : State := if hit then s.setTouched (x :: s.touched) else s

/-- Where the host has written a byte itself, it is no longer one that it has not seen (R66, R72). -/
def markSeen (x : Nat) (s : State) : State :=
  if (pastWrites s).any fun r => r.has x then
    s.setSeen (if busy s then s.held else []) ((pastWrites s).flatMap (Range.without x))
  else s

/-- A host read of one byte. Where the running command writes it (R73), or an ended command wrote it and the host has not read
`BUSY = 0` since (R72), the value is a draw. -/
def hostReadByte (x : Nat) (s : State) : HostRes Byte :=
  if memSize s ≤ x then .fault .hostAddress
  else if memFault s x then .fault .hostBus
  else if inWrites (exposed s) x || (pastWrites s).any fun r => r.has x then
    .ok (Config.freeByte s.draws) (markTouched (inWrites (reach s) x) x (s.setDraws (s.draws + 1)))
  else .ok (Memory.read s.mem x) (markTouched (inWrites (reach s) x) x s)

/-- A host write of one byte. Where the running command reads or writes it, it then holds any value (R73); elsewhere it holds the
value written. -/
def hostWriteByte (x : Nat) (v : Byte) (s : State) : HostRes Unit :=
  if memSize s ≤ x then .fault .hostAddress
  else if memFault s x then .fault .hostBus
  else if inLoans (exposed s) x then .ok () (markTouched (inLoans (reach s) x) x (scrambleByte x s))
  else .ok () (markTouched (inLoans (reach s) x) x (markSeen x (s.setMem (Memory.write s.mem x v))))

/-- Host reads of `n` bytes at ascending addresses. -/
def hostReadBytes : Nat → Nat → State → HostRes (List Byte)
  | _, 0, s => .ok [] s
  | x, n + 1, s =>
    match hostReadByte x s with
    | .fault f => .fault f
    | .ok b s1 =>
      match hostReadBytes (x + 1) n s1 with
      | .fault f => .fault f
      | .ok bs s2 => .ok (b :: bs) s2

/-- Host writes of a list of bytes at ascending addresses. -/
def hostWriteBytes : Nat → List Byte → State → HostRes Unit
  | _, [], s => .ok () s
  | x, b :: bs, s =>
    match hostWriteByte x b s with
    | .fault f => .fault f
    | .ok _ s1 => hostWriteBytes (x + 1) bs s1

/-- Ends a statement that wrote memory. -/
def afterWrite (r : HostRes Unit) : Host.Outcome State Fault Refusal :=
  match r with
  | .fault f => .fault f
  | .ok _ s => .next (advance s)

/-! ## The statements (R92) -/

/-- `WR reg, value`. -/
def hostWr (r : HReg) (e : Expr) (s : State) : Host.Outcome State Fault Refusal :=
  let p := evalWord e s
  .next (advance (windowWrite (regOffset r) 4 p.1 p.2))

/-- `RD reg [-> var]`. -/
def hostRd (r : HReg) (keep : Option Var) (s : State) : Host.Outcome State Fault Refusal :=
  let p := windowRead (regOffset r) 4 s
  .next (advance (keepIn keep p.1 p.2))

/-- `CMD mnemonic`. -/
def hostCmd (m : Instr) (s : State) : Host.Outcome State Fault Refusal :=
  .next (advance (windowWrite (regOffset .cmd) 4 (encode m) s))

/-- `MEMSET addr, bytes`. -/
def hostMemset (addr : Expr) (bytes : List Byte) (s : State) : Host.Outcome State Fault Refusal :=
  let p := evalHost addr s
  afterWrite (hostWriteBytes p.1 bytes p.2)

/-- `MEMRD addr, n -> var`, little-endian. -/
def hostMemrd (addr n : Expr) (x : Var) (s : State) : Host.Outcome State Fault Refusal :=
  let p := evalHost addr s
  let q := evalHost n p.2
  match hostReadBytes p.1 q.1 q.2 with
  | .fault f => .fault f
  | .ok bs s1 => .next (advance (setVar x (leNat bs) s1))

/-- `MEMCPY dst, src, n`: all bytes are read before any is written (log entry 14). -/
def hostMemcpy (dst src n : Expr) (s : State) : Host.Outcome State Fault Refusal :=
  let p := evalHost dst s
  let q := evalHost src p.2
  let r := evalHost n q.2
  match hostReadBytes q.1 r.1 r.2 with
  | .fault f => .fault f
  | .ok bs s1 => afterWrite (hostWriteBytes p.1 bs s1)

/-- `MEMFILL addr, n, byte`. -/
def hostMemfill (addr n : Expr) (b : Byte) (s : State) : Host.Outcome State Fault Refusal :=
  let p := evalHost addr s
  let q := evalHost n p.2
  afterWrite (hostWriteBytes p.1 (List.replicate q.1 b) q.2)

/-- `LET var = expr`. -/
def hostAssign (x : Var) (e : Expr) (s : State) : Host.Outcome State Fault Refusal :=
  let p := evalHost e s
  .next (advance (setVar x p.1 p.2))

/-- `BEQ expr, expr, label`. -/
def hostBeq (a b : Expr) (t : Label) (s : State) : Host.Outcome State Fault Refusal :=
  let p := evalHost a s
  let q := evalHost b p.2
  branchIf (decide (p.1 = q.1)) t q.2

/-- `BNE expr, expr, label`. -/
def hostBne (a b : Expr) (t : Label) (s : State) : Host.Outcome State Fault Refusal :=
  let p := evalHost a s
  let q := evalHost b p.2
  branchIf (decide (p.1 ≠ q.1)) t q.2

/-- `BLTU expr, expr, label`. -/
def hostBltu (a b : Expr) (t : Label) (s : State) : Host.Outcome State Fault Refusal :=
  let p := evalHost a s
  let q := evalHost b p.2
  branchIf (decide (p.1 < q.1)) t q.2

/-- `NOTE text`. -/
def hostNote (n : Note) (s : State) : Host.Outcome State Fault Refusal :=
  .next (advance (s.setHost { s.host with notes := s.host.notes ++ [n] }))

/-- `HALT` (R205). -/
def hostHalt (s : State) : Host.Outcome State Fault Refusal := .next (s.setHost { s.host with ended := some .halt })

/-- `FATAL name` (R205). A fatal error that reports a code puts its value in the report (R197). -/
def hostFatal (f : Fatal) (code : Option Expr) (s : State) : Host.Outcome State Fault Refusal :=
  match code with
  | none => .next (s.setHost { s.host with ended := some (.fatal f) })
  | some e =>
    let p := evalHost e s
    .next (p.2.setHost { p.2.host with ended := some (.fatal f), notes := p.2.host.notes ++ [.errorCode p.1] })

/-- A bus write of any width to an address of the host's map (R31, R32). -/
def hostBusWrite (addr : Expr) (width : Nat) (e : Expr) (s : State) : Host.Outcome State Fault Refusal :=
  let p := evalHost addr s
  let q := evalWord e p.2
  match windowOffset s.params p.1 with
  | none => .refused .outsideWindow
  | some off => .next (advance (windowWrite off width q.1 q.2))

/-- A bus read of any width at an address of the host's map (R31, R32). -/
def hostBusRead (addr : Expr) (width : Nat) (keep : Option Var) (s : State) : Host.Outcome State Fault Refusal :=
  let p := evalHost addr s
  match windowOffset s.params p.1 with
  | none => .refused .outsideWindow
  | some off =>
    let q := windowRead off width p.2
    .next (advance (keepIn keep q.1 q.2))

/-- A platform reset that the host has asked for (R204, R260). -/
def hostReset (s : State) : Host.Outcome State Fault Refusal := .next (advance (platformReset s))

/-- One statement of the host program (R92). -/
def hostStmt (st : Stmt) (s : State) : Host.Outcome State Fault Refusal :=
  match st with
  | .wr r e => hostWr r e s
  | .rd r keep => hostRd r keep s
  | .cmd m => hostCmd m s
  | .memset addr bytes => hostMemset addr bytes s
  | .memrd addr n x => hostMemrd addr n x s
  | .memcpy dst src n => hostMemcpy dst src n s
  | .memfill addr n b => hostMemfill addr n b s
  | .assign x e => hostAssign x e s
  | .beq a b t => hostBeq a b t s
  | .bne a b t => hostBne a b t s
  | .bltu a b t => hostBltu a b t s
  | .note n => hostNote n s
  | .fatal f code => hostFatal f code s
  | .halt => hostHalt s
  | .busWrite addr width e => hostBusWrite addr width e s
  | .busRead addr width keep => hostBusRead addr width keep s
  | .reset => hostReset s

/-- The host's next statement; none when it has ended or its program has no line there. -/
def nextStmt (s : State) : Option Stmt :=
  match s.host.ended with
  | some _ => none
  | none => (s.host.prog[s.host.pc]?).map Line.stmt

/-- The host's turn: its next statement, or nothing. -/
def hostTurn (s : State) : Host.Outcome State Fault Refusal :=
  match nextStmt s with
  | none => .next s
  | some st => hostStmt st s

/-- One step of the system: while the block is idle the host moves (R262); while a command runs, the host moves as long as
the schedule lets it, then the command makes its one transition (R269). -/
def systemStep (s : State) : Host.Outcome State Fault Refusal :=
  match s.phase with
  | .idle => hostTurn s
  | .running op =>
    if s.turns = 0 ∨ nextStmt s = none then runCommand op s
    else hostTurn { s with turns := s.turns - 1 }

end Sys2Proof.Machine
end

