-- ==== Sys2Proof/Machine/RefHost.lean ====
section
/-! DEFINITION. The pseudo-instructions of the host notation (R93), the container's header (R190 to R192) and the reference
host program (R206), as data that the host agent runs. -/

namespace Sys2Proof.Machine

/-- `KS_ALIGN` (R7, R194): which seed convention the reference host takes. -/
inductive KsAlign where
  | explicit
  | reference
  deriving DecidableEq, Repr

/-- The kind of a container (R192). -/
inductive Kind where
  | plain
  | rle
  | lz77
  | unknown
  deriving DecidableEq, Repr

/-- The kind that a `Compression` field gives (R192). -/
def kindOf (compression : Nat) : Kind :=
  if compression = 0 then .plain
  else if compression = 1 then .rle
  else if compression = 2 then .lz77
  else .unknown

/-! ## Names of the reference program's variables and labels -/

/-- `%F`: the container's address. -/
def varF : Var := 0
/-- `%fsize`: its length. -/
def varFsize : Var := 1
/-- `%O`: the output buffer's address. -/
def varO : Var := 2
/-- `%seed` -/
def varSeed : Var := 3
/-- `%usize` -/
def varUsize : Var := 4
/-- `%c1` -/
def varC1 : Var := 5
/-- `%c2` -/
def varC2 : Var := 6
/-- `%comp` -/
def varComp : Var := 7
/-- `%P` -/
def varP : Var := 8
/-- `%plen` -/
def varPlen : Var := 9
/-- `%r` -/
def varR : Var := 10
/-- `%n` -/
def varN : Var := 11
/-- `%st` -/
def varSt : Var := 12

/-- `start` -/
def lblStart : Label := 0
/-- `parse` -/
def lblParse : Label := 1
/-- `s1ok` -/
def lblS1ok : Label := 2
/-- `rle` -/
def lblRle : Label := 3
/-- `plain` -/
def lblPlain : Label := 4
/-- `pcopy` -/
def lblPcopy : Label := 5
/-- `lz` -/
def lblLz : Label := 6
/-- `stage2` -/
def lblStage2 : Label := 7
/-- `s2ok` -/
def lblS2ok : Label := 8
/-- `trunc` -/
def lblTrunc : Label := 9
/-- `fail` -/
def lblFail : Label := 10
/-- The first of the fresh labels that `POLL` takes (R93). -/
def lblFresh : Label := 100

/-! ## Pseudo-instructions (R93) -/

/-- A line with no label. -/
def plainLine (st : Stmt) : Line := ⟨none, st⟩

/-- A line with a label. -/
def labelled (l : Label) (st : Stmt) : Line := ⟨some l, st⟩

/-- Puts a label on the first line of a list. -/
def withLabel (l : Label) : List Line → List Line
  | [] => []
  | x :: xs => ⟨some l, x.stmt⟩ :: xs

/-- `POLL` with its fresh label `p`. -/
def poll (p : Label) : List Line :=
  [labelled p (.rd .status (some varSt)), plainLine (.bne (.and (.var varSt) (.val 0x1)) (.val 0) p)]

/-- `RUN mn`, with a fresh label for its `POLL`. -/
def runMn (m : Instr) (p : Label) : List Line := plainLine (.cmd m) :: poll p

/-- `SRC addr, len`. -/
def srcLines (addr len : Expr) : List Line := [plainLine (.wr .srcAddr addr), plainLine (.wr .srcLen len)]

/-- `DST addr, len`. -/
def dstLines (addr len : Expr) : List Line := [plainLine (.wr .dstAddr addr), plainLine (.wr .dstLen len)]

/-- `STATUS.ERR` of the status last read, as `CHECKOK` takes it. -/
def errField : Expr := .and (.shr (.var varSt) (.val 4)) (.val 0xF)

/-- `CHECKOK`. -/
def checkOk : List Line :=
  [plainLine (.rd .status (some varSt)),
   plainLine (.bne errField (.val 0) lblFail)]

/-- `J label`. -/
def jump (l : Label) : Line := plainLine (.beq (.val 0) (.val 0) l)

/-! ## The reference host program (R206) -/

/-- Steps 1 and 2: the size test (R191) and the header's five little-endian fields (R190), in a header of `HEADER_SIZE` bytes. -/
def refParse (headerSize : Nat) : List Line :=
  [labelled lblStart (.bltu (.val headerSize) (.var varFsize) lblParse),
   plainLine (.fatal .fileTooSmall none),
   labelled lblParse (.memrd (.var varF) (.val 4) varSeed),
   plainLine (.memrd (.add (.var varF) (.val 4)) (.val 4) varUsize),
   plainLine (.memrd (.add (.var varF) (.val 8)) (.val 4) varC1),
   plainLine (.memrd (.add (.var varF) (.val 12)) (.val 4) varC2),
   plainLine (.memrd (.add (.var varF) (.val 16)) (.val 4) varComp),
   plainLine (.assign varP (.add (.var varF) (.val headerSize))),
   plainLine (.assign varPlen (.sub (.var varFsize) (.val headerSize)))]

/-- Step 3 (R194). -/
def refDecrypt (align : KsAlign) : List Line :=
  match align with
  | .explicit =>
    plainLine (.wr .seed (.var varSeed)) ::
      (srcLines (.var varP) (.var varPlen) ++ runMn .decrypt lblFresh ++ checkOk)
  | .reference => srcLines (.var varF) (.var varFsize) ++ runMn .decryptS lblFresh ++ checkOk

/-- Step 4 (R195). -/
def refStage1 : List Line :=
  srcLines (.var varP) (.var varPlen) ++ runMn .csum (lblFresh + 1) ++ checkOk ++
  [plainLine (.rd .result (some varR)),
   plainLine (.beq (.var varR) (.var varC1) lblS1ok),
   plainLine (.note .checksumMismatchStage1)]

/-- Step 5 (R196): the dispatch on the kind. -/
def refDispatch : List Line :=
  [labelled lblS1ok (.beq (.var varComp) (.val 0) lblPlain),
   plainLine (.beq (.var varComp) (.val 2) lblLz),
   plainLine (.beq (.var varComp) (.val 1) lblRle),
   plainLine (.fatal .unknownCompressionKind none),
   labelled lblRle (.fatal .unimplementedCompression none)]

/-- Step 5, `Plain` (R196, R202). -/
def refPlain : List Line :=
  [labelled lblPlain (.memfill (.var varO) (.var varUsize) 0x00),
   plainLine (.assign varN (.var varUsize)),
   plainLine (.bltu (.var varUsize) (.var varPlen) lblPcopy),
   plainLine (.assign varN (.var varPlen)),
   labelled lblPcopy (.memcpy (.var varO) (.var varP) (.var varN)),
   jump lblStage2]

/-- Step 5, `LZ77` (R196, R197, R202). -/
def refLz : List Line :=
  labelled lblLz (.memfill (.var varO) (.var varUsize) 0x00) ::
  (srcLines (.var varP) (.var varPlen) ++ dstLines (.var varO) (.var varUsize) ++ runMn .lzdec (lblFresh + 2) ++
  [plainLine (.rd .status (some varSt)),
   plainLine (.beq errField (.val 6) lblTrunc)] ++ checkOk)

/-- Steps 6 and 7 (R198, R199) and the fatal ends (R197, R200); a block error reports its code (R197). -/
def refStage2 : List Line :=
  withLabel lblStage2 (srcLines (.var varO) (.var varUsize)) ++ runMn .csum (lblFresh + 3) ++ checkOk ++
  [plainLine (.rd .result (some varR)),
   plainLine (.beq (.var varR) (.var varC2) lblS2ok),
   plainLine (.note .checksumMismatchStage2),
   labelled lblS2ok .halt,
   labelled lblTrunc (.fatal .truncatedStream none),
   labelled lblFail (.fatal .blockError (some errField))]

/-- The reference host program (R206), with its parameters `KS_ALIGN` and `HEADER_SIZE` (R7). -/
def refProgram (align : KsAlign) (headerSize : Nat) : List Line :=
  refParse headerSize ++ refDecrypt align ++ refStage1 ++ refDispatch ++ refPlain ++ refLz ++ refStage2

/-- The host with the reference program loaded and its three inputs given (R206). -/
def refHost (align : KsAlign) (headerSize f fsize o : Nat) : HostState where
  prog := refProgram align headerSize
  pc := 0
  vars := [(varF, f), (varFsize, fsize), (varO, o)]
  notes := []
  ended := none

end Sys2Proof.Machine
end

