-- ==== Sys2Proof/Machine/Step.lean ====
section
/-! DEFINITION. One step of the machine, and the placing of a command as the next thing that a step runs. -/

namespace Sys2Proof.Machine

/-- One step: of the host agent, or of the running command (R204, R269). -/
def step (s : State) : Host.Outcome State Fault Refusal := systemStep s

/-- The state in which the next step runs the command of an opcode-table word: the accepted `CMD` write of it (R21, R220). -/
def State.withFetchWord (s : State) (nbits w : Nat) : State := placeCommand (tableWord nbits w) s

end Sys2Proof.Machine
end

