-- ==== Sys2Proof/Safety.lean ====
section
/-! DEFINITION. The terms that claims use: the invariant of every step, the keystream, the bytes that DECRYPT combines, the
bits a cursor has still to read, and a decompressor over plain lists to which `LZDEC` is compared. -/

namespace Sys2Proof.Machine

/-! ## The invariant -/

/-- The constants have the values that R7 states, which the rules write out and the spec's vectors hold for (D41). -/
abbrev SourceLiterals (s : State) : Prop := s.params.lits = Literals.source

/-- The constants that size the cipher's tables have R7's values, the others any (D41). -/
def CipherSizes (l : Literals) : Prop := l.tableWords = 256 ∧ l.lagWords = 250 ∧ l.mapLen = 250

/-- The hidden registers have the sizes that R7's constants give them: `T` (R37), `ACC` (R41), `DICT` (R45), `W` (R46). -/
def sizesOk (s : State) : Bool :=
  decide (s.tab.length = s.params.lits.tableWords) && decide (s.acc < 2 ^ s.params.lits.lcgWidth) &&
    decide (s.dict.length = s.params.lits.dictSize) && decide (s.wIndex < s.params.lits.dictSize)

/-- The data memory is in canonical form and inside the address space (R60). -/
def memOk (s : State) : Bool := Memory.wf s.mem && Memory.below (memSize s) s.mem

/-- While `KSV = 1` the cursors are in 0..249 and 103 apart modulo 250 (R38, R44). -/
def cursorsOk (s : State) : Bool :=
  !s.ksv ||
    (decide ((tabGet s.tab 0).toNat < 250) &&
      decide ((tabGet s.tab 1).toNat = ((tabGet s.tab 0).toNat + 103) % 250))

/-- `MASK` is one of its eight values (R47). -/
def maskOk (s : State) : Bool := [0x80#8, 0x40#8, 0x20#8, 0x10#8, 0x08#8, 0x04#8, 0x02#8, 0x01#8].contains s.mask

/-- `STATUS` and `PHASE` agree: while a command runs `DONE`, `EOS` and `ERR` are 0 and the command is the one `CMD` encodes
(R22, R220); while the block is idle no access of the host waits for the end of a command, an `EOS` is that of a command that
ended with `OK`, and an error code is that of a command that has ended (R22). -/
def statusOk (s : State) : Bool :=
  match s.phase with
  | .idle => s.touched.isEmpty && (!s.eos || (s.done && decide (s.err = .ok))) && (s.done || decide (s.err = .ok))
  | .running op => !s.done && !s.eos && decide (s.err = .ok) && !s.polled && decide (op = decodeOp s.cmd)

/-- The bytes that a command uses, and those of its regions that the host has accessed, are inside the address space (R65). -/
def loansOk (s : State) : Bool :=
  (s.held.all fun l => l.region.inRange (memSize s)) && s.touched.all fun x => decide (x < memSize s)

/-- A list of variables is sorted by name from `lo` up, with no repeats. -/
def varsFrom : Nat → List (Var × Nat) → Bool
  | _, [] => true
  | lo, p :: vs => decide (lo ≤ p.1) && varsFrom (p.1 + 1) vs

/-- The host's variables are in canonical form. -/
def varsOk (s : State) : Bool := varsFrom 0 s.host.vars

/-- What every step keeps. -/
def inv (s : State) : Bool :=
  decide (SourceLiterals s) && sizesOk s && memOk s && cursorsOk s && maskOk s && statusOk s && loansOk s && varsOk s

/-! ## Memory in the terms of a claim -/

/-- The byte of the data memory at an address. -/
def byteAt (s : State) (x : Nat) : Byte := Memory.read s.mem x

/-- The little-endian word at an address (R62). -/
def wordAt (s : State) (x : Nat) : Word := wordOfBytes (byteAt s x) (byteAt s (x + 1)) (byteAt s (x + 2)) (byteAt s (x + 3))

/-- No byte of `[x, x + n)` has `MEM_FAULT` (R67). -/
def NoFault (s : State) (x n : Nat) : Prop := ∀ y, x ≤ y → y < x + n → memFault s y = false

/-- Every byte outside a region reads in `t` as it reads in `s`. -/
def SameOutside (r : Range) (s t : State) : Prop := ∀ x, r.has x = false → byteAt t x = byteAt s x

/-- Every byte of memory reads in `t` as it reads in `s`. -/
def SameMemory (s t : State) : Prop := ∀ x, byteAt t x = byteAt s x

/-- The operand registers, `CMD`, the platform, the host and the model's own bookkeeping are as they were: what no command
writes (R21, R23 to R27, R35). -/
def KeepsOperands (s t : State) : Prop :=
  t.cmd = s.cmd ∧ t.seed = s.seed ∧ t.srcAddr = s.srcAddr ∧ t.srcLen = s.srcLen ∧ t.dstAddr = s.dstAddr ∧
  t.dstLen = s.dstLen ∧ t.params = s.params ∧ t.host = s.host ∧ t.sched = s.sched ∧ t.turns = s.turns ∧
  t.draws = s.draws ∧ t.polled = s.polled ∧ t.held = s.held ∧ t.unseen = s.unseen ∧ t.touched = s.touched

/-- The decompressor's registers and counters are as they were: what only `LZDEC` writes (R29, R30, R45 to R47). -/
def KeepsDecompressor (s t : State) : Prop :=
  t.dict = s.dict ∧ t.wIndex = s.wIndex ∧ t.pos = s.pos ∧ t.mask = s.mask ∧ t.rack = s.rack ∧
  t.outCount = s.outCount ∧ t.inPos = s.inPos ∧ t.eos = s.eos

/-- The cipher's registers are as they were (R37, R41, R43). -/
def KeepsCipher (s t : State) : Prop := t.tab = s.tab ∧ t.acc = s.acc ∧ t.ksv = s.ksv

/-- The command has completed with a code (R221). -/
def CompletedWith (c : ErrCode) (t : State) : Prop := t.err = c ∧ t.done = true ∧ t.phase = .idle

/-! ## The keystream -/

/-- The table after `n` draws. -/
def keyTab (l : Literals) : Nat → List Word → List Word
  | 0, t => t
  | n + 1, t => keyTab l n (keyStep l t).2

/-- The `n`-th keystream word drawn from a table, from 0. -/
def keyWord (l : Literals) (t : List Word) (n : Nat) : Word := (keyStep l (keyTab l n t)).1

/-- The byte that `DECRYPT` XORs into byte `i` of an `n`-byte region, the words being drawn from table `t` (R111, R112). -/
def keyByte (p : Params) (t : List Word) (n i : Nat) : Byte :=
  if i < 4 * (n / 4) then (keyWord p.lits t (i / 4)).extractLsb' (8 * (i % 4)) 8
  else
    match p.tailOrder with
    | .msbFirst => (keyWord p.lits t (n / 4)).extractLsb' (24 - 8 * (i % 4)) 8
    | .lsbFirst => (keyWord p.lits t (n / 4)).extractLsb' (8 * (i % 4)) 8

/-- The keystream words that a `DECRYPT` of `n` bytes draws (R113). -/
def keyCount (n : Nat) : Nat := n / 4 + (if n % 4 = 0 then 0 else 1)

/-! ## The table of `CipherInit`, in arithmetic over natural numbers -/

/-- The accumulator after `k` iterations of the pre-pass (R101, R102); under `acc32` only the low 32 bits carry over (D14). -/
def accAfter (r : LcgReading) (seed : Nat) : Nat → Nat
  | 0 => seed
  | k + 1 =>
    match r with
    | .acc64 => (accAfter r seed k * 0x41C64E6D + 0xFFFF00003039) % 2 ^ 64
    | .acc32 => (accAfter r seed k % 2 ^ 32 * 0x41C64E6D + 0xFFFF00003039) % 2 ^ 64

/-- The entry that an accumulator value gives: its top 16 bits over its low 16 bits (R103). -/
def entryOf (a : Nat) : Nat := a / 2 ^ 48 * 2 ^ 16 + a % 2 ^ 16

/-- Slot `i` of the lag region after `CipherInit`, for `i` in 2..251 (R103): on the diagonal `5 + 7 * j` bit `31 - j` is set, the
bits above it are clear and those below it are the entry's (R105). -/
def seededSlot (r : LcgReading) (seed i : Nat) : Nat :=
  let e := entryOf (accAfter r seed (252 - i))
  if 5 ≤ i ∧ i ≤ 222 ∧ (i - 5) % 7 = 0 then 2 ^ (31 - (i - 5) / 7) + e % 2 ^ (31 - (i - 5) / 7) else e

/-! ## `DECRYPT` with either seed source (R109) -/

/-- The source region is in range (R65). -/
abbrev SrcInRange (s : State) : Prop := s.srcLen.toNat = 0 ∨ s.srcAddr.toNat + s.srcLen.toNat ≤ memSize s

/-- The destination region is in range (R65). -/
abbrev DstInRange (s : State) : Prop := s.dstLen.toNat = 0 ∨ s.dstAddr.toNat + s.dstLen.toNat ≤ memSize s

/-- The pre-checks of a `DECRYPT` pass (R109). -/
def DecryptReady (i : Instr) (s : State) : Prop :=
  (i = .decrypt ∨ (i = .decryptS ∧ 4 ≤ s.srcLen.toNat)) ∧ SrcInRange s

/-- The seed of a `DECRYPT` (R109). -/
def decryptSeed (i : Instr) (s : State) : Word := if i = .decryptS then wordAt s s.srcAddr.toNat else s.seed

/-- The address of the first byte that a `DECRYPT` decrypts (R109). -/
def decryptBase (i : Instr) (s : State) : Nat := if i = .decryptS then s.srcAddr.toNat + 4 else s.srcAddr.toNat

/-- How many bytes a `DECRYPT` decrypts (R109). -/
def decryptLen (i : Instr) (s : State) : Nat := if i = .decryptS then s.srcLen.toNat - 4 else s.srcLen.toNat

/-- The table that `CipherInit` of the seed leaves of the table before the command: the bootstrap is left out, which R110
says changes no word that is drawn. -/
def seededTab (i : Instr) (s : State) : List Word := seedTable s.params (decryptSeed i s) s.tab

/-- The table of `t` is `u` but for `T[254] = 0` (R110). -/
def TableIs (t : State) (u : List Word) : Prop :=
  tabGet t.tab 254 = 0 ∧ ∀ k, k < 256 → k ≠ 254 → tabGet t.tab k = tabGet u k

/-- In `t` the first `m` of the bytes of a `DECRYPT` of `s` are decrypted and every other byte of memory is as it was. -/
def DecryptedUpTo (m : Nat) (i : Instr) (s t : State) : Prop :=
  (∀ k, k < m → byteAt t (decryptBase i s + k) =
    byteAt s (decryptBase i s + k) ^^^ keyByte s.params (seededTab i s) (decryptLen i s) k) ∧
  SameOutside ⟨decryptBase i s, m⟩ s t

/-! ## The bitstream and the decompressor over lists -/

/-- How many bits of the current byte are left to read (R47). -/
def maskLeft (m : Byte) : Nat :=
  if m = 0x40 then 7
  else if m = 0x20 then 6
  else if m = 0x10 then 5
  else if m = 0x08 then 4
  else if m = 0x04 then 3
  else if m = 0x02 then 2
  else if m = 0x01 then 1
  else 0

/-- The bytes of `[x, x + n)`. -/
def bytesFrom (s : State) : Nat → Nat → List Byte
  | _, 0 => []
  | x, n + 1 => byteAt s x :: bytesFrom s (x + 1) n

/-- The bits of the source region that the cursor has still to read (R87, R143). -/
def remainingBits (s : State) : List Bool :=
  bitsMsb (maskLeft s.mask) s.rack.toNat ++
    bitsOfBytes (bytesFrom s (s.srcAddr.toNat + s.pos.toNat) (s.srcLen.toNat - s.pos.toNat))

/-- The dictionary byte at index `j` when `out` are the bytes emitted so far, last first: the `p`-th byte emitted went to
index `(W_INIT + p) mod DICT_SIZE` (R141, R145), and an index never written holds 0. -/
def windowByte (l : Literals) : List Byte → Nat → Byte
  | [], _ => 0
  | c :: out, j => if (l.wInit + out.length) % l.dictSize = j then c else windowByte l out j

/-- What one symbol, or the whole stream, leaves: the bytes emitted, last first; the bits not read; and how the decompressor
stopped, if it did: its code and whether the end marker stopped it. -/
structure Unpacked where
  out : List Byte
  rest : List Bool
  stop : Option (ErrCode × Bool)
  deriving DecidableEq, Repr

/-- What a decompressor works with: the capacity of its output (R145), how many bytes that takes before one faults (R230), and R7's
constants. -/
structure Sink where
  cap : Nat
  good : Nat
  lits : Literals
  deriving DecidableEq, Repr

/-- Emits a byte: a faulting write ends with `BUS` and emits nothing (R230), and a full output ends with `OK` (R149). -/
def emitList (o : Sink) (c : Byte) (rest : List Bool) (out : List Byte) : Unpacked :=
  if out.length = o.good then ⟨out, rest, some (.bus, false)⟩
  else if out.length + 1 = o.cap then ⟨c :: out, rest, some (.ok, false)⟩
  else ⟨c :: out, rest, none⟩

/-- Copies `n` dictionary bytes from index `off` up (R147). -/
def copyList (o : Sink) (rest : List Bool) : Nat → Nat → List Byte → Unpacked
  | 0, _, out => ⟨out, rest, none⟩
  | n + 1, off, out =>
    match emitList o (windowByte o.lits out (off % o.lits.dictSize)) rest out with
    | ⟨out', r, some e⟩ => ⟨out', r, some e⟩
    | ⟨out', _, none⟩ => copyList o rest n (off + 1) out'

/-- The decompressor over the list of bits of its input (R140, R146 to R150), with `n` passes at most. Where the bits run out
inside a symbol it ends with the code `short`, all of them used up (R150, R230). -/
def unpack (o : Sink) (short : ErrCode) : Nat → List Bool → List Byte → Unpacked
  | 0, bits, out => ⟨out, bits, none⟩
  | n + 1, bits, out =>
    match takeSymbol o.lits bits with
    | none => ⟨out, [], some (short, false)⟩
    | some (.literal c, rest) =>
      match emitList o (BitVec.ofNat 8 c) rest out with
      | ⟨out', r, some e⟩ => ⟨out', r, some e⟩
      | ⟨out', _, none⟩ => unpack o short n rest out'
    | some (.copy off len, rest) =>
      match copyList o rest (len + o.lits.minMatch) off out with
      | ⟨out', r, some e⟩ => ⟨out', r, some e⟩
      | ⟨out', _, none⟩ => unpack o short n rest out'
    | some (.endOfStream, rest) => ⟨out, rest, some (.ok, true)⟩

/-- How many bytes from `x` up come before the first that faults, `n` at most (R67). -/
def goodBytes (s : State) : Nat → Nat → Nat
  | _, 0 => 0
  | x, n + 1 => if memFault s x then 0 else goodBytes s (x + 1) n + 1

/-- How many bytes of the source region come before the first that faults. -/
def sourceGood (s : State) : Nat := goodBytes s s.srcAddr.toNat s.srcLen.toNat

/-- The bits of the source region before its first byte that faults (R87). -/
def sourceBits (s : State) : List Bool := bitsOfBytes (bytesFrom s s.srcAddr.toNat (sourceGood s))

/-- The destination region as an output, and the constants of R7. -/
def sinkOf (s : State) : Sink :=
  ⟨s.dstLen.toNat, goodBytes s s.dstAddr.toNat s.dstLen.toNat, s.params.lits⟩

/-- The decompressor on the source region of a state (R140, R142), with as many passes as R155 allows: where the bits run out, the
region has ended (`TRUNCATED`, R150) or its next byte faults (`BUS`, R230). -/
def unpackSource (s : State) : Unpacked :=
  if s.dstLen.toNat = 0 then ⟨[], sourceBits s, some (.ok, false)⟩
  else
    unpack (sinkOf s) (if sourceGood s = s.srcLen.toNat then .truncated else .bus) (8 * s.srcLen.toNat / symbolBits s.params.lits + 1)
      (sourceBits s) []

/-! ## The host's moves -/

/-- It is the host's turn in `s` (R269, the schedule being log entry 6's), and `u` is `s` with that turn used up. -/
def HostMoves (s u : State) : Prop :=
  (s.phase = .idle ∧ u = s) ∨ ∃ op n, s.phase = .running op ∧ s.turns = n + 1 ∧ u = { s with turns := n }

/-- What `n` steps lead to. -/
def steps : Nat → State → Host.Outcome State Fault Refusal
  | 0, s => .next s
  | n + 1, s =>
    match step s with
    | .next t => steps n t
    | .fault f => .fault f
    | .refused r => .refused r

/-! ## What the host can tell apart -/

/-- Two states that differ only in the hidden state that the host cannot read (R48): in `ACC`, `DICT`, `W`, `POS`, `MASK`, `RACK`
and `T`, and in `T` below slot 252 only while `KSV = 0` (R40, R43). -/
def SameToHost (s t : State) : Prop :=
  t = { s with
    tab := t.tab, acc := t.acc, dict := t.dict, wIndex := t.wIndex, pos := t.pos, mask := t.mask, rack := t.rack } ∧
  (s.ksv = true → ∀ i, i < 252 → tabGet t.tab i = tabGet s.tab i)

end Sys2Proof.Machine
end

