-- ==== Sys2Proof/Certificates/Slice0/Obligations.lean ====
section
/-! DEFINITION. The statements for the provers, family by family: each docstring names the rules of spec/ that the statement
formalises and, where it rests on a choice of the model, the log entry. -/

open Sys2Proof Sys2Proof.Machine

/-! ## Encodings -/

/-- The six words of R82, written bit by bit (`RSV`, `S`, `OP`), decode to the six commands. -/
def Obligations.CommandWordsDecode : Prop :=
  decode 0b000000000000000000000000000_0_0001#32 = .ok .cinit ∧
  decode 0b000000000000000000000000000_0_0010#32 = .ok .cnext ∧
  decode 0b000000000000000000000000000_0_0011#32 = .ok .decrypt ∧
  decode 0b000000000000000000000000000_1_0011#32 = .ok .decryptS ∧
  decode 0b000000000000000000000000000_0_0100#32 = .ok .csum ∧
  decode 0b000000000000000000000000000_0_0101#32 = .ok .lzdec

/-- R86: exactly six words decode to a command, each command's word is the one R82 gives it, and every other word is illegal.
The same word read as four little-endian bytes decodes alike (R32, R85). -/
def Obligations.DecodeEncodeAgree : Prop :=
  (encode .cinit = 0x00000001 ∧ encode .cnext = 0x00000002 ∧ encode .decrypt = 0x00000003 ∧ encode .decryptS = 0x00000013 ∧
    encode .csum = 0x00000004 ∧ encode .lzdec = 0x00000005) ∧
  (∀ v i, decode v = .ok i ↔ v = encode i) ∧
  (∀ v, (∃ e, decode v = .error e) ↔ v ∉ [0x00000001#32, 0x00000002#32, 0x00000003#32, 0x00000013#32, 0x00000004#32, 0x00000005#32]) ∧
  ∀ i rest, decodeBytes (leBytes 4 (encode i).toNat ++ rest) = .ok (i, rest)

/-- R84 and R223: a word with reserved bits, a reserved opcode, or `S = 1` without `DECRYPT`'s opcode is illegal. Written while
the block is idle it starts, with `EOS = 0` and no byte of memory its own; once it is running and no host statement comes first,
it only completes with `ILLEGAL`: the next state is the running one but for `STATUS`, `PHASE` and the record of the host's
accesses to a running command's regions, of which it has none. -/
def Obligations.IllegalWordsOnlyComplete : Prop :=
  ∀ v : Word,
    (v.extractLsb' 5 27 ≠ 0 ∨ v.extractLsb' 0 4 = 0 ∨ 6 ≤ (v.extractLsb' 0 4).toNat ∨
      (v.extractLsb' 4 1 = 1 ∧ v.extractLsb' 0 4 ≠ 3)) →
    (∀ s, busy s = false →
      (windowWrite 0x00 4 v s).phase = .running none ∧ (windowWrite 0x00 4 v s).eos = false ∧ (windowWrite 0x00 4 v s).held = []) ∧
    ∀ s, s.phase = .running (decodeOp v) → s.turns = 0 ∨ nextStmt s = none →
      step s = .next { s with err := .illegal, done := true, phase := .idle, touched := [] }

/-- R89 to R91: a symbol is read back from its bits, whatever follows, and what is read is the bits of a well-formed symbol; this
whatever the widths of the fields are (D41). -/
def Obligations.SymbolRoundTrip : Prop :=
  ∀ l : Literals,
    (∀ (y : Symbol) rest, y.wellFormed l = true → takeSymbol l (y.bits l ++ rest) = some (y, rest)) ∧
    ∀ (bs : List Bool) y rest, takeSymbol l bs = some (y, rest) → y.wellFormed l = true ∧ bs = y.bits l ++ rest

/-- R87, R91, R143, R144: the cursor reads the symbols of the bits that it has still to read, in order, and moves past exactly
their bits, changing nothing but itself; where the bits do not hold a whole symbol the read is `TRUNCATED` with the source
used up. -/
def Obligations.CursorReadsTheBitstream : Prop :=
  ∀ s, maskOk s = true → s.pos.toNat ≤ s.srcLen.toNat → NoFault s s.srcAddr.toNat s.srcLen.toNat →
    (∀ y rest, takeSymbol s.params.lits (remainingBits s) = some (y, rest) → ∃ t, readSymbol s = .ok y t ∧
      t = s.setCursor t.pos t.mask t.rack ∧ maskOk t = true ∧ t.pos.toNat ≤ t.srcLen.toNat ∧ remainingBits t = rest) ∧
    (takeSymbol s.params.lits (remainingBits s) = none → ∃ t, readSymbol s = .stop .truncated t ∧
      t = s.setCursor t.pos t.mask t.rack ∧ t.pos = t.srcLen)

/-! ## The cipher -/

/-- R42: `MAP` is the successor modulo 250, over 250 entries: those of `MAP_LEN` with R7's value (D41). -/
def Obligations.MapIsTheCyclicSuccessor : Prop :=
  Literals.source.mapLen = 250 ∧ ∀ l : Literals, l.mapLen = 250 →
    (∀ i, i ≤ 248 → mapAt l i = i + 1) ∧ mapAt l 249 = 0 ∧ ∀ i, i ≤ 249 → mapAt l i = (i + 1) % 250

/-- R100 to R105, R107: `CINIT` completes with `OK`, whatever the seed, and leaves the table of the seed: the cursors 0 and 103,
the lag region of the pre-pass and the diagonal, `T[252..255]` as they were; `ACC` is the pre-pass's last value. What `ACC` holds
under the reading `acc32` is the model's inference (log entry 11). The numbers are given for R7's values of the constants (D41). -/
def Obligations.CinitSeedsTheTable : Prop :=
  ∀ s, ∃ t, exec .cinit s = .next t ∧ CompletedWith .ok t ∧ t.ksv = true ∧
    (SourceLiterals s →
      tabGet t.tab 0 = 0 ∧ tabGet t.tab 1 = 103 ∧
      (∀ i, 2 ≤ i → i ≤ 251 → (tabGet t.tab i).toNat = seededSlot s.params.lcgReading s.seed.toNat i) ∧
      (∀ i, 252 ≤ i → i ≤ 255 → tabGet t.tab i = tabGet s.tab i) ∧
      t.acc = accAfter s.params.lcgReading s.seed.toNat 250)

/-- R107: the frame of `CINIT`: it touches no memory, no result register and nothing of the decompressor. -/
def Obligations.CinitFrame : Prop :=
  ∀ s, ∃ t, exec .cinit s = .next t ∧ t.mem = s.mem ∧ KeepsOperands s t ∧ KeepsDecompressor s t ∧ t.result = s.result

/-- R106, R108: `CNEXT` with `KSV = 1` returns the XOR of the words at the two cursors, stores it at the first, and advances both
cursors through `MAP`; every other slot stays. The premise on the cursors is the invariant of R38 and R44. It completes whatever the
constants of R7 are; the word and the table are given for tables of R7's sizes (D41). -/
def Obligations.CnextDrawsOneWord : Prop :=
  ∀ s, s.ksv = true → ∃ t, exec .cnext s = .next t ∧ CompletedWith .ok t ∧
    (CipherSizes s.params.lits → cursorsOk s = true →
      t.result = tabGet s.tab (((tabGet s.tab 0).toNat + 103) % 250 + 2) ^^^ tabGet s.tab ((tabGet s.tab 0).toNat + 2) ∧
      (tabGet t.tab 0).toNat = ((tabGet s.tab 0).toNat + 1) % 250 ∧
      (tabGet t.tab 1).toNat = ((tabGet s.tab 0).toNat + 104) % 250 ∧
      ∀ i, 2 ≤ i → i ≤ 255 →
        tabGet t.tab i = if i = (tabGet s.tab 0).toNat + 2 then t.result else tabGet s.tab i)

/-- R108: the frame of `CNEXT`, whether it draws a word or is refused: it touches no memory, not `ACC`, not `KSV`, and nothing of
the decompressor. -/
def Obligations.CnextFrame : Prop :=
  ∀ s, ∃ t, exec .cnext s = .next t ∧ t.mem = s.mem ∧ KeepsOperands s t ∧ KeepsDecompressor s t ∧ t.acc = s.acc ∧ t.ksv = s.ksv

/-- R227: `CNEXT` with `KSV = 0` completes with `NOT_INIT` and has no other effect. -/
def Obligations.CnextBeforeSeeding : Prop :=
  ∀ s, s.ksv = false → exec .cnext s = .next { s with err := .notInit, done := true, phase := .idle }

/-- R106, R108: after `CipherInit`, with `x[k] = T[k+2]`, the `n`-th draw (from 0) gives `x[n mod 250] XOR x[(n+103) mod 250]` and
stores it at `x[n mod 250]`, the cursors then being `n mod 250` and `(n + 103) mod 250`; so from the 250th draw on each word
is the XOR of the words drawn 250 and 147 draws before it. The premise is that the constants are R7's (D41). -/
def Obligations.KeystreamRecurrence : Prop :=
  ∀ (seed : Word) (s : State) (n : Nat), SourceLiterals s →
    let l := s.params.lits
    let u := (cipherInit seed s).tab
    tabGet (keyTab l n u) 0 = BitVec.ofNat 32 (n % 250) ∧
    tabGet (keyTab l n u) 1 = BitVec.ofNat 32 ((n + 103) % 250) ∧
    keyWord l u n = tabGet (keyTab l n u) (n % 250 + 2) ^^^ tabGet (keyTab l n u) ((n + 103) % 250 + 2) ∧
    tabGet (keyTab l (n + 1) u) (n % 250 + 2) = keyWord l u n ∧
    keyWord l u (n + 250) = keyWord l u n ^^^ keyWord l u (n + 103)

/-- R116: the words drawn after `CipherInit(seed)` do not depend on the state before it (of two machines with the same
constants, those that size the cipher's tables being R7's, under one reading of the pre-pass). -/
def Obligations.KeystreamDependsOnTheSeedAlone : Prop :=
  ∀ (seed : Word) (s s' : State), CipherSizes s.params.lits → s.params.lcgReading = s'.params.lcgReading →
    s.params.lits = s'.params.lits →
    ∀ n, keyWord s.params.lits (cipherInit seed s).tab n = keyWord s'.params.lits (cipherInit seed s').tab n

/-- R109 to R114: a `DECRYPT` with either seed source, whose pre-checks pass and whose region does not fault, completes with
`OK`: every byte after the seed is XORed with its keystream byte, no other byte changes (the seed bytes of `S = 1` among them),
and the table is the seed's after exactly the words drawn, with `T[254] = 0`. What `ACC` then holds under the reading `acc32` is the
model's inference (log entry 11). It completes, and changes no byte outside its region, whatever the constants of R7 are (D41); the
bytes are given for tables of R7's sizes, the table and `ACC` for R7's values of them all. -/
def Obligations.DecryptXorsTheRegion : Prop :=
  ∀ i s, DecryptReady i s → Memory.wf s.mem = true → NoFault s s.srcAddr.toNat s.srcLen.toNat →
    ∃ t, exec i s = .next t ∧ CompletedWith .ok t ∧ t.ksv = true ∧
      SameOutside ⟨decryptBase i s, decryptLen i s⟩ s t ∧
      (CipherSizes s.params.lits → DecryptedUpTo (decryptLen i s) i s t) ∧
      (SourceLiterals s → TableIs t (keyTab s.params.lits (keyCount (decryptLen i s)) (seededTab i s)) ∧
        t.acc = accAfter s.params.lcgReading (decryptSeed i s).toNat 250)

/-- R109: the frame of `DECRYPT` with either seed source, whichever way it completes: it writes only bytes of its region after the
seed, and neither `RESULT` nor anything of the decompressor. -/
def Obligations.DecryptFrame : Prop :=
  ∀ i s, i = .decrypt ∨ i = .decryptS → ∃ t, exec i s = .next t ∧
    SameOutside ⟨decryptBase i s, decryptLen i s⟩ s t ∧ KeepsOperands s t ∧ KeepsDecompressor s t ∧ t.result = s.result

/-- R115: two `DECRYPT`s with the same seed source, region and seed restore every byte of memory, and end alike: also where the
first is refused or ends with `BUS`, for the second then stops at the same place. They end alike whatever the constants of R7
are, and restore memory with tables of R7's sizes (D41). -/
def Obligations.DecryptTwiceRestores : Prop :=
  ∀ i s, i = .decrypt ∨ i = .decryptS → Memory.wf s.mem = true →
    ∃ t u, exec i s = .next t ∧ exec i t = .next u ∧ u.err = t.err ∧ (CipherSizes s.params.lits → SameMemory s u)

/-- R230: a fault in the seed read of `DECRYPT` with `S = 1` completes it with `BUS` and changes nothing else. -/
def Obligations.DecryptSeedFault : Prop :=
  ∀ s y, 4 ≤ s.srcLen.toNat → SrcInRange s →
    s.srcAddr.toNat ≤ y → y < s.srcAddr.toNat + 4 → memFault s y = true →
    exec .decryptS s = .next { s with err := .bus, done := true, phase := .idle }

/-- R230, R232: where byte `k` after the seed is the first that faults, `DECRYPT` completes with `BUS` at it: in the word loop the
words before it are decrypted and no word is drawn for its own; in the tail the bytes before it are decrypted, from the tail's
one word. Nothing is rolled back. It completes so whatever the constants of R7 are (D41); the bytes are given for tables of R7's
sizes, the table for R7's values of them all. -/
def Obligations.DecryptBusKeepsPartialEffects : Prop :=
  ∀ i s k, DecryptReady i s → Memory.wf s.mem = true → k < decryptLen i s →
    NoFault s s.srcAddr.toNat (decryptBase i s - s.srcAddr.toNat + k) → memFault s (decryptBase i s + k) = true →
    ∃ t, exec i s = .next t ∧ CompletedWith .bus t ∧ t.ksv = true ∧
      SameOutside ⟨decryptBase i s, if k < 4 * (decryptLen i s / 4) then 4 * (k / 4) else k⟩ s t ∧
      (CipherSizes s.params.lits →
        DecryptedUpTo (if k < 4 * (decryptLen i s / 4) then 4 * (k / 4) else k) i s t) ∧
      (SourceLiterals s →
        TableIs t (keyTab s.params.lits (if k < 4 * (decryptLen i s / 4) then k / 4 else decryptLen i s / 4 + 1) (seededTab i s)))

/-! ## The checksum -/

/-- R180, R182: `CSUM` of a region in range folds its full little-endian words, XOR at even and wrapping addition at odd indexes,
and writes nothing but `RESULT`, `STATUS` and `PHASE`; a fault in one of its words is `BUS` and leaves `RESULT`; a region out
of range is `RANGE`. -/
def Obligations.CsumFoldsTheWords : Prop :=
  ∀ s : State,
    (SrcInRange s → NoFault s s.srcAddr.toNat (4 * (s.srcLen.toNat / 4)) →
      exec .csum s = .next { s with
        result := (List.range (s.srcLen.toNat / 4)).foldl
          (fun acc i => if i % 2 = 0 then acc ^^^ wordAt s (s.srcAddr.toNat + 4 * i) else acc + wordAt s (s.srcAddr.toNat + 4 * i)) 0
        err := .ok, done := true, phase := .idle }) ∧
    (SrcInRange s →
      (∃ y, s.srcAddr.toNat ≤ y ∧ y < s.srcAddr.toNat + 4 * (s.srcLen.toNat / 4) ∧ memFault s y = true) →
      exec .csum s = .next { s with err := .bus, done := true, phase := .idle }) ∧
    (¬SrcInRange s →
      exec .csum s = .next { s with err := .range, done := true, phase := .idle })

/-- R181: the last `SRC_LEN mod 4` bytes are not read and do not affect the result: over memories and faults that agree on the
full words `CSUM` ends alike. A region of fewer than 4 bytes gives 0, whether or not its bytes fault. -/
def Obligations.CsumIgnoresTrailingBytes : Prop :=
  (∀ (s : State) m (f : List Range),
    (∀ x, s.srcAddr.toNat ≤ x → x < s.srcAddr.toNat + 4 * (s.srcLen.toNat / 4) →
      Memory.read m x = byteAt s x ∧ (f.any fun r => r.has x) = memFault s x) →
    ∃ t t', exec .csum s = .next t ∧ exec .csum { s with mem := m, params := { s.params with memFaults := f } } = .next t' ∧
      t'.result = t.result ∧ t'.err = t.err) ∧
  ∀ s : State, s.srcLen.toNat < 4 → SrcInRange s →
    ∃ t, exec .csum s = .next t ∧ CompletedWith .ok t ∧ t.result = 0

/-! ## The decompressor -/

/-- R154: `LZDEC` with overlapping regions, both in range, completes with `OVERLAP` and does nothing else; it completes with
`OVERLAP` for no other regions. -/
def Obligations.LzdecRefusesOverlap : Prop :=
  ∀ s : State, SrcInRange s → DstInRange s →
    ((0 < s.srcLen.toNat ∧ 0 < s.dstLen.toNat ∧ s.srcAddr.toNat < s.dstAddr.toNat + s.dstLen.toNat ∧
        s.dstAddr.toNat < s.srcAddr.toNat + s.srcLen.toNat) →
      exec .lzdec s = .next { s with err := .overlap, done := true, phase := .idle }) ∧
    (¬(0 < s.srcLen.toNat ∧ 0 < s.dstLen.toNat ∧ s.srcAddr.toNat < s.dstAddr.toNat + s.dstLen.toNat ∧
        s.dstAddr.toNat < s.srcAddr.toNat + s.srcLen.toNat) →
      ∃ t, exec .lzdec s = .next t ∧ t.err ≠ .overlap ∧ t.err ≠ .range)

/-- R142: `LZDEC` with `DST_LEN = 0` stops with `OK` before it reads a bit, even when `SRC_LEN = 0`: memory, `RACK` and everything
outside the decompressor are as they were. R141: `DICT`, `W`, `POS` and `MASK` have then their starting values. With R7's constants
`W` is 1; that any other `W_INIT` is taken modulo `DICT_SIZE` is the model's choice (log entry 26). -/
def Obligations.LzdecWithNoCapacity : Prop :=
  ∀ s : State, SrcInRange s → s.dstLen = 0 →
    exec .lzdec s = .next { s with
      dict := List.replicate s.params.lits.dictSize 0, wIndex := s.params.lits.wInit % s.params.lits.dictSize, pos := 0, mask := 0x80
      outCount := 0, inPos := 0, eos := false
      err := .ok, done := true, phase := .idle }

/-- R155: `LZDEC` always completes: after its pre-checks its loop stops within `floor(8 * SRC_LEN / 9) + 1` passes, whatever the
source bytes and faults are. That with other field widths than R7's (D41) the 9 becomes the fewest bits of a symbol after which it
goes on is the model's inference (log entry 15). -/
def Obligations.LzdecAlwaysStops : Prop :=
  (∀ s, precheck .lzdec s = none → s.dstLen ≠ 0 →
    (∃ c t, lzLoop (8 * s.srcLen.toNat / (1 + min s.params.lits.literalBits s.params.lits.offsetBits) + 1) (lzStart s) = .stop c t) ∧
    (SourceLiterals s → ∃ c t, lzLoop (8 * s.srcLen.toNat / 9 + 1) (lzStart s) = .stop c t)) ∧
  ∀ s, ∃ t, exec .lzdec s = .next t ∧ t.phase = .idle ∧ t.done = true ∧ t.err ≠ .illegal ∧ t.err ≠ .length ∧ t.err ≠ .notInit

/-- R149 to R152: after its pre-checks `LZDEC` writes only the `OUT_COUNT` bytes from `DST_ADDR` up, at most `DST_LEN`, loads at
most `SRC_LEN` bytes, and ends in one of four ways: output full (`OK`, `EOS = 0`), end marker (`OK`, `EOS = 1`), input used up
(`TRUNCATED`, `EOS = 0`, `IN_POS = SRC_LEN`), or `BUS` (`EOS = 0`). -/
def Obligations.LzdecStaysInBounds : Prop :=
  ∀ s, precheck .lzdec s = none → ∃ t, exec .lzdec s = .next t ∧
    SameOutside ⟨s.dstAddr.toNat, t.outCount.toNat⟩ s t ∧
    t.outCount.toNat ≤ s.dstLen.toNat ∧ t.inPos = t.pos ∧ t.inPos.toNat ≤ s.srcLen.toNat ∧
    ((CompletedWith .ok t ∧ t.eos = false ∧ t.outCount = s.dstLen) ∨ (CompletedWith .ok t ∧ t.eos = true) ∨
      (CompletedWith .truncated t ∧ t.eos = false ∧ t.inPos = s.srcLen) ∨ (CompletedWith .bus t ∧ t.eos = false))

/-- R140: the frame of `LZDEC`, whichever way it completes: it changes neither `RESULT` nor anything of the cipher, no operand
register, and no byte outside its destination region. -/
def Obligations.LzdecFrame : Prop :=
  ∀ s, ∃ t, exec .lzdec s = .next t ∧ SameOutside (dstRegion s) s t ∧ KeepsOperands s t ∧ KeepsCipher s t ∧
    t.result = s.result

/-- R140 to R153, R230, R232: `LZDEC` does what the decompressor over lists does with the bits of the source before its first byte
that faults, and with a destination that takes bytes up to its first that faults: the same end, the same bytes from `DST_ADDR`
up and no other byte changed, `DICT` and `W` as those bytes leave them, and as many source bytes loaded as hold the bits read.
So where the bits run out the end is `TRUNCATED` if the region has ended and `BUS`, `POS` not moved, if its next byte faults; and
an output byte that faults ends with `BUS`, `OUT_COUNT`, `DICT` and `W` not moved. The constants of R7 have any value (D41);
what comes of values other than R7's where no rule says it is the model's choice, log entry 26: that `W_INIT` and the dictionary's
indices are taken modulo `DICT_SIZE` (also where that is 0), and that a literal wider than 8 bits emits its low byte. -/
def Obligations.LzdecRefinesTheListDecompressor : Prop :=
  ∀ s, precheck .lzdec s = none → Memory.wf s.mem = true →
    ∃ t c e, exec .lzdec s = .next t ∧ (unpackSource s).stop = some (c, e) ∧ CompletedWith c t ∧ t.eos = e ∧
      t.outCount.toNat = (unpackSource s).out.length ∧
      bytesFrom t s.dstAddr.toNat t.outCount.toNat = (unpackSource s).out.reverse ∧
      SameOutside ⟨s.dstAddr.toNat, t.outCount.toNat⟩ s t ∧
      t.wIndex = (s.params.lits.wInit + (unpackSource s).out.length) % s.params.lits.dictSize ∧
      (∀ j, dictGet t.dict j = windowByte s.params.lits (unpackSource s).out j) ∧
      t.inPos = t.pos ∧ t.pos.toNat = (8 * sourceGood s - (unpackSource s).rest.length + 7) / 8

/-- R141: nothing of an earlier `LZDEC` reaches a later one: whatever `DICT`, `W`, `POS`, `MASK`, `RACK` and `OUT_COUNT` held, an
`LZDEC` that passes its pre-checks ends alike, with the same memory. -/
def Obligations.LzdecStartsFresh : Prop :=
  ∀ (s : State) d w p m r n, precheck .lzdec s = none → ∃ t t', exec .lzdec s = .next t ∧
    exec .lzdec { s with dict := d, wIndex := w, pos := p, mask := m, rack := r, outCount := n } = .next t' ∧
    t' = { t with rack := t'.rack }

/-! ## Pre-checks and completion -/

/-- R224: a command whose source region passes the top of the data memory, or an `LZDEC` whose destination region does, completes
with `RANGE` and changes nothing but `STATUS` and `PHASE`. -/
def Obligations.RangeIsRefused : Prop :=
  (∀ i (s : State), i ∈ [Instr.decrypt, .decryptS, .csum, .lzdec] → ¬SrcInRange s →
    exec i s = .next { s with err := .range, done := true, phase := .idle }) ∧
  ∀ s : State, ¬DstInRange s →
    exec .lzdec s = .next { s with err := .range, done := true, phase := .idle }

/-- R225: `DECRYPT` with `S = 1` and fewer than 4 bytes completes with `LENGTH` and no effect, where its region is in range; with
`S = 0` every length is accepted, 0 included. -/
def Obligations.LengthIsRefused : Prop :=
  (∀ s : State, s.srcLen.toNat < 4 → SrcInRange s →
    exec .decryptS s = .next { s with err := .length, done := true, phase := .idle }) ∧
  ∀ s : State, ∃ t, exec .decrypt s = .next t ∧ t.err ≠ .length

/-- R229, R231: the first pre-check that fails, in the order `RANGE` of the source, `RANGE` of the destination, `LENGTH`,
`OVERLAP`, `NOT_INIT`, each for the commands it applies to, gives the code, and the command changes nothing but `STATUS`
and `PHASE`; a command whose pre-checks pass ends with none of those codes. -/
def Obligations.PrechecksComeFirst : Prop :=
  ∀ i (s : State),
    let code : Option ErrCode :=
      if i ∈ [Instr.decrypt, .decryptS, .csum, .lzdec] ∧ ¬SrcInRange s then some .range
      else if i = .lzdec ∧ ¬DstInRange s then some .range
      else if i = .decryptS ∧ s.srcLen.toNat < 4 then some .length
      else if i = .lzdec ∧ (srcRegion s).overlaps (dstRegion s) = true then some .overlap
      else if i = .cnext ∧ s.ksv = false then some .notInit
      else none
    (∀ c, code = some c → exec i s = .next { s with err := c, done := true, phase := .idle }) ∧
    (code = none → ∃ t, exec i s = .next t ∧ t.err ∈ [ErrCode.ok, .truncated, .bus])

/-- R221, R231, R269: every command completes, from every state: it is done, the block is idle again, and its code is `OK` or one
of those that its row of R231 allows it. -/
def Obligations.EveryCommandCompletes : Prop :=
  ∀ i s, ∃ t, exec i s = .next t ∧ t.phase = .idle ∧ t.done = true ∧
    t.err ∈ (match i with
      | .cinit => [ErrCode.ok]
      | .cnext => [.ok, .notInit]
      | .decrypt => [.ok, .range, .bus]
      | .decryptS => [.ok, .range, .length, .bus]
      | .csum => [.ok, .range, .bus]
      | .lzdec => [.ok, .range, .overlap, .truncated, .bus])

/-! ## Rules of the whole block -/

/-- R35: no command writes an operand register, `CMD`, a parameter or anything of the host. -/
def Obligations.CommandsKeepTheOperands : Prop :=
  ∀ i s, ∃ t, exec i s = .next t ∧ KeepsOperands s t

/-- R28 to R30: `RESULT` is written only by `CNEXT` and `CSUM` that complete with `OK`; `OUT_COUNT` and `IN_POS` only by an `LZDEC`
that passed its pre-checks. -/
def Obligations.ResultRegistersHaveOneWriter : Prop :=
  ∀ i s, ∃ t, exec i s = .next t ∧
    (t.result ≠ s.result → (i = .cnext ∨ i = .csum) ∧ t.err = .ok) ∧
    ((t.outCount ≠ s.outCount ∨ t.inPos ≠ s.inPos) → i = .lzdec ∧ precheck .lzdec s = none)

/-- R43: `KSV` is 0 after reset; `CINIT` always sets it, `DECRYPT` once its pre-checks and its seed read have passed; nothing else
sets it and no command clears it; `CNEXT` with `KSV = 0` is `NOT_INIT`. -/
def Obligations.KsvIsSetBySeedingOnly : Prop :=
  State.reset.ksv = false ∧
  ∀ i s, ∃ t, exec i s = .next t ∧
    (t.ksv = true ↔ s.ksv = true ∨ i = .cinit ∨ (i = .decrypt ∧ DecryptReady i s) ∨
      (i = .decryptS ∧ DecryptReady i s ∧ NoFault s s.srcAddr.toNat 4)) ∧
    (i = .cnext → s.ksv = false → t.err = .notInit)

/-- R68, its writes: a command changes only bytes that it writes: none for `CINIT`, `CNEXT` and `CSUM`, the region after the
seed for `DECRYPT`, the `OUT_COUNT` bytes from `DST_ADDR` up for `LZDEC`, and none at all where a pre-check fails (R229). -/
def Obligations.CommandsWriteOnlyTheirRegions : Prop :=
  ∀ i s, ∃ t, exec i s = .next t ∧
    ∀ x, (∀ l ∈ usedBy i s t, l.writes = true → l.region.has x = false) → byteAt t x = byteAt s x

/-- R68, its reads, and R266: bytes other than those a command reads and writes cannot affect it (of `LZDEC`'s regions, those beyond
the `IN_POS` bytes loaded and the `OUT_COUNT` bytes emitted): over a memory that agrees on its bytes it ends in the same state,
register for register, with the same bytes there. -/
def Obligations.CommandsReadOnlyTheirRegions : Prop :=
  ∀ i s, Memory.wf s.mem = true → ∃ t, exec i s = .next t ∧
    ∀ m, Memory.wf m = true →
      (∀ l ∈ usedBy i s t, ∀ x, l.region.has x = true → Memory.read m x = byteAt s x) →
      ∃ t', exec i (s.setMem m) = .next t' ∧ t' = t.setMem t'.mem ∧
        ∀ l ∈ usedBy i s t, ∀ x, l.region.has x = true → byteAt t' x = byteAt t x

/-- R40, R48, R49: the hidden state reaches the host only where a seeding command put it: two states that differ only in what the
host cannot read (and in `T[0..251]` only while `KSV = 0`) end, after the same command, in two such states again; so their
registers and memories stay equal. The premise is that the constants that size the cipher's tables are R7's (D41). -/
def Obligations.HiddenStateStaysHidden : Prop :=
  ∀ i s s', CipherSizes s.params.lits → SameToHost s s' → ∃ t t', exec i s = .next t ∧ exec i s' = .next t' ∧ SameToHost t t'

/-! ## The register window -/

/-- R34, R267: while a command runs every write of the window is ignored, a `CMD` write included. -/
def Obligations.BusyWritesAreIgnored : Prop :=
  ∀ s op, s.phase = .running op → ∀ off width v, windowWrite off width v s = s

/-- R31: offsets 0x28 to 0xFC read 0 and ignore writes, at any access. -/
def Obligations.ReservedOffsets : Prop :=
  ∀ s off width v, 0x28 ≤ off → off ≤ 0xFC → windowRead off width s = (0, s) ∧ windowWrite off width v s = s

/-- R32: an access of another width than 4 bytes, or at an offset that is no multiple of 4, reads 0 and writes nothing. -/
def Obligations.OtherAccessesAreIgnored : Prop :=
  ∀ s off width v, width ≠ 4 ∨ off % 4 ≠ 0 → windowRead off width s = (0, s) ∧ windowWrite off width v s = s

/-- R33: writes to `STATUS`, `RESULT`, `OUT_COUNT` and `IN_POS` are ignored. -/
def Obligations.ReadOnlyRegisters : Prop :=
  ∀ r s v, r ∈ [HReg.status, .result, .outCount, .inPos] → windowWrite (regOffset r) 4 v s = s

/-- R23 to R27: a write to an operand register while the block is idle is read back there, and changes no other operand register,
not `CMD`, and nothing else. -/
def Obligations.OperandRegistersHold : Prop :=
  ∀ s v, busy s = false →
    windowWrite 0x08 4 v s = { s with seed := v } ∧ (windowRead 0x08 4 (windowWrite 0x08 4 v s)).1 = v ∧
    windowWrite 0x0C 4 v s = { s with srcAddr := v } ∧ (windowRead 0x0C 4 (windowWrite 0x0C 4 v s)).1 = v ∧
    windowWrite 0x10 4 v s = { s with srcLen := v } ∧ (windowRead 0x10 4 (windowWrite 0x10 4 v s)).1 = v ∧
    windowWrite 0x14 4 v s = { s with dstAddr := v } ∧ (windowRead 0x14 4 (windowWrite 0x14 4 v s)).1 = v ∧
    windowWrite 0x18 4 v s = { s with dstLen := v } ∧ (windowRead 0x18 4 (windowWrite 0x18 4 v s)).1 = v

/-- R21, R220: a `CMD` write while the block is idle stores all 32 bits and starts what they decode to: `BUSY`, `PHASE`, `DONE`,
`ERR` and `EOS` take their starting values, and no other register of the block, no hidden state and no byte of memory changes;
`CMD` reads back as the word. -/
def Obligations.CmdWriteStartsTheCommand : Prop :=
  ∀ s v, busy s = false → ∃ t, windowWrite 0x00 4 v s = t ∧
    t = { s with
      cmd := v, phase := .running (decodeOp v), done := false, err := .ok, eos := false
      sched := t.sched, turns := t.turns, polled := t.polled, held := t.held, unseen := t.unseen, touched := t.touched } ∧
    busy t = true ∧ (windowRead 0x00 4 t).1 = v

/-- R22: what a read of `STATUS` gives: bits 31:8 are 0; while idle the five fields as they stand; while busy `BUSY = 1`, `DONE`,
`EOS` and `ERR` 0, and `KSV` its value before the command or after it. No read changes a field. The premise is the model's
invariant on `STATUS` and `PHASE`. The codes that `ERR` holds have the numbers of R222. -/
def Obligations.StatusRead : Prop :=
  (ErrCode.ok.code = 0 ∧ ErrCode.illegal.code = 1 ∧ ErrCode.range.code = 2 ∧ ErrCode.length.code = 3 ∧ ErrCode.overlap.code = 4 ∧
    ErrCode.notInit.code = 5 ∧ ErrCode.truncated.code = 6 ∧ ErrCode.bus.code = 7) ∧
  ∀ s : State, statusOk s = true → ∃ w t, windowRead 0x04 4 s = (w, t) ∧
    w.extractLsb' 8 24 = 0 ∧
    (s.phase = .idle →
      w.getLsbD 0 = false ∧ w.getLsbD 1 = s.done ∧ w.getLsbD 2 = s.ksv ∧ w.getLsbD 3 = s.eos ∧
        w.extractLsb' 4 4 = s.err.code) ∧
    (∀ op, s.phase = .running op →
      w.getLsbD 0 = true ∧ w.getLsbD 1 = false ∧ w.getLsbD 3 = false ∧ w.extractLsb' 4 4 = 0 ∧
        (w.getLsbD 2 = s.ksv ∨ w.getLsbD 2 = ksvAfter op s)) ∧
    t = { s with draws := t.draws, polled := t.polled, held := t.held, unseen := t.unseen }

/-- R28 to R30, R265: once `STATUS` has been read with `BUSY = 0`, the result registers read as they stand and a read changes
nothing; until then the value read is free, and this says nothing of it, but still nothing but the count of draws changes.
How the model keeps track of the poll is its own (log entry 8). -/
def Obligations.ResultReads : Prop :=
  ∀ s : State,
    (s.phase = .idle → (windowRead 0x04 4 s).2.polled = true) ∧
    (s.polled = true →
      windowRead 0x1C 4 s = (s.result, s) ∧ windowRead 0x20 4 s = (s.outCount, s) ∧ windowRead 0x24 4 s = (s.inPos, s)) ∧
    ∀ off ∈ [0x1C, 0x20, 0x24], ∃ w n, windowRead off 4 s = (w, s.setDraws n)

/-! ## Steps -/

/-- What a step runs. A running command makes its transition when the schedule lets no host statement pass first, or the host has
none left (R269, the schedule being log entry 6's): where the host has accessed no byte of the command's regions, the step is `exec` of
the command in `PHASE`, in particular for a command placed as the host's accepted `CMD` write would (log entry 4); where it
has accessed a byte that the command uses, the step is `exec` over free bytes where it has, and then the settlement of the race
(R73, as log entry 9 reads it). Else the host's next statement runs (R92), and while a command runs it uses up one of the turns
that the schedule gives. -/
def Obligations.StepRunsTheDecodedCommand : Prop :=
  (∀ s i, s.phase = .running (some i) → s.turns = 0 ∨ nextStmt s = none → s.touched = [] → step s = exec i s) ∧
  (∀ (s : State) nbits w i, decodeTableWord nbits w = some i → step (s.withFetchWord nbits w) = exec i (s.withFetchWord nbits w)) ∧
  (∀ s i u t, s.phase = .running (some i) → s.turns = 0 ∨ nextStmt s = none → exec i s = .next u → raced i s u = true →
    exec i (scrambleBytes s.touched s) = .next t → step s = .next (settleRace i s t)) ∧
  (∀ s, s.phase = .idle → step s = hostTurn s) ∧
  ∀ s op n, s.phase = .running op → s.turns = n + 1 → nextStmt s ≠ none → step s = hostTurn { s with turns := n }

/-- R73, R266: a running command's transition, whatever the host has done with its regions. Where the host has accessed no byte that
the command uses, there is no race: the end is the one `exec` gives. Where it has, the command runs over free bytes where the host
accessed its regions, and the end changes no byte outside those that it then writes and those the host accessed, leaves those that
it does not use as the host left them, and changes no operand register. Which runs a race may have is log entry 9's, and
that the bytes past a fault count as used is log entry 25's. -/
def Obligations.RacesStayInside : Prop :=
  ∀ s i, s.phase = .running (some i) → s.turns = 0 ∨ nextStmt s = none → Memory.wf s.mem = true →
    ∃ u, exec i s = .next u ∧
      ((∀ x ∈ s.touched, ∀ l ∈ usedBy i s u, l.region.has x = false) → step s = .next { u with touched := [] }) ∧
      ((∃ x ∈ s.touched, ∃ l ∈ usedBy i s u, l.region.has x = true) →
        ∃ t v, step s = .next t ∧ exec i (scrambleBytes s.touched s) = .next v ∧
          (∀ x, x ∉ s.touched → (∀ l ∈ usedBy i s v, l.writes = true → l.region.has x = false) → byteAt t x = byteAt s x) ∧
          (∀ x ∈ s.touched, (∀ l ∈ usedBy i s v, l.region.has x = false) → byteAt t x = byteAt s x) ∧
          t.phase = .idle ∧ t.done = true ∧ t.err = v.err ∧ t.ksv = v.ksv ∧ t.eos = v.eos ∧ t.cmd = s.cmd ∧ t.seed = s.seed ∧
          t.srcAddr = s.srcAddr ∧ t.srcLen = s.srcLen ∧ t.dstAddr = s.dstAddr ∧ t.dstLen = s.dstLen)

/-- R7 lists the parameters; that the model holds the open ones in the state and that no step changes one is its own reading
(log entry 5). After reset the constants and readings have the values that R7 states. -/
def Obligations.StepsKeepTheParameters : Prop :=
  (∀ s t, step s = .next t → t.params = s.params) ∧
  State.reset.params.lits = {
    addrW := 32, tableWords := 256, lagWords := 250, mapLen := 250, bInit := 103, lcgMul := 0x41C64E6D, lcgAdd := 0xFFFF00003039
    lcgWidth := 64, diagStart := 5, diagStride := 7, diagCount := 32, bootSeed := 1234567890, dictSize := 4096
    offsetBits := 12, lengthBits := 4, literalBits := 8, minMatch := 2, wInit := 1 } ∧
  State.reset.params.lcgReading = .acc64 ∧ State.reset.params.tailOrder = .msbFirst ∧ ∀ x, memFault State.reset x = false

/-- R44: while `KSV = 1`, `T[1] = (T[0] + 103) mod 250`: the state after any command is so where the state before was, and any
`CipherInit` makes it so; `T[0]` is then in 0..249 (R38). The premise is that the constants are R7's (D41). -/
def Obligations.CursorsStayApart : Prop :=
  (∀ seed s, SourceLiterals s → (tabGet (cipherInit seed s).tab 0).toNat < 250 ∧
    (tabGet (cipherInit seed s).tab 1).toNat = ((tabGet (cipherInit seed s).tab 0).toNat + 103) % 250) ∧
  ∀ i s, SourceLiterals s →
    (s.ksv = true → (tabGet s.tab 0).toNat < 250 ∧ (tabGet s.tab 1).toNat = ((tabGet s.tab 0).toNat + 103) % 250) →
    ∃ t, exec i s = .next t ∧
      (t.ksv = true → (tabGet t.tab 0).toNat < 250 ∧ (tabGet t.tab 1).toNat = ((tabGet t.tab 0).toNat + 103) % 250)

/-- Every step, of a command, of the host or of a reset, keeps the invariant: memory in canonical form and inside `2^ADDR_W` bytes
(R60), the constants R7's (D41), `T`, `ACC`, `DICT` and `W` of their sizes (R37, R41, R45, R46), the cursors 103 apart (R38,
R44), `MASK` one of its eight values (R47), `STATUS` in agreement with `PHASE` (R22, R36), and the model's own bookkeeping in
range. -/
def Obligations.StepsKeepTheInvariant : Prop :=
  ∀ s t, inv s = true → step s = .next t → inv t = true

/-- The invariant holds after reset. -/
def Obligations.ResetMeetsTheInvariant : Prop := inv State.reset = true

/-! ## Reset -/

/-- R49, R262: the values the spec gives for reset; the unspecified ones are not named here. The first step from reset changes
nothing: the block starts nothing by itself. That the host then has no program is the model's (log entry 4). -/
def Obligations.ResetValues : Prop :=
  State.reset.cmd = 0 ∧ statusWord State.reset = 0 ∧ State.reset.seed = 0 ∧ State.reset.srcAddr = 0 ∧ State.reset.srcLen = 0 ∧
  State.reset.dstAddr = 0 ∧ State.reset.dstLen = 0 ∧ State.reset.result = 0 ∧ State.reset.outCount = 0 ∧
  State.reset.inPos = 0 ∧ State.reset.phase = .idle ∧ step State.reset = .next State.reset

/-- R260, R261: a reset at any time leaves every register 0 and the block idle, a running command abandoned: it sets no `DONE`.
Memory is untouched where no command ran, and outside the bytes of the running command where one did (those are unknown,
R260; which they are is log entry 9's). That the host goes on as it was is the model's choice (log entry 17), as is that `MASK`,
whose reset value R49 leaves unspecified, is one of its eight values (log entry 2). On the host's turn a reset statement, which is
log entry 17's, does this and nothing else, and the host goes to its next line. -/
def Obligations.ResetEvent : Prop :=
  (∀ s : State, ∃ t, platformReset s = t ∧
    t.phase = .idle ∧ statusWord t = 0 ∧ t.cmd = 0 ∧ t.seed = 0 ∧ t.srcAddr = 0 ∧ t.srcLen = 0 ∧ t.dstAddr = 0 ∧
    t.dstLen = 0 ∧ t.result = 0 ∧ t.outCount = 0 ∧ t.inPos = 0 ∧ maskOk t = true ∧
    (s.phase = .idle → t.mem = s.mem) ∧
    (∀ x, (∀ l ∈ exposed s, l.region.has x = false) → byteAt t x = byteAt s x) ∧
    t.params = s.params ∧ t.host = s.host) ∧
  ∀ s u, HostMoves s u → nextStmt s = some .reset → step s = .next (advance (platformReset u))

/-! ## The host -/

/-- R72, R266: a host read of a byte that the running command does not write, and that no ended command wrote without the host having
seen its end, gives the byte; a host write of a byte that the running command neither reads nor writes stores it and changes no
other byte; while no command runs every byte may be so written, and then reads back. No register changes. What the model records of
such accesses is its own (log entries 8 and 9). -/
def Obligations.HostAccessOutsideRegions : Prop :=
  ∀ s x v, x < memSize s → memFault s x = false → Memory.wf s.mem = true →
    ((∀ l ∈ exposed s, l.writes = true → l.region.has x = false) → (∀ r ∈ pastWrites s, r.has x = false) →
      ∃ t, hostReadByte x s = .ok (byteAt s x) t ∧ t = { s with touched := t.touched } ∧ (s.phase = .idle → t = s)) ∧
    ((∀ l ∈ exposed s, l.region.has x = false) →
      ∃ t, hostWriteByte x v s = .ok () t ∧
        t = { s with mem := t.mem, held := t.held, unseen := t.unseen, touched := t.touched } ∧
        byteAt t x = v ∧ SameOutside ⟨x, 1⟩ s t) ∧
    (s.phase = .idle → ∃ t, hostWriteByte x v s = .ok () t ∧ hostReadByte x t = .ok v t)

/-- R92: `MEMSET` writes its bytes at ascending addresses, `MEMFILL` one byte `n` times, and `MEMRD` reads `n` bytes little-endian
into its variable, address and length being any expressions; each then goes to the next line, and changes no register. Premises:
the block is idle, no byte faults, and the host has seen the end of every command that wrote what it reads (R72). -/
def Obligations.HostMemoryStatements : Prop :=
  ∀ s : State, s.phase = .idle → Memory.wf s.mem = true →
    (∀ ea bytes, nextStmt s = some (.memset ea bytes) →
      let a := (evalHost ea s).1
      a + bytes.length ≤ memSize s → NoFault s a bytes.length →
      ∃ t, step s = .next t ∧ bytesFrom t a bytes.length = bytes ∧ SameOutside ⟨a, bytes.length⟩ s t ∧
        t.host = { s.host with pc := s.host.pc + 1 } ∧
        t = { s with mem := t.mem, draws := t.draws, held := t.held, unseen := t.unseen, host := t.host }) ∧
    (∀ ea en b, nextStmt s = some (.memfill ea en b) →
      let a := (evalHost ea s).1
      let n := (evalHost en (evalHost ea s).2).1
      a + n ≤ memSize s → NoFault s a n →
      ∃ t, step s = .next t ∧ bytesFrom t a n = List.replicate n b ∧ SameOutside ⟨a, n⟩ s t ∧
        t.host = { s.host with pc := s.host.pc + 1 } ∧
        t = { s with mem := t.mem, draws := t.draws, held := t.held, unseen := t.unseen, host := t.host }) ∧
    ∀ ea en x, nextStmt s = some (.memrd ea en x) →
      let a := (evalHost ea s).1
      let n := (evalHost en (evalHost ea s).2).1
      a + n ≤ memSize s → NoFault s a n → (∀ y, a ≤ y → y < a + n → ∀ r ∈ pastWrites s, r.has y = false) →
      ∃ t, step s = .next t ∧ lookupVar t.host.vars x = some (leNat (bytesFrom s a n)) ∧
        (∀ y, y ≠ x → lookupVar t.host.vars y = lookupVar s.host.vars y) ∧ t.host.pc = s.host.pc + 1 ∧
        t = { s with draws := t.draws, host := t.host }

/-- R92: `MEMCPY` leaves at the first address the bytes that stood at the second, also where the two overlap: it reads all before
it writes any, which is how the model reads R92 (log entry 14). The addresses and the length are any expressions. -/
def Obligations.HostCopiesBytes : Prop :=
  ∀ (s : State) ed ea en, s.phase = .idle → Memory.wf s.mem = true → nextStmt s = some (.memcpy ed ea en) →
    let p := evalHost ed s
    let q := evalHost ea p.2
    let d := p.1
    let a := q.1
    let n := (evalHost en q.2).1
    a + n ≤ memSize s → d + n ≤ memSize s → NoFault s a n → NoFault s d n →
    (∀ y, a ≤ y → y < a + n → ∀ r ∈ pastWrites s, r.has y = false) →
    ∃ t, step s = .next t ∧ bytesFrom t d n = bytesFrom s a n ∧ SameOutside ⟨d, n⟩ s t ∧
      t.host = { s.host with pc := s.host.pc + 1 } ∧
      t = { s with mem := t.mem, draws := t.draws, held := t.held, unseen := t.unseen, host := t.host }

/-- R92: a branch whose condition holds of the values of its two expressions goes to the line that carries its label (the first such
line, log entry 24), and one whose condition does not goes to the next line; neither touches the block. The premise that the
label stands on a line is R92's well-formedness. -/
def Obligations.HostBranches : Prop :=
  ∀ (s : State) (ea eb : Expr) (l : Label) (k : Nat), s.phase = .idle → findLabel s.host.prog l = some k →
    let p := evalHost ea s
    let q := evalHost eb p.2
    (nextStmt s = some (.beq ea eb l) →
      step s = .next (q.2.setHost { s.host with pc := if p.1 = q.1 then k else s.host.pc + 1 })) ∧
    (nextStmt s = some (.bne ea eb l) →
      step s = .next (q.2.setHost { s.host with pc := if p.1 = q.1 then s.host.pc + 1 else k })) ∧
    (nextStmt s = some (.bltu ea eb l) →
      step s = .next (q.2.setHost { s.host with pc := if p.1 < q.1 then k else s.host.pc + 1 })) ∧
    (∃ line, s.host.prog[k]? = some line ∧ line.label = some l) ∧
    ∀ j line, j < k → s.host.prog[j]? = some line → line.label ≠ some l

/-- R92, R204: `CMD mnemonic` on an idle block is the `CMD` write of the mnemonic's word, and `WR` is the register write of its
value, of any expression; on a busy block both are ignored (R34). `RD`, on either, is the register read, and keeps the value read in
its variable if it names one. Each time the host goes to its next line. -/
def Obligations.HostRegisterWrites : Prop :=
  (∀ s : State, s.phase = .idle →
    (∀ m, nextStmt s = some (.cmd m) →
      ∃ t, step s = .next t ∧ t = advance (windowWrite (regOffset .cmd) 4 (encode m) s) ∧ t.cmd = encode m ∧
        t.phase = .running (some m) ∧ t.host = { s.host with pc := s.host.pc + 1 }) ∧
    ∀ r e, nextStmt s = some (.wr r e) → (evalHost e s).1 < 2 ^ 32 →
      step s = .next (advance (windowWrite (regOffset r) 4 (BitVec.ofNat 32 (evalHost e s).1) (evalHost e s).2))) ∧
  (∀ (s : State) op n, s.phase = .running op → s.turns = n + 1 →
    (∀ m, nextStmt s = some (.cmd m) → step s = .next (advance { s with turns := n })) ∧
    ∀ r e, nextStmt s = some (.wr r e) → ∃ d, step s = .next (advance { s with turns := n, draws := d })) ∧
  ∀ s u, HostMoves s u → ∀ r,
    (nextStmt s = some (.rd r none) → step s = .next (advance (windowRead (regOffset r) 4 u).2)) ∧
    ∀ x, nextStmt s = some (.rd r (some x)) →
      ∃ t, step s = .next t ∧ lookupVar t.host.vars x = some (windowRead (regOffset r) 4 u).1.toNat ∧
        (∀ y, y ≠ x → lookupVar t.host.vars y = lookupVar s.host.vars y) ∧
        t.host = { s.host with pc := s.host.pc + 1, vars := t.host.vars } ∧
        t = { (windowRead (regOffset r) 4 u).2 with host := t.host }

/-- R192: the kind that each value of the `Compression` field maps to. The reference host program (R206) dispatches by it as R196
says: from the line `s1ok`, with the field in `%comp`, it comes in at most four steps to the line `plain` or `lz`, or ends with
the fatal error of the other kinds, having changed nothing else. -/
def Obligations.ContainerKinds : Prop :=
  (kindOf 0 = .plain ∧ kindOf 1 = .rle ∧ kindOf 2 = .lz77 ∧ ∀ c, 3 ≤ c → kindOf c = .unknown) ∧
  ∀ (s : State) align size c, s.phase = .idle → s.host.ended = none → s.host.prog = refProgram align size →
    findLabel s.host.prog lblS1ok = some s.host.pc → lookupVar s.host.vars varComp = some c →
    ∃ n t, n ≤ 4 ∧ steps n s = .next t ∧ t = { s with host := { s.host with pc := t.host.pc, ended := t.host.ended } } ∧
      match kindOf c with
      | .plain => t.host.ended = none ∧ findLabel s.host.prog lblPlain = some t.host.pc
      | .rle => t.host.ended = some (.fatal .unimplementedCompression)
      | .lz77 => t.host.ended = none ∧ findLabel s.host.prog lblLz = some t.host.pc
      | .unknown => t.host.ended = some (.fatal .unknownCompressionKind)

/-- R92: what a host expression is worth, over unbounded unsigned integers: a value itself, a variable what it was last assigned, and
`AND`, `>>`, `+` and `-` of two expressions; `LET` assigns it to its variable and changes no other. Where R92 states no value (a
variable never assigned, a difference below zero) this says nothing (log entry 13). -/
def Obligations.HostExpressions : Prop :=
  ∀ s : State,
    (∀ v, evalHost (.val v) s = (v, s)) ∧
    (∀ x v, lookupVar s.host.vars x = some v → evalHost (.var x) s = (v, s)) ∧
    (∀ a b,
      let p := evalHost a s
      let q := evalHost b p.2
      evalHost (.and a b) s = (p.1 &&& q.1, q.2) ∧ evalHost (.shr a b) s = (p.1 / 2 ^ q.1, q.2) ∧
      evalHost (.add a b) s = (p.1 + q.1, q.2) ∧ (q.1 ≤ p.1 → evalHost (.sub a b) s = (p.1 - q.1, q.2))) ∧
    ∀ x e, s.phase = .idle → nextStmt s = some (.assign x e) → ∃ t, step s = .next t ∧
      lookupVar t.host.vars x = some (evalHost e s).1 ∧ (∀ y, y ≠ x → lookupVar t.host.vars y = lookupVar s.host.vars y) ∧
      t.host.pc = s.host.pc + 1 ∧ t = { s with draws := t.draws, host := t.host }
end

