-- ==== Sys2Proof/Laws/State.lean ====
section
/-! SUPPORT. One lemma per field per named update of the state: what each update leaves in each field. -/

namespace Sys2Proof.Machine

@[simp] theorem finish_eq (s : State) : finish s = complete .ok s := rfl

@[simp] theorem raiseError_eq (c : ErrCode) (s : State) : raiseError c s = complete c s := rfl

/-! ## `State.setMem` -/

@[simp] theorem setMem_cmd (s : State) (m : List Host.Cell) : (s.setMem m).cmd = s.cmd := rfl
@[simp] theorem setMem_done (s : State) (m : List Host.Cell) : (s.setMem m).done = s.done := rfl
@[simp] theorem setMem_ksv (s : State) (m : List Host.Cell) : (s.setMem m).ksv = s.ksv := rfl
@[simp] theorem setMem_eos (s : State) (m : List Host.Cell) : (s.setMem m).eos = s.eos := rfl
@[simp] theorem setMem_err (s : State) (m : List Host.Cell) : (s.setMem m).err = s.err := rfl
@[simp] theorem setMem_seed (s : State) (m : List Host.Cell) : (s.setMem m).seed = s.seed := rfl
@[simp] theorem setMem_srcAddr (s : State) (m : List Host.Cell) : (s.setMem m).srcAddr = s.srcAddr := rfl
@[simp] theorem setMem_srcLen (s : State) (m : List Host.Cell) : (s.setMem m).srcLen = s.srcLen := rfl
@[simp] theorem setMem_dstAddr (s : State) (m : List Host.Cell) : (s.setMem m).dstAddr = s.dstAddr := rfl
@[simp] theorem setMem_dstLen (s : State) (m : List Host.Cell) : (s.setMem m).dstLen = s.dstLen := rfl
@[simp] theorem setMem_result (s : State) (m : List Host.Cell) : (s.setMem m).result = s.result := rfl
@[simp] theorem setMem_outCount (s : State) (m : List Host.Cell) : (s.setMem m).outCount = s.outCount := rfl
@[simp] theorem setMem_inPos (s : State) (m : List Host.Cell) : (s.setMem m).inPos = s.inPos := rfl
@[simp] theorem setMem_phase (s : State) (m : List Host.Cell) : (s.setMem m).phase = s.phase := rfl
@[simp] theorem setMem_tab (s : State) (m : List Host.Cell) : (s.setMem m).tab = s.tab := rfl
@[simp] theorem setMem_acc (s : State) (m : List Host.Cell) : (s.setMem m).acc = s.acc := rfl
@[simp] theorem setMem_dict (s : State) (m : List Host.Cell) : (s.setMem m).dict = s.dict := rfl
@[simp] theorem setMem_wIndex (s : State) (m : List Host.Cell) : (s.setMem m).wIndex = s.wIndex := rfl
@[simp] theorem setMem_pos (s : State) (m : List Host.Cell) : (s.setMem m).pos = s.pos := rfl
@[simp] theorem setMem_mask (s : State) (m : List Host.Cell) : (s.setMem m).mask = s.mask := rfl
@[simp] theorem setMem_rack (s : State) (m : List Host.Cell) : (s.setMem m).rack = s.rack := rfl
@[simp] theorem setMem_mem (s : State) (m : List Host.Cell) : (s.setMem m).mem = m := rfl
@[simp] theorem setMem_params (s : State) (m : List Host.Cell) : (s.setMem m).params = s.params := rfl
@[simp] theorem setMem_host (s : State) (m : List Host.Cell) : (s.setMem m).host = s.host := rfl
@[simp] theorem setMem_sched (s : State) (m : List Host.Cell) : (s.setMem m).sched = s.sched := rfl
@[simp] theorem setMem_turns (s : State) (m : List Host.Cell) : (s.setMem m).turns = s.turns := rfl
@[simp] theorem setMem_draws (s : State) (m : List Host.Cell) : (s.setMem m).draws = s.draws := rfl
@[simp] theorem setMem_polled (s : State) (m : List Host.Cell) : (s.setMem m).polled = s.polled := rfl
@[simp] theorem setMem_held (s : State) (m : List Host.Cell) : (s.setMem m).held = s.held := rfl
@[simp] theorem setMem_unseen (s : State) (m : List Host.Cell) : (s.setMem m).unseen = s.unseen := rfl
@[simp] theorem setMem_touched (s : State) (m : List Host.Cell) : (s.setMem m).touched = s.touched := rfl

/-! ## `State.setTab` -/

@[simp] theorem setTab_cmd (s : State) (v : List Word) : (s.setTab v).cmd = s.cmd := rfl
@[simp] theorem setTab_done (s : State) (v : List Word) : (s.setTab v).done = s.done := rfl
@[simp] theorem setTab_ksv (s : State) (v : List Word) : (s.setTab v).ksv = s.ksv := rfl
@[simp] theorem setTab_eos (s : State) (v : List Word) : (s.setTab v).eos = s.eos := rfl
@[simp] theorem setTab_err (s : State) (v : List Word) : (s.setTab v).err = s.err := rfl
@[simp] theorem setTab_seed (s : State) (v : List Word) : (s.setTab v).seed = s.seed := rfl
@[simp] theorem setTab_srcAddr (s : State) (v : List Word) : (s.setTab v).srcAddr = s.srcAddr := rfl
@[simp] theorem setTab_srcLen (s : State) (v : List Word) : (s.setTab v).srcLen = s.srcLen := rfl
@[simp] theorem setTab_dstAddr (s : State) (v : List Word) : (s.setTab v).dstAddr = s.dstAddr := rfl
@[simp] theorem setTab_dstLen (s : State) (v : List Word) : (s.setTab v).dstLen = s.dstLen := rfl
@[simp] theorem setTab_result (s : State) (v : List Word) : (s.setTab v).result = s.result := rfl
@[simp] theorem setTab_outCount (s : State) (v : List Word) : (s.setTab v).outCount = s.outCount := rfl
@[simp] theorem setTab_inPos (s : State) (v : List Word) : (s.setTab v).inPos = s.inPos := rfl
@[simp] theorem setTab_phase (s : State) (v : List Word) : (s.setTab v).phase = s.phase := rfl
@[simp] theorem setTab_tab (s : State) (v : List Word) : (s.setTab v).tab = v := rfl
@[simp] theorem setTab_acc (s : State) (v : List Word) : (s.setTab v).acc = s.acc := rfl
@[simp] theorem setTab_dict (s : State) (v : List Word) : (s.setTab v).dict = s.dict := rfl
@[simp] theorem setTab_wIndex (s : State) (v : List Word) : (s.setTab v).wIndex = s.wIndex := rfl
@[simp] theorem setTab_pos (s : State) (v : List Word) : (s.setTab v).pos = s.pos := rfl
@[simp] theorem setTab_mask (s : State) (v : List Word) : (s.setTab v).mask = s.mask := rfl
@[simp] theorem setTab_rack (s : State) (v : List Word) : (s.setTab v).rack = s.rack := rfl
@[simp] theorem setTab_mem (s : State) (v : List Word) : (s.setTab v).mem = s.mem := rfl
@[simp] theorem setTab_params (s : State) (v : List Word) : (s.setTab v).params = s.params := rfl
@[simp] theorem setTab_host (s : State) (v : List Word) : (s.setTab v).host = s.host := rfl
@[simp] theorem setTab_sched (s : State) (v : List Word) : (s.setTab v).sched = s.sched := rfl
@[simp] theorem setTab_turns (s : State) (v : List Word) : (s.setTab v).turns = s.turns := rfl
@[simp] theorem setTab_draws (s : State) (v : List Word) : (s.setTab v).draws = s.draws := rfl
@[simp] theorem setTab_polled (s : State) (v : List Word) : (s.setTab v).polled = s.polled := rfl
@[simp] theorem setTab_held (s : State) (v : List Word) : (s.setTab v).held = s.held := rfl
@[simp] theorem setTab_unseen (s : State) (v : List Word) : (s.setTab v).unseen = s.unseen := rfl
@[simp] theorem setTab_touched (s : State) (v : List Word) : (s.setTab v).touched = s.touched := rfl

/-! ## `State.setCursor` -/

@[simp] theorem setCursor_cmd (s : State) (p : Word) (m r : Byte) : (s.setCursor p m r).cmd = s.cmd := rfl
@[simp] theorem setCursor_done (s : State) (p : Word) (m r : Byte) : (s.setCursor p m r).done = s.done := rfl
@[simp] theorem setCursor_ksv (s : State) (p : Word) (m r : Byte) : (s.setCursor p m r).ksv = s.ksv := rfl
@[simp] theorem setCursor_eos (s : State) (p : Word) (m r : Byte) : (s.setCursor p m r).eos = s.eos := rfl
@[simp] theorem setCursor_err (s : State) (p : Word) (m r : Byte) : (s.setCursor p m r).err = s.err := rfl
@[simp] theorem setCursor_seed (s : State) (p : Word) (m r : Byte) : (s.setCursor p m r).seed = s.seed := rfl
@[simp] theorem setCursor_srcAddr (s : State) (p : Word) (m r : Byte) : (s.setCursor p m r).srcAddr = s.srcAddr := rfl
@[simp] theorem setCursor_srcLen (s : State) (p : Word) (m r : Byte) : (s.setCursor p m r).srcLen = s.srcLen := rfl
@[simp] theorem setCursor_dstAddr (s : State) (p : Word) (m r : Byte) : (s.setCursor p m r).dstAddr = s.dstAddr := rfl
@[simp] theorem setCursor_dstLen (s : State) (p : Word) (m r : Byte) : (s.setCursor p m r).dstLen = s.dstLen := rfl
@[simp] theorem setCursor_result (s : State) (p : Word) (m r : Byte) : (s.setCursor p m r).result = s.result := rfl
@[simp] theorem setCursor_outCount (s : State) (p : Word) (m r : Byte) : (s.setCursor p m r).outCount = s.outCount := rfl
@[simp] theorem setCursor_inPos (s : State) (p : Word) (m r : Byte) : (s.setCursor p m r).inPos = s.inPos := rfl
@[simp] theorem setCursor_phase (s : State) (p : Word) (m r : Byte) : (s.setCursor p m r).phase = s.phase := rfl
@[simp] theorem setCursor_tab (s : State) (p : Word) (m r : Byte) : (s.setCursor p m r).tab = s.tab := rfl
@[simp] theorem setCursor_acc (s : State) (p : Word) (m r : Byte) : (s.setCursor p m r).acc = s.acc := rfl
@[simp] theorem setCursor_dict (s : State) (p : Word) (m r : Byte) : (s.setCursor p m r).dict = s.dict := rfl
@[simp] theorem setCursor_wIndex (s : State) (p : Word) (m r : Byte) : (s.setCursor p m r).wIndex = s.wIndex := rfl
@[simp] theorem setCursor_pos (s : State) (p : Word) (m r : Byte) : (s.setCursor p m r).pos = p := rfl
@[simp] theorem setCursor_mask (s : State) (p : Word) (m r : Byte) : (s.setCursor p m r).mask = m := rfl
@[simp] theorem setCursor_rack (s : State) (p : Word) (m r : Byte) : (s.setCursor p m r).rack = r := rfl
@[simp] theorem setCursor_mem (s : State) (p : Word) (m r : Byte) : (s.setCursor p m r).mem = s.mem := rfl
@[simp] theorem setCursor_params (s : State) (p : Word) (m r : Byte) : (s.setCursor p m r).params = s.params := rfl
@[simp] theorem setCursor_host (s : State) (p : Word) (m r : Byte) : (s.setCursor p m r).host = s.host := rfl
@[simp] theorem setCursor_sched (s : State) (p : Word) (m r : Byte) : (s.setCursor p m r).sched = s.sched := rfl
@[simp] theorem setCursor_turns (s : State) (p : Word) (m r : Byte) : (s.setCursor p m r).turns = s.turns := rfl
@[simp] theorem setCursor_draws (s : State) (p : Word) (m r : Byte) : (s.setCursor p m r).draws = s.draws := rfl
@[simp] theorem setCursor_polled (s : State) (p : Word) (m r : Byte) : (s.setCursor p m r).polled = s.polled := rfl
@[simp] theorem setCursor_held (s : State) (p : Word) (m r : Byte) : (s.setCursor p m r).held = s.held := rfl
@[simp] theorem setCursor_unseen (s : State) (p : Word) (m r : Byte) : (s.setCursor p m r).unseen = s.unseen := rfl
@[simp] theorem setCursor_touched (s : State) (p : Word) (m r : Byte) : (s.setCursor p m r).touched = s.touched := rfl

/-! ## `State.setDraws` -/

@[simp] theorem setDraws_cmd (s : State) (n : Nat) : (s.setDraws n).cmd = s.cmd := rfl
@[simp] theorem setDraws_done (s : State) (n : Nat) : (s.setDraws n).done = s.done := rfl
@[simp] theorem setDraws_ksv (s : State) (n : Nat) : (s.setDraws n).ksv = s.ksv := rfl
@[simp] theorem setDraws_eos (s : State) (n : Nat) : (s.setDraws n).eos = s.eos := rfl
@[simp] theorem setDraws_err (s : State) (n : Nat) : (s.setDraws n).err = s.err := rfl
@[simp] theorem setDraws_seed (s : State) (n : Nat) : (s.setDraws n).seed = s.seed := rfl
@[simp] theorem setDraws_srcAddr (s : State) (n : Nat) : (s.setDraws n).srcAddr = s.srcAddr := rfl
@[simp] theorem setDraws_srcLen (s : State) (n : Nat) : (s.setDraws n).srcLen = s.srcLen := rfl
@[simp] theorem setDraws_dstAddr (s : State) (n : Nat) : (s.setDraws n).dstAddr = s.dstAddr := rfl
@[simp] theorem setDraws_dstLen (s : State) (n : Nat) : (s.setDraws n).dstLen = s.dstLen := rfl
@[simp] theorem setDraws_result (s : State) (n : Nat) : (s.setDraws n).result = s.result := rfl
@[simp] theorem setDraws_outCount (s : State) (n : Nat) : (s.setDraws n).outCount = s.outCount := rfl
@[simp] theorem setDraws_inPos (s : State) (n : Nat) : (s.setDraws n).inPos = s.inPos := rfl
@[simp] theorem setDraws_phase (s : State) (n : Nat) : (s.setDraws n).phase = s.phase := rfl
@[simp] theorem setDraws_tab (s : State) (n : Nat) : (s.setDraws n).tab = s.tab := rfl
@[simp] theorem setDraws_acc (s : State) (n : Nat) : (s.setDraws n).acc = s.acc := rfl
@[simp] theorem setDraws_dict (s : State) (n : Nat) : (s.setDraws n).dict = s.dict := rfl
@[simp] theorem setDraws_wIndex (s : State) (n : Nat) : (s.setDraws n).wIndex = s.wIndex := rfl
@[simp] theorem setDraws_pos (s : State) (n : Nat) : (s.setDraws n).pos = s.pos := rfl
@[simp] theorem setDraws_mask (s : State) (n : Nat) : (s.setDraws n).mask = s.mask := rfl
@[simp] theorem setDraws_rack (s : State) (n : Nat) : (s.setDraws n).rack = s.rack := rfl
@[simp] theorem setDraws_mem (s : State) (n : Nat) : (s.setDraws n).mem = s.mem := rfl
@[simp] theorem setDraws_params (s : State) (n : Nat) : (s.setDraws n).params = s.params := rfl
@[simp] theorem setDraws_host (s : State) (n : Nat) : (s.setDraws n).host = s.host := rfl
@[simp] theorem setDraws_sched (s : State) (n : Nat) : (s.setDraws n).sched = s.sched := rfl
@[simp] theorem setDraws_turns (s : State) (n : Nat) : (s.setDraws n).turns = s.turns := rfl
@[simp] theorem setDraws_draws (s : State) (n : Nat) : (s.setDraws n).draws = n := rfl
@[simp] theorem setDraws_polled (s : State) (n : Nat) : (s.setDraws n).polled = s.polled := rfl
@[simp] theorem setDraws_held (s : State) (n : Nat) : (s.setDraws n).held = s.held := rfl
@[simp] theorem setDraws_unseen (s : State) (n : Nat) : (s.setDraws n).unseen = s.unseen := rfl
@[simp] theorem setDraws_touched (s : State) (n : Nat) : (s.setDraws n).touched = s.touched := rfl

/-! ## `State.setSeen` -/

@[simp] theorem setSeen_cmd (s : State) (h : List Loan) (u : List Range) : (s.setSeen h u).cmd = s.cmd := rfl
@[simp] theorem setSeen_done (s : State) (h : List Loan) (u : List Range) : (s.setSeen h u).done = s.done := rfl
@[simp] theorem setSeen_ksv (s : State) (h : List Loan) (u : List Range) : (s.setSeen h u).ksv = s.ksv := rfl
@[simp] theorem setSeen_eos (s : State) (h : List Loan) (u : List Range) : (s.setSeen h u).eos = s.eos := rfl
@[simp] theorem setSeen_err (s : State) (h : List Loan) (u : List Range) : (s.setSeen h u).err = s.err := rfl
@[simp] theorem setSeen_seed (s : State) (h : List Loan) (u : List Range) : (s.setSeen h u).seed = s.seed := rfl
@[simp] theorem setSeen_srcAddr (s : State) (h : List Loan) (u : List Range) : (s.setSeen h u).srcAddr = s.srcAddr := rfl
@[simp] theorem setSeen_srcLen (s : State) (h : List Loan) (u : List Range) : (s.setSeen h u).srcLen = s.srcLen := rfl
@[simp] theorem setSeen_dstAddr (s : State) (h : List Loan) (u : List Range) : (s.setSeen h u).dstAddr = s.dstAddr := rfl
@[simp] theorem setSeen_dstLen (s : State) (h : List Loan) (u : List Range) : (s.setSeen h u).dstLen = s.dstLen := rfl
@[simp] theorem setSeen_result (s : State) (h : List Loan) (u : List Range) : (s.setSeen h u).result = s.result := rfl
@[simp] theorem setSeen_outCount (s : State) (h : List Loan) (u : List Range) : (s.setSeen h u).outCount = s.outCount := rfl
@[simp] theorem setSeen_inPos (s : State) (h : List Loan) (u : List Range) : (s.setSeen h u).inPos = s.inPos := rfl
@[simp] theorem setSeen_phase (s : State) (h : List Loan) (u : List Range) : (s.setSeen h u).phase = s.phase := rfl
@[simp] theorem setSeen_tab (s : State) (h : List Loan) (u : List Range) : (s.setSeen h u).tab = s.tab := rfl
@[simp] theorem setSeen_acc (s : State) (h : List Loan) (u : List Range) : (s.setSeen h u).acc = s.acc := rfl
@[simp] theorem setSeen_dict (s : State) (h : List Loan) (u : List Range) : (s.setSeen h u).dict = s.dict := rfl
@[simp] theorem setSeen_wIndex (s : State) (h : List Loan) (u : List Range) : (s.setSeen h u).wIndex = s.wIndex := rfl
@[simp] theorem setSeen_pos (s : State) (h : List Loan) (u : List Range) : (s.setSeen h u).pos = s.pos := rfl
@[simp] theorem setSeen_mask (s : State) (h : List Loan) (u : List Range) : (s.setSeen h u).mask = s.mask := rfl
@[simp] theorem setSeen_rack (s : State) (h : List Loan) (u : List Range) : (s.setSeen h u).rack = s.rack := rfl
@[simp] theorem setSeen_mem (s : State) (h : List Loan) (u : List Range) : (s.setSeen h u).mem = s.mem := rfl
@[simp] theorem setSeen_params (s : State) (h : List Loan) (u : List Range) : (s.setSeen h u).params = s.params := rfl
@[simp] theorem setSeen_host (s : State) (h : List Loan) (u : List Range) : (s.setSeen h u).host = s.host := rfl
@[simp] theorem setSeen_sched (s : State) (h : List Loan) (u : List Range) : (s.setSeen h u).sched = s.sched := rfl
@[simp] theorem setSeen_turns (s : State) (h : List Loan) (u : List Range) : (s.setSeen h u).turns = s.turns := rfl
@[simp] theorem setSeen_draws (s : State) (h : List Loan) (u : List Range) : (s.setSeen h u).draws = s.draws := rfl
@[simp] theorem setSeen_polled (s : State) (h : List Loan) (u : List Range) : (s.setSeen h u).polled = s.polled := rfl
@[simp] theorem setSeen_held (s : State) (h : List Loan) (u : List Range) : (s.setSeen h u).held = h := rfl
@[simp] theorem setSeen_unseen (s : State) (h : List Loan) (u : List Range) : (s.setSeen h u).unseen = u := rfl
@[simp] theorem setSeen_touched (s : State) (h : List Loan) (u : List Range) : (s.setSeen h u).touched = s.touched := rfl

/-! ## `State.setTouched` -/

@[simp] theorem setTouched_cmd (s : State) (xs : List Nat) : (s.setTouched xs).cmd = s.cmd := rfl
@[simp] theorem setTouched_done (s : State) (xs : List Nat) : (s.setTouched xs).done = s.done := rfl
@[simp] theorem setTouched_ksv (s : State) (xs : List Nat) : (s.setTouched xs).ksv = s.ksv := rfl
@[simp] theorem setTouched_eos (s : State) (xs : List Nat) : (s.setTouched xs).eos = s.eos := rfl
@[simp] theorem setTouched_err (s : State) (xs : List Nat) : (s.setTouched xs).err = s.err := rfl
@[simp] theorem setTouched_seed (s : State) (xs : List Nat) : (s.setTouched xs).seed = s.seed := rfl
@[simp] theorem setTouched_srcAddr (s : State) (xs : List Nat) : (s.setTouched xs).srcAddr = s.srcAddr := rfl
@[simp] theorem setTouched_srcLen (s : State) (xs : List Nat) : (s.setTouched xs).srcLen = s.srcLen := rfl
@[simp] theorem setTouched_dstAddr (s : State) (xs : List Nat) : (s.setTouched xs).dstAddr = s.dstAddr := rfl
@[simp] theorem setTouched_dstLen (s : State) (xs : List Nat) : (s.setTouched xs).dstLen = s.dstLen := rfl
@[simp] theorem setTouched_result (s : State) (xs : List Nat) : (s.setTouched xs).result = s.result := rfl
@[simp] theorem setTouched_outCount (s : State) (xs : List Nat) : (s.setTouched xs).outCount = s.outCount := rfl
@[simp] theorem setTouched_inPos (s : State) (xs : List Nat) : (s.setTouched xs).inPos = s.inPos := rfl
@[simp] theorem setTouched_phase (s : State) (xs : List Nat) : (s.setTouched xs).phase = s.phase := rfl
@[simp] theorem setTouched_tab (s : State) (xs : List Nat) : (s.setTouched xs).tab = s.tab := rfl
@[simp] theorem setTouched_acc (s : State) (xs : List Nat) : (s.setTouched xs).acc = s.acc := rfl
@[simp] theorem setTouched_dict (s : State) (xs : List Nat) : (s.setTouched xs).dict = s.dict := rfl
@[simp] theorem setTouched_wIndex (s : State) (xs : List Nat) : (s.setTouched xs).wIndex = s.wIndex := rfl
@[simp] theorem setTouched_pos (s : State) (xs : List Nat) : (s.setTouched xs).pos = s.pos := rfl
@[simp] theorem setTouched_mask (s : State) (xs : List Nat) : (s.setTouched xs).mask = s.mask := rfl
@[simp] theorem setTouched_rack (s : State) (xs : List Nat) : (s.setTouched xs).rack = s.rack := rfl
@[simp] theorem setTouched_mem (s : State) (xs : List Nat) : (s.setTouched xs).mem = s.mem := rfl
@[simp] theorem setTouched_params (s : State) (xs : List Nat) : (s.setTouched xs).params = s.params := rfl
@[simp] theorem setTouched_host (s : State) (xs : List Nat) : (s.setTouched xs).host = s.host := rfl
@[simp] theorem setTouched_sched (s : State) (xs : List Nat) : (s.setTouched xs).sched = s.sched := rfl
@[simp] theorem setTouched_turns (s : State) (xs : List Nat) : (s.setTouched xs).turns = s.turns := rfl
@[simp] theorem setTouched_draws (s : State) (xs : List Nat) : (s.setTouched xs).draws = s.draws := rfl
@[simp] theorem setTouched_polled (s : State) (xs : List Nat) : (s.setTouched xs).polled = s.polled := rfl
@[simp] theorem setTouched_held (s : State) (xs : List Nat) : (s.setTouched xs).held = s.held := rfl
@[simp] theorem setTouched_unseen (s : State) (xs : List Nat) : (s.setTouched xs).unseen = s.unseen := rfl
@[simp] theorem setTouched_touched (s : State) (xs : List Nat) : (s.setTouched xs).touched = xs := rfl

/-! ## `State.setHost` -/

@[simp] theorem setHost_cmd (s : State) (h : HostState) : (s.setHost h).cmd = s.cmd := rfl
@[simp] theorem setHost_done (s : State) (h : HostState) : (s.setHost h).done = s.done := rfl
@[simp] theorem setHost_ksv (s : State) (h : HostState) : (s.setHost h).ksv = s.ksv := rfl
@[simp] theorem setHost_eos (s : State) (h : HostState) : (s.setHost h).eos = s.eos := rfl
@[simp] theorem setHost_err (s : State) (h : HostState) : (s.setHost h).err = s.err := rfl
@[simp] theorem setHost_seed (s : State) (h : HostState) : (s.setHost h).seed = s.seed := rfl
@[simp] theorem setHost_srcAddr (s : State) (h : HostState) : (s.setHost h).srcAddr = s.srcAddr := rfl
@[simp] theorem setHost_srcLen (s : State) (h : HostState) : (s.setHost h).srcLen = s.srcLen := rfl
@[simp] theorem setHost_dstAddr (s : State) (h : HostState) : (s.setHost h).dstAddr = s.dstAddr := rfl
@[simp] theorem setHost_dstLen (s : State) (h : HostState) : (s.setHost h).dstLen = s.dstLen := rfl
@[simp] theorem setHost_result (s : State) (h : HostState) : (s.setHost h).result = s.result := rfl
@[simp] theorem setHost_outCount (s : State) (h : HostState) : (s.setHost h).outCount = s.outCount := rfl
@[simp] theorem setHost_inPos (s : State) (h : HostState) : (s.setHost h).inPos = s.inPos := rfl
@[simp] theorem setHost_phase (s : State) (h : HostState) : (s.setHost h).phase = s.phase := rfl
@[simp] theorem setHost_tab (s : State) (h : HostState) : (s.setHost h).tab = s.tab := rfl
@[simp] theorem setHost_acc (s : State) (h : HostState) : (s.setHost h).acc = s.acc := rfl
@[simp] theorem setHost_dict (s : State) (h : HostState) : (s.setHost h).dict = s.dict := rfl
@[simp] theorem setHost_wIndex (s : State) (h : HostState) : (s.setHost h).wIndex = s.wIndex := rfl
@[simp] theorem setHost_pos (s : State) (h : HostState) : (s.setHost h).pos = s.pos := rfl
@[simp] theorem setHost_mask (s : State) (h : HostState) : (s.setHost h).mask = s.mask := rfl
@[simp] theorem setHost_rack (s : State) (h : HostState) : (s.setHost h).rack = s.rack := rfl
@[simp] theorem setHost_mem (s : State) (h : HostState) : (s.setHost h).mem = s.mem := rfl
@[simp] theorem setHost_params (s : State) (h : HostState) : (s.setHost h).params = s.params := rfl
@[simp] theorem setHost_host (s : State) (h : HostState) : (s.setHost h).host = h := rfl
@[simp] theorem setHost_sched (s : State) (h : HostState) : (s.setHost h).sched = s.sched := rfl
@[simp] theorem setHost_turns (s : State) (h : HostState) : (s.setHost h).turns = s.turns := rfl
@[simp] theorem setHost_draws (s : State) (h : HostState) : (s.setHost h).draws = s.draws := rfl
@[simp] theorem setHost_polled (s : State) (h : HostState) : (s.setHost h).polled = s.polled := rfl
@[simp] theorem setHost_held (s : State) (h : HostState) : (s.setHost h).held = s.held := rfl
@[simp] theorem setHost_unseen (s : State) (h : HostState) : (s.setHost h).unseen = s.unseen := rfl
@[simp] theorem setHost_touched (s : State) (h : HostState) : (s.setHost h).touched = s.touched := rfl

/-! ## `complete` -/

@[simp] theorem complete_cmd (s : State) (c : ErrCode) : (complete c s).cmd = s.cmd := rfl
@[simp] theorem complete_done (s : State) (c : ErrCode) : (complete c s).done = true := rfl
@[simp] theorem complete_ksv (s : State) (c : ErrCode) : (complete c s).ksv = s.ksv := rfl
@[simp] theorem complete_eos (s : State) (c : ErrCode) : (complete c s).eos = s.eos := rfl
@[simp] theorem complete_err (s : State) (c : ErrCode) : (complete c s).err = c := rfl
@[simp] theorem complete_seed (s : State) (c : ErrCode) : (complete c s).seed = s.seed := rfl
@[simp] theorem complete_srcAddr (s : State) (c : ErrCode) : (complete c s).srcAddr = s.srcAddr := rfl
@[simp] theorem complete_srcLen (s : State) (c : ErrCode) : (complete c s).srcLen = s.srcLen := rfl
@[simp] theorem complete_dstAddr (s : State) (c : ErrCode) : (complete c s).dstAddr = s.dstAddr := rfl
@[simp] theorem complete_dstLen (s : State) (c : ErrCode) : (complete c s).dstLen = s.dstLen := rfl
@[simp] theorem complete_result (s : State) (c : ErrCode) : (complete c s).result = s.result := rfl
@[simp] theorem complete_outCount (s : State) (c : ErrCode) : (complete c s).outCount = s.outCount := rfl
@[simp] theorem complete_inPos (s : State) (c : ErrCode) : (complete c s).inPos = s.inPos := rfl
@[simp] theorem complete_phase (s : State) (c : ErrCode) : (complete c s).phase = Phase.idle := rfl
@[simp] theorem complete_tab (s : State) (c : ErrCode) : (complete c s).tab = s.tab := rfl
@[simp] theorem complete_acc (s : State) (c : ErrCode) : (complete c s).acc = s.acc := rfl
@[simp] theorem complete_dict (s : State) (c : ErrCode) : (complete c s).dict = s.dict := rfl
@[simp] theorem complete_wIndex (s : State) (c : ErrCode) : (complete c s).wIndex = s.wIndex := rfl
@[simp] theorem complete_pos (s : State) (c : ErrCode) : (complete c s).pos = s.pos := rfl
@[simp] theorem complete_mask (s : State) (c : ErrCode) : (complete c s).mask = s.mask := rfl
@[simp] theorem complete_rack (s : State) (c : ErrCode) : (complete c s).rack = s.rack := rfl
@[simp] theorem complete_mem (s : State) (c : ErrCode) : (complete c s).mem = s.mem := rfl
@[simp] theorem complete_params (s : State) (c : ErrCode) : (complete c s).params = s.params := rfl
@[simp] theorem complete_host (s : State) (c : ErrCode) : (complete c s).host = s.host := rfl
@[simp] theorem complete_sched (s : State) (c : ErrCode) : (complete c s).sched = s.sched := rfl
@[simp] theorem complete_turns (s : State) (c : ErrCode) : (complete c s).turns = s.turns := rfl
@[simp] theorem complete_draws (s : State) (c : ErrCode) : (complete c s).draws = s.draws := rfl
@[simp] theorem complete_polled (s : State) (c : ErrCode) : (complete c s).polled = s.polled := rfl
@[simp] theorem complete_held (s : State) (c : ErrCode) : (complete c s).held = s.held := rfl
@[simp] theorem complete_unseen (s : State) (c : ErrCode) : (complete c s).unseen = s.unseen := rfl
@[simp] theorem complete_touched (s : State) (c : ErrCode) : (complete c s).touched = s.touched := rfl

/-! ## `startStatus` -/

@[simp] theorem startStatus_cmd (s : State) (op : Option Instr) : (startStatus op s).cmd = s.cmd := rfl
@[simp] theorem startStatus_done (s : State) (op : Option Instr) : (startStatus op s).done = false := rfl
@[simp] theorem startStatus_ksv (s : State) (op : Option Instr) : (startStatus op s).ksv = s.ksv := rfl
@[simp] theorem startStatus_eos (s : State) (op : Option Instr) : (startStatus op s).eos = false := rfl
@[simp] theorem startStatus_err (s : State) (op : Option Instr) : (startStatus op s).err = ErrCode.ok := rfl
@[simp] theorem startStatus_seed (s : State) (op : Option Instr) : (startStatus op s).seed = s.seed := rfl
@[simp] theorem startStatus_srcAddr (s : State) (op : Option Instr) : (startStatus op s).srcAddr = s.srcAddr := rfl
@[simp] theorem startStatus_srcLen (s : State) (op : Option Instr) : (startStatus op s).srcLen = s.srcLen := rfl
@[simp] theorem startStatus_dstAddr (s : State) (op : Option Instr) : (startStatus op s).dstAddr = s.dstAddr := rfl
@[simp] theorem startStatus_dstLen (s : State) (op : Option Instr) : (startStatus op s).dstLen = s.dstLen := rfl
@[simp] theorem startStatus_result (s : State) (op : Option Instr) : (startStatus op s).result = s.result := rfl
@[simp] theorem startStatus_outCount (s : State) (op : Option Instr) : (startStatus op s).outCount = s.outCount := rfl
@[simp] theorem startStatus_inPos (s : State) (op : Option Instr) : (startStatus op s).inPos = s.inPos := rfl
@[simp] theorem startStatus_phase (s : State) (op : Option Instr) : (startStatus op s).phase = Phase.running op := rfl
@[simp] theorem startStatus_tab (s : State) (op : Option Instr) : (startStatus op s).tab = s.tab := rfl
@[simp] theorem startStatus_acc (s : State) (op : Option Instr) : (startStatus op s).acc = s.acc := rfl
@[simp] theorem startStatus_dict (s : State) (op : Option Instr) : (startStatus op s).dict = s.dict := rfl
@[simp] theorem startStatus_wIndex (s : State) (op : Option Instr) : (startStatus op s).wIndex = s.wIndex := rfl
@[simp] theorem startStatus_pos (s : State) (op : Option Instr) : (startStatus op s).pos = s.pos := rfl
@[simp] theorem startStatus_mask (s : State) (op : Option Instr) : (startStatus op s).mask = s.mask := rfl
@[simp] theorem startStatus_rack (s : State) (op : Option Instr) : (startStatus op s).rack = s.rack := rfl
@[simp] theorem startStatus_mem (s : State) (op : Option Instr) : (startStatus op s).mem = s.mem := rfl
@[simp] theorem startStatus_params (s : State) (op : Option Instr) : (startStatus op s).params = s.params := rfl
@[simp] theorem startStatus_host (s : State) (op : Option Instr) : (startStatus op s).host = s.host := rfl
@[simp] theorem startStatus_sched (s : State) (op : Option Instr) : (startStatus op s).sched = s.sched := rfl
@[simp] theorem startStatus_turns (s : State) (op : Option Instr) : (startStatus op s).turns = s.turns := rfl
@[simp] theorem startStatus_draws (s : State) (op : Option Instr) : (startStatus op s).draws = s.draws := rfl
@[simp] theorem startStatus_polled (s : State) (op : Option Instr) : (startStatus op s).polled = s.polled := rfl
@[simp] theorem startStatus_held (s : State) (op : Option Instr) : (startStatus op s).held = s.held := rfl
@[simp] theorem startStatus_unseen (s : State) (op : Option Instr) : (startStatus op s).unseen = s.unseen := rfl
@[simp] theorem startStatus_touched (s : State) (op : Option Instr) : (startStatus op s).touched = s.touched := rfl

/-! ## `scrambleByte` -/

@[simp] theorem scrambleByte_cmd (s : State) (x : Nat) : (scrambleByte x s).cmd = s.cmd := rfl
@[simp] theorem scrambleByte_done (s : State) (x : Nat) : (scrambleByte x s).done = s.done := rfl
@[simp] theorem scrambleByte_ksv (s : State) (x : Nat) : (scrambleByte x s).ksv = s.ksv := rfl
@[simp] theorem scrambleByte_eos (s : State) (x : Nat) : (scrambleByte x s).eos = s.eos := rfl
@[simp] theorem scrambleByte_err (s : State) (x : Nat) : (scrambleByte x s).err = s.err := rfl
@[simp] theorem scrambleByte_seed (s : State) (x : Nat) : (scrambleByte x s).seed = s.seed := rfl
@[simp] theorem scrambleByte_srcAddr (s : State) (x : Nat) : (scrambleByte x s).srcAddr = s.srcAddr := rfl
@[simp] theorem scrambleByte_srcLen (s : State) (x : Nat) : (scrambleByte x s).srcLen = s.srcLen := rfl
@[simp] theorem scrambleByte_dstAddr (s : State) (x : Nat) : (scrambleByte x s).dstAddr = s.dstAddr := rfl
@[simp] theorem scrambleByte_dstLen (s : State) (x : Nat) : (scrambleByte x s).dstLen = s.dstLen := rfl
@[simp] theorem scrambleByte_result (s : State) (x : Nat) : (scrambleByte x s).result = s.result := rfl
@[simp] theorem scrambleByte_outCount (s : State) (x : Nat) : (scrambleByte x s).outCount = s.outCount := rfl
@[simp] theorem scrambleByte_inPos (s : State) (x : Nat) : (scrambleByte x s).inPos = s.inPos := rfl
@[simp] theorem scrambleByte_phase (s : State) (x : Nat) : (scrambleByte x s).phase = s.phase := rfl
@[simp] theorem scrambleByte_tab (s : State) (x : Nat) : (scrambleByte x s).tab = s.tab := rfl
@[simp] theorem scrambleByte_acc (s : State) (x : Nat) : (scrambleByte x s).acc = s.acc := rfl
@[simp] theorem scrambleByte_dict (s : State) (x : Nat) : (scrambleByte x s).dict = s.dict := rfl
@[simp] theorem scrambleByte_wIndex (s : State) (x : Nat) : (scrambleByte x s).wIndex = s.wIndex := rfl
@[simp] theorem scrambleByte_pos (s : State) (x : Nat) : (scrambleByte x s).pos = s.pos := rfl
@[simp] theorem scrambleByte_mask (s : State) (x : Nat) : (scrambleByte x s).mask = s.mask := rfl
@[simp] theorem scrambleByte_rack (s : State) (x : Nat) : (scrambleByte x s).rack = s.rack := rfl
@[simp] theorem scrambleByte_mem (s : State) (x : Nat) : (scrambleByte x s).mem = Memory.write s.mem x (Config.freeByte s.draws) := rfl
@[simp] theorem scrambleByte_params (s : State) (x : Nat) : (scrambleByte x s).params = s.params := rfl
@[simp] theorem scrambleByte_host (s : State) (x : Nat) : (scrambleByte x s).host = s.host := rfl
@[simp] theorem scrambleByte_sched (s : State) (x : Nat) : (scrambleByte x s).sched = s.sched := rfl
@[simp] theorem scrambleByte_turns (s : State) (x : Nat) : (scrambleByte x s).turns = s.turns := rfl
@[simp] theorem scrambleByte_draws (s : State) (x : Nat) : (scrambleByte x s).draws = s.draws + 1 := rfl
@[simp] theorem scrambleByte_polled (s : State) (x : Nat) : (scrambleByte x s).polled = s.polled := rfl
@[simp] theorem scrambleByte_held (s : State) (x : Nat) : (scrambleByte x s).held = s.held := rfl
@[simp] theorem scrambleByte_unseen (s : State) (x : Nat) : (scrambleByte x s).unseen = s.unseen := rfl
@[simp] theorem scrambleByte_touched (s : State) (x : Nat) : (scrambleByte x s).touched = s.touched := rfl

end Sys2Proof.Machine
end

