-- ==== Sys2Proof/Laws/Memory.lean ====
section
/-! SUPPORT. The laws of the byte store: a read after a write, the canonical form every operation keeps, and that equal reads
mean equal canonical lists. -/

namespace Sys2Proof.Machine

@[simp] theorem Memory.read_nil (x : Nat) : Memory.read [] x = 0 := rfl

theorem Memory.read_cons (c : Host.Cell) (m : List Host.Cell) (x : Nat) :
    Memory.read (c :: m) x = if x = c.1 then c.2 else Memory.read m x := rfl

theorem Memory.wfFrom_mono {lo lo' : Nat} (h : lo' ≤ lo) {m : List Host.Cell} (hm : Memory.wfFrom lo m = true) :
    Memory.wfFrom lo' m = true := by
  cases m with
  | nil => rfl
  | cons c m =>
    simp only [Memory.wfFrom, Bool.and_eq_true, decide_eq_true_eq] at hm ⊢
    exact ⟨⟨h.trans hm.1.1, hm.1.2⟩, hm.2⟩

/-- An address below every listed one reads as an unlisted address does. -/
theorem Memory.read_of_lt {lo x : Nat} {m : List Host.Cell} (hm : Memory.wfFrom lo m = true) (hx : x < lo) :
    Memory.read m x = Memory.unlisted := by
  induction m generalizing lo with
  | nil => rfl
  | cons c m ih =>
    simp only [Memory.wfFrom, Bool.and_eq_true, decide_eq_true_eq] at hm
    rw [Memory.read_cons, if_neg (by omega)]
    exact ih hm.2 (by omega)

/-- A write leaves every other address alone, in any list. -/
theorem Memory.read_write_other (m : List Host.Cell) {x y : Nat} (v : Byte) (h : y ≠ x) :
    Memory.read (Memory.write m x v) y = Memory.read m y := by
  induction m with
  | nil =>
    simp only [Memory.write]
    split <;> simp [h, Memory.read]
  | cons c m ih =>
    simp only [Memory.write]
    split
    · split <;> simp [Memory.read_cons, h]
    · split
      · rename_i hx
        subst hx
        split <;> simp [Memory.read_cons, h]
      · simp [Memory.read_cons, ih]

/-- A read after a write to the same address gives the byte written. -/
theorem Memory.read_write_same {lo : Nat} {m : List Host.Cell} (hm : Memory.wfFrom lo m = true) (x : Nat) (v : Byte) :
    Memory.read (Memory.write m x v) x = v := by
  induction m generalizing lo with
  | nil =>
    simp only [Memory.write]
    split
    · rename_i h; rw [h]; rfl
    · simp [Memory.read_cons]
  | cons c m ih =>
    simp only [Memory.wfFrom, Bool.and_eq_true, decide_eq_true_eq] at hm
    simp only [Memory.write]
    split
    · rename_i hx
      split
      · rename_i hv
        rw [Memory.read_cons, if_neg (by omega), hv]
        exact Memory.read_of_lt hm.2 (by omega)
      · simp [Memory.read_cons]
    · split
      · rename_i hx
        split
        · rename_i hv
          rw [hv]
          exact Memory.read_of_lt hm.2 (by omega)
        · simp [Memory.read_cons]
      · rename_i h1 h2
        rw [Memory.read_cons, if_neg h2]
        exact ih hm.2

theorem Memory.read_write {m : List Host.Cell} (hm : Memory.wf m = true) (x y : Nat) (v : Byte) :
    Memory.read (Memory.write m x v) y = if y = x then v else Memory.read m y := by
  split
  · rename_i h; rw [h]; exact Memory.read_write_same hm x v
  · rename_i h; exact Memory.read_write_other m v h

/-- A write keeps the canonical form. -/
theorem Memory.write_wfFrom {lo : Nat} {m : List Host.Cell} (hm : Memory.wfFrom lo m = true) {x : Nat} (hx : lo ≤ x)
    (v : Byte) : Memory.wfFrom lo (Memory.write m x v) = true := by
  induction m generalizing lo with
  | nil =>
    simp only [Memory.write]
    split
    · rfl
    · rename_i h; simp [Memory.wfFrom, h, hx]
  | cons c m ih =>
    have hm0 := hm
    simp only [Memory.wfFrom, Bool.and_eq_true, decide_eq_true_eq] at hm
    simp only [Memory.write]
    split
    · rename_i hlt
      split
      · exact hm0
      · rename_i hv
        simp only [Memory.wfFrom, Bool.and_eq_true, decide_eq_true_eq]
        exact ⟨⟨hx, hv⟩, ⟨by omega, hm.1.2⟩, hm.2⟩
    · split
      · rename_i h1 h2
        split
        · exact Memory.wfFrom_mono (by omega) hm.2
        · rename_i hv
          simp only [Memory.wfFrom, Bool.and_eq_true, decide_eq_true_eq]
          exact ⟨⟨hx, hv⟩, h2 ▸ hm.2⟩
      · rename_i h1 h2
        simp only [Memory.wfFrom, Bool.and_eq_true, decide_eq_true_eq]
        exact ⟨hm.1, ih hm.2 (by omega)⟩

theorem Memory.write_wf {m : List Host.Cell} (hm : Memory.wf m = true) (x : Nat) (v : Byte) :
    Memory.wf (Memory.write m x v) = true := Memory.write_wfFrom hm (Nat.zero_le x) v

theorem Memory.below_cons (n : Nat) (c : Host.Cell) (m : List Host.Cell) :
    Memory.below n (c :: m) = (decide (c.1 < n) && Memory.below n m) := rfl

/-- A write inside the address space lists no address outside it. -/
theorem Memory.write_below {n : Nat} {m : List Host.Cell} (hm : Memory.below n m = true) {x : Nat} (hx : x < n)
    (v : Byte) : Memory.below n (Memory.write m x v) = true := by
  induction m with
  | nil => simp only [Memory.write]; split <;> simp [Memory.below, hx]
  | cons c m ih =>
    simp only [Memory.below_cons, Bool.and_eq_true, decide_eq_true_eq] at hm
    simp only [Memory.write]
    repeat' split
    · simp [Memory.below_cons, hm]
    · simp [Memory.below_cons, hm, hx]
    · exact hm.2
    · simp [Memory.below_cons, hm, hx]
    · simp [Memory.below_cons, hm, ih]

/-- Two canonical lists that read alike are one list: equal memories are equal data. -/
theorem Memory.ext_of_wfFrom {lo : Nat} {m n : List Host.Cell} (hm : Memory.wfFrom lo m = true)
    (hn : Memory.wfFrom lo n = true) (h : ∀ x, Memory.read m x = Memory.read n x) : m = n := by
  induction m generalizing lo n with
  | nil =>
    cases n with
    | nil => rfl
    | cons d n =>
      simp only [Memory.wfFrom, Bool.and_eq_true, decide_eq_true_eq] at hn
      have := h d.1
      simp only [Memory.read_cons, if_true] at this
      exact absurd this.symm hn.1.2
  | cons c m ih =>
    cases n with
    | nil =>
      simp only [Memory.wfFrom, Bool.and_eq_true, decide_eq_true_eq] at hm
      have := h c.1
      simp only [Memory.read_cons, if_true] at this
      exact absurd this hm.1.2
    | cons d n =>
      simp only [Memory.wfFrom, Bool.and_eq_true, decide_eq_true_eq] at hm hn
      have key : c.1 = d.1 := by
        rcases Nat.lt_trichotomy c.1 d.1 with hlt | heq | hgt
        · have := h c.1
          rw [Memory.read_cons, if_pos rfl, Memory.read_cons, if_neg (by omega),
            Memory.read_of_lt hn.2 (by omega)] at this
          exact absurd this hm.1.2
        · exact heq
        · have := h d.1
          rw [Memory.read_cons (x := d.1) (c := c), if_neg (by omega), Memory.read_cons, if_pos rfl,
            Memory.read_of_lt hm.2 (by omega)] at this
          exact absurd this.symm hn.1.2
      have hv : c.2 = d.2 := by
        have := h c.1
        rwa [Memory.read_cons, if_pos rfl, Memory.read_cons, if_pos key] at this
      have hrest : m = n := by
        refine ih hm.2 (key ▸ hn.2) fun x => ?_
        rcases Nat.lt_or_ge x (c.1 + 1) with hx | hx
        · rw [Memory.read_of_lt hm.2 hx, Memory.read_of_lt hn.2 (by omega)]
        · have := h x
          rwa [Memory.read_cons, if_neg (by omega), Memory.read_cons, if_neg (by omega)] at this
      rw [hrest, show c = d from Prod.ext key hv]

end Sys2Proof.Machine
end

