-- ==== Sys2Proof/Laws/Ops.lean ====
section
/-! SUPPORT. One law per shared operation of Machine/Ops.lean: what it can do, in full. -/

namespace Sys2Proof.Machine

theorem Range.inRange_iff {r : Range} {n : Nat} : r.inRange n = true ↔ r.len = 0 ∨ r.base + r.len ≤ n := by
  simp only [Range.inRange, Bool.or_eq_true, decide_eq_true_eq]

/-! ## The platform predicate -/

@[simp] theorem memFault_setMem (s : State) (m : List Host.Cell) (x : Nat) : memFault (s.setMem m) x = memFault s x := rfl

@[simp] theorem memFault_setTab (s : State) (t : List Word) (x : Nat) : memFault (s.setTab t) x = memFault s x := rfl

@[simp] theorem memFault_setCursor (s : State) (p : Word) (m r : Byte) (x : Nat) :
    memFault (s.setCursor p m r) x = memFault s x := rfl

/-! ## One byte -/

theorem readByte_of_ok {s : State} {x : Nat} (h : memFault s x = false) : readByte x s = some (byteAt s x) := by
  simp [readByte, byteAt, h]

theorem readByte_of_fault {s : State} {x : Nat} (h : memFault s x = true) : readByte x s = none := by
  simp [readByte, h]

theorem readByte_cases (s : State) (x : Nat) :
    (memFault s x = true ∧ readByte x s = none) ∨ (memFault s x = false ∧ readByte x s = some (byteAt s x)) := by
  cases h : memFault s x
  · exact .inr ⟨rfl, readByte_of_ok h⟩
  · exact .inl ⟨rfl, readByte_of_fault h⟩

theorem writeByte_of_ok {s : State} {x : Nat} (v : Byte) (h : memFault s x = false) :
    writeByte x v s = some (s.setMem (Memory.write s.mem x v)) := by
  simp [writeByte, h]

theorem writeByte_of_fault {s : State} {x : Nat} (v : Byte) (h : memFault s x = true) : writeByte x v s = none := by
  simp [writeByte, h]

theorem writeByte_cases (s : State) (x : Nat) (v : Byte) :
    (memFault s x = true ∧ writeByte x v s = none) ∨
    (memFault s x = false ∧ writeByte x v s = some (s.setMem (Memory.write s.mem x v))) := by
  cases h : memFault s x
  · exact .inr ⟨rfl, writeByte_of_ok v h⟩
  · exact .inl ⟨rfl, writeByte_of_fault v h⟩

/-! ## A word -/

theorem wordOfBytes_toNat (b0 b1 b2 b3 : Byte) :
    (wordOfBytes b0 b1 b2 b3).toNat = b0.toNat + 256 * (b1.toNat + 256 * (b2.toNat + 256 * b3.toNat)) := by
  have h0 := b0.isLt
  have h1 := b1.isLt
  have h2 := b2.isLt
  simp only [wordOfBytes, BitVec.toNat_append]
  rw [← Nat.shiftLeft_add_eq_or_of_lt h2, ← Nat.shiftLeft_add_eq_or_of_lt h1, ← Nat.shiftLeft_add_eq_or_of_lt h0]
  simp only [Nat.shiftLeft_eq]
  omega

/-- A word read succeeds exactly when none of its four bytes faults, and then it is the little-endian word (R62, R67). -/
theorem readWord_of_ok {s : State} {x : Nat} (h : NoFault s x 4) : readWord x s = some (wordAt s x) := by
  have r0 := readByte_of_ok (h x (by omega) (by omega))
  have r1 := readByte_of_ok (h (x + 1) (by omega) (by omega))
  have r2 := readByte_of_ok (h (x + 2) (by omega) (by omega))
  have r3 := readByte_of_ok (h (x + 3) (by omega) (by omega))
  simp only [readWord, memRead, r0, r1, r2, r3, Nat.add_assoc, Nat.reduceAdd, Option.some.injEq]
  apply BitVec.eq_of_toNat_eq
  rw [wordAt, wordOfBytes_toNat, BitVec.toNat_ofNat, Nat.mod_eq_of_lt]
  · omega
  · have h0 := (byteAt s x).isLt
    have h1 := (byteAt s (x + 1)).isLt
    have h2 := (byteAt s (x + 2)).isLt
    have h3 := (byteAt s (x + 3)).isLt
    omega

theorem readWord_of_fault {s : State} {x y : Nat} (h1 : x ≤ y) (h2 : y < x + 4) (hf : memFault s y = true) :
    readWord x s = none := by
  have hy : y = x ∨ y = x + 1 ∨ y = x + 2 ∨ y = x + 3 := by omega
  simp only [readWord, memRead, Nat.add_assoc, Nat.reduceAdd]
  rcases readByte_cases s x with ⟨-, r0⟩ | ⟨n0, r0⟩ <;> simp only [r0]
  rcases readByte_cases s (x + 1) with ⟨-, r1⟩ | ⟨n1, r1⟩ <;> simp only [r1]
  rcases readByte_cases s (x + 2) with ⟨-, r2⟩ | ⟨n2, r2⟩ <;> simp only [r2]
  rcases readByte_cases s (x + 3) with ⟨-, r3⟩ | ⟨n3, r3⟩ <;> simp only [r3]
  rcases hy with rfl | rfl | rfl | rfl <;> simp_all

theorem readWord_cases (s : State) (x : Nat) :
    ((∃ y, x ≤ y ∧ y < x + 4 ∧ memFault s y = true) ∧ readWord x s = none) ∨
    (NoFault s x 4 ∧ readWord x s = some (wordAt s x)) := by
  by_cases h : ∃ y, x ≤ y ∧ y < x + 4 ∧ memFault s y = true
  · obtain ⟨y, h1, h2, h3⟩ := h
    exact .inl ⟨⟨y, h1, h2, h3⟩, readWord_of_fault h1 h2 h3⟩
  · have hn : NoFault s x 4 := fun y h1 h2 => by
      cases hf : memFault s y
      · rfl
      · exact absurd ⟨y, h1, h2, hf⟩ h
    exact .inr ⟨hn, readWord_of_ok hn⟩

/-! ## A write of several bytes -/

/-- Everything `MemWrite` can do: it goes on, or stops with `BUS`, and either way it has changed nothing but bytes of its own
region, keeping the canonical form. -/
theorem memWrite_cases (n : Nat) : ∀ (x v : Nat) (s : State), ∃ m,
    (memWrite x n v s = .ok () (s.setMem m) ∨
      (memWrite x n v s = .stop .bus (s.setMem m) ∧ ∃ y, x ≤ y ∧ y < x + n ∧ memFault s y = true)) ∧
    (∀ y, ¬(x ≤ y ∧ y < x + n) → Memory.read m y = Memory.read s.mem y) ∧
    (Memory.wf s.mem = true → Memory.wf m = true) ∧
    (∀ k, Memory.below k s.mem = true → (n = 0 ∨ x + n ≤ k) → Memory.below k m = true) := by
  induction n with
  | zero => exact fun x v s => ⟨s.mem, .inl rfl, fun _ _ => rfl, id, fun _ h _ => h⟩
  | succ n ih =>
    intro x v s
    rcases writeByte_cases s x (BitVec.ofNat 8 v) with ⟨hf, hw⟩ | ⟨hf, hw⟩
    · exact ⟨s.mem, .inr ⟨by simp only [memWrite, hw]; rfl, x, by omega, by omega, hf⟩, fun _ _ => rfl, id, fun _ h _ => h⟩
    · obtain ⟨m, h1, h2, h3, h4⟩ := ih (x + 1) (v / 256) (s.setMem (Memory.write s.mem x (BitVec.ofNat 8 v)))
      refine ⟨m, ?_, fun y hy => ?_, fun h => h3 (Memory.write_wf h x _), fun k hk hx => ?_⟩
      · simp only [memWrite, hw]
        rcases h1 with h1 | ⟨h1, y, hy1, hy2, hy3⟩
        · exact .inl h1
        · exact .inr ⟨h1, y, by omega, by omega, hy3⟩
      · rw [h2 y (by omega)]
        exact Memory.read_write_other _ _ (by omega)
      · exact h4 k (Memory.write_below hk (by omega) _) (by omega)

/-- Where no byte faults, `MemWrite` goes on with its bytes written, least significant first (R9). -/
theorem memWrite_ok (n : Nat) : ∀ (x v : Nat) (s : State), NoFault s x n → Memory.wf s.mem = true → ∃ m,
    memWrite x n v s = .ok () (s.setMem m) ∧ Memory.wf m = true ∧
    (∀ y, ¬(x ≤ y ∧ y < x + n) → Memory.read m y = Memory.read s.mem y) ∧
    (∀ i, i < n → Memory.read m (x + i) = BitVec.ofNat 8 (v / 256 ^ i)) := by
  induction n with
  | zero => exact fun x v s _ hw => ⟨s.mem, rfl, hw, fun _ _ => rfl, fun i hi => absurd hi (by omega)⟩
  | succ n ih =>
    intro x v s hn hwf
    have hw := writeByte_of_ok (BitVec.ofNat 8 v) (hn x (by omega) (by omega))
    obtain ⟨m, h1, h2, h3, h4⟩ := ih (x + 1) (v / 256) (s.setMem (Memory.write s.mem x (BitVec.ofNat 8 v)))
      (fun y hy1 hy2 => hn y (by omega) (by omega)) (Memory.write_wf hwf x _)
    refine ⟨m, by simp only [memWrite, hw]; exact h1, h2, fun y hy => ?_, fun i hi => ?_⟩
    · rw [h3 y (by omega)]
      exact Memory.read_write_other _ _ (by omega)
    · cases i with
      | zero =>
        rw [h3 _ (by omega)]
        simp only [setMem_mem, Nat.add_zero, Nat.pow_zero, Nat.div_one]
        exact Memory.read_write_same hwf x _
      | succ i =>
        rw [show x + (i + 1) = x + 1 + i by omega, h4 i (by omega), Nat.div_div_eq_div_mul, Nat.pow_succ']

/-! ## The tables -/

theorem getD_setAt {α : Type} (d v : α) (t : List α) (i j : Nat) : (setAt d t i v).getD j d = if j = i then v else t.getD j d := by
  induction t generalizing i j with
  | nil =>
    induction i generalizing j with
    | zero => cases j <;> simp [setAt]
    | succ i ih =>
      cases j with
      | zero => simp [setAt]
      | succ j => simpa [setAt] using ih j
  | cons x t ih =>
    cases i <;> cases j <;> simp only [setAt, List.getD_cons_zero, List.getD_cons_succ, ih, Nat.succ_ne_zero, if_true, if_false,
      Nat.add_right_cancel_iff, (Nat.succ_ne_zero _).symm]

theorem length_setAt {α : Type} (d v : α) (t : List α) (i : Nat) : (setAt d t i v).length = max t.length (i + 1) := by
  induction t generalizing i with
  | nil =>
    induction i with
    | zero => rfl
    | succ i ih => simp only [setAt, List.length_cons, ih, List.length_nil]; omega
  | cons x t ih => cases i <;> simp only [setAt, List.length_cons, ih] <;> omega

theorem tabGet_tabSet (t : List Word) (i j : Nat) (v : Word) : tabGet (tabSet t i v) j = if j = i then v else tabGet t j :=
  getD_setAt 0 v t i j

theorem tabGet_tabSet_same (t : List Word) (i : Nat) (v : Word) : tabGet (tabSet t i v) i = v := by
  rw [tabGet_tabSet, if_pos rfl]

theorem tabGet_tabSet_other (t : List Word) {i j : Nat} (h : j ≠ i) (v : Word) : tabGet (tabSet t i v) j = tabGet t j := by
  rw [tabGet_tabSet, if_neg h]

/-- A store below the length of a table keeps its length. -/
theorem length_tabSet {t : List Word} {i : Nat} (h : i < t.length) (v : Word) : (tabSet t i v).length = t.length := by
  rw [tabSet, length_setAt]; omega

theorem dictGet_dictSet (d : List Byte) (i j : Nat) (v : Byte) : dictGet (dictSet d i v) j = if j = i then v else dictGet d j :=
  getD_setAt 0 v d i j

theorem length_dictSet {d : List Byte} {i : Nat} (h : i < d.length) (v : Byte) : (dictSet d i v).length = d.length := by
  rw [dictSet, length_setAt]; omega

theorem dictGet_replicate (n i : Nat) : dictGet (List.replicate n 0) i = 0 := by
  simp [dictGet, List.getD, List.getElem?_replicate]
  split <;> rfl

theorem sizesOk_iff {s : State} : sizesOk s = true ↔
    s.tab.length = s.params.lits.tableWords ∧ s.acc < 2 ^ s.params.lits.lcgWidth ∧ s.dict.length = s.params.lits.dictSize ∧
      s.wIndex < s.params.lits.dictSize := by
  simp only [sizesOk, Bool.and_eq_true, decide_eq_true_eq, and_assoc]

/-- New cipher registers of the right sizes keep the sizes. -/
theorem sizesOk_cipher {s : State} (h : sizesOk s = true) {u : List Word} {a : Nat} (hu : u.length = s.params.lits.tableWords)
    (ha : a < 2 ^ s.params.lits.lcgWidth) : sizesOk { s with tab := u, acc := a } = true := by
  have h := sizesOk_iff.mp h
  exact sizesOk_iff.mpr ⟨hu, ha, h.2.2⟩

theorem slot_of_lt {l : Literals} (h : l.tableWords = 256) {i : Nat} (hi : i < 256) : slot l i = i := by
  rw [slot, h, Nat.mod_eq_of_lt hi]

/-! ## Free bytes of races -/

/-- Scrambling a list of addresses changes nothing but the memory at them and the number of draws. -/
theorem scrambleBytes_cases (xs : List Nat) : ∀ s : State, ∃ m n,
    scrambleBytes xs s = (s.setMem m).setDraws n ∧ (∀ y, y ∉ xs → Memory.read m y = Memory.read s.mem y) ∧
    (Memory.wf s.mem = true → Memory.wf m = true) ∧
    (∀ k, Memory.below k s.mem = true → (∀ x ∈ xs, x < k) → Memory.below k m = true) := by
  induction xs with
  | nil => exact fun s => ⟨s.mem, s.draws, rfl, fun _ _ => rfl, id, fun _ h _ => h⟩
  | cons x xs ih =>
    intro s
    obtain ⟨m, n, h1, h2, h3, h4⟩ := ih (scrambleByte x s)
    refine ⟨m, n, by simp only [scrambleBytes, h1]; rfl, fun y hy => ?_, fun h => h3 ?_, fun k hk hx => ?_⟩
    · rw [h2 y fun h => hy (List.mem_cons_of_mem x h), scrambleByte_mem]
      exact Memory.read_write_other _ _ fun h => hy (h ▸ List.mem_cons_self)
    · rw [scrambleByte_mem]; exact Memory.write_wf h x _
    · refine h4 k ?_ fun y hy => hx y (List.mem_cons_of_mem x hy)
      rw [scrambleByte_mem]
      exact Memory.write_below hk (hx x List.mem_cons_self) _

/-- Scrambling a region changes nothing but the memory in it and the number of draws. -/
theorem scrambleFrom_cases (len : Nat) : ∀ (x : Nat) (s : State), ∃ m n,
    scrambleFrom x len s = (s.setMem m).setDraws n ∧
    (∀ y, ¬(x ≤ y ∧ y < x + len) → Memory.read m y = Memory.read s.mem y) ∧
    (Memory.wf s.mem = true → Memory.wf m = true) ∧
    (∀ k, Memory.below k s.mem = true → (len = 0 ∨ x + len ≤ k) → Memory.below k m = true) := by
  induction len with
  | zero => exact fun x s => ⟨s.mem, s.draws, rfl, fun _ _ => rfl, id, fun _ h _ => h⟩
  | succ len ih =>
    intro x s
    obtain ⟨m, n, h1, h2, h3, h4⟩ := ih (x + 1) (scrambleByte x s)
    refine ⟨m, n, by simp only [scrambleFrom, h1]; rfl, fun y hy => ?_, fun h => h3 ?_, fun k hk hx => ?_⟩
    · rw [h2 y (by omega), scrambleByte_mem]
      exact Memory.read_write_other _ _ (by omega)
    · rw [scrambleByte_mem]; exact Memory.write_wf h x _
    · refine h4 k ?_ (by omega)
      rw [scrambleByte_mem]
      exact Memory.write_below hk (by omega) _

/-- Scrambling the regions of a list of loans changes nothing but the memory in them and the number of draws. -/
theorem scrambleLoans_cases (ls : List Loan) : ∀ s : State, ∃ m n,
    scrambleLoans ls s = (s.setMem m).setDraws n ∧
    (∀ y, (∀ l ∈ ls, l.region.has y = false) → Memory.read m y = Memory.read s.mem y) ∧
    (Memory.wf s.mem = true → Memory.wf m = true) ∧
    (∀ k, Memory.below k s.mem = true → (∀ l ∈ ls, l.region.inRange k = true) → Memory.below k m = true) := by
  induction ls with
  | nil => exact fun s => ⟨s.mem, s.draws, rfl, fun _ _ => rfl, id, fun _ h _ => h⟩
  | cons l ls ih =>
    intro s
    obtain ⟨m1, n1, a1, a2, a3, a4⟩ := scrambleFrom_cases l.region.len l.region.base s
    obtain ⟨m, n, h1, h2, h3, h4⟩ := ih ((s.setMem m1).setDraws n1)
    refine ⟨m, n, by simp only [scrambleLoans, a1, h1]; rfl, fun y hy => ?_, fun h => h3 (a3 h), fun k hk hx => ?_⟩
    · rw [h2 y fun l' hl => hy l' (List.mem_cons_of_mem l hl)]
      refine a2 y fun h => ?_
      have := hy l List.mem_cons_self
      simp only [Range.has, Bool.and_eq_false_iff, decide_eq_false_iff_not] at this
      omega
    · exact h4 k (a4 k hk (Range.inRange_iff.mp (hx l List.mem_cons_self))) fun l' hl => hx l' (List.mem_cons_of_mem l hl)

/-! ## Bytes put back, and regions without a byte -/

/-- Restoring a list of addresses changes nothing but the memory at them, where it then reads as the other memory does. -/
theorem restoreBytes_cases (w : List Host.Cell) (xs : List Nat) : ∀ s : State, ∃ m,
    restoreBytes w xs s = s.setMem m ∧ (∀ y, y ∉ xs → Memory.read m y = Memory.read s.mem y) ∧
    (Memory.wf s.mem = true → Memory.wf m = true ∧ ∀ y ∈ xs, Memory.read m y = Memory.read w y) ∧
    (∀ k, Memory.below k s.mem = true → (∀ x ∈ xs, x < k) → Memory.below k m = true) := by
  induction xs with
  | nil => exact fun s => ⟨s.mem, rfl, fun _ _ => rfl, fun h => ⟨h, fun _ hy => absurd hy List.not_mem_nil⟩, fun _ h _ => h⟩
  | cons x xs ih =>
    intro s
    obtain ⟨m, h1, h2, h3, h4⟩ := ih (s.setMem (Memory.write s.mem x (Memory.read w x)))
    simp only [setMem_mem] at h2 h3 h4
    refine ⟨m, by simp only [restoreBytes, h1]; rfl, fun y hy => ?_, fun h => ?_, fun k hk hx => ?_⟩
    · rw [h2 y fun h => hy (List.mem_cons_of_mem x h)]
      exact Memory.read_write_other _ _ fun h => hy (h ▸ List.mem_cons_self)
    · obtain ⟨a1, a2⟩ := h3 (Memory.write_wf h x _)
      refine ⟨a1, fun y hy => ?_⟩
      by_cases hy' : y ∈ xs
      · exact a2 y hy'
      · rw [h2 y hy', Memory.read_write h]
        rcases List.mem_cons.mp hy with rfl | hy
        · exact if_pos rfl
        · exact absurd hy hy'
    · exact h4 k (Memory.write_below hk (hx x List.mem_cons_self) _) fun y hy => hx y (List.mem_cons_of_mem x hy)

theorem without_has (r : Range) (x y : Nat) : ((r.without x).any fun q => q.has y) = (r.has y && decide (y ≠ x)) := by
  unfold Range.without
  split_ifs with h
  · simp only [Range.has, Bool.and_eq_true, decide_eq_true_eq] at h
    rw [Bool.eq_iff_iff]
    simp only [Range.has, List.any_cons, List.any_nil, Bool.or_false, Bool.or_eq_true, Bool.and_eq_true, decide_eq_true_eq]
    omega
  · rw [List.any_cons, List.any_nil, Bool.or_false]
    by_cases hy : y = x
    · subst hy; simpa using h
    · simp [hy]

/-- The regions of a list without a byte hold the same bytes but it. -/
theorem flatMap_without_has (rs : List Range) (x y : Nat) :
    ((rs.flatMap (Range.without x)).any fun q => q.has y) = ((rs.any fun q => q.has y) && decide (y ≠ x)) := by
  induction rs with
  | nil => rfl
  | cons r rs ih => rw [List.flatMap_cons, List.any_append, without_has, ih, List.any_cons, Bool.and_or_distrib_right]

@[simp] theorem writtenOf_nil : writtenOf [] = [] := rfl

/-- A byte is outside the written bytes of a command exactly when no region that it writes has it. -/
theorem inWrites_eq_false {ls : List Loan} {x : Nat} :
    inWrites ls x = false ↔ ∀ l ∈ ls, l.writes = true → l.region.has x = false := by
  simp only [inWrites, List.any_eq_false, Bool.and_eq_true, not_and, Bool.not_eq_true]

/-- A byte is outside the bytes of a command exactly when no region of it has it. -/
theorem inLoans_eq_false {ls : List Loan} {x : Nat} : inLoans ls x = false ↔ ∀ l ∈ ls, l.region.has x = false := by
  simp only [inLoans, List.any_eq_false, Bool.not_eq_true]

end Sys2Proof.Machine
end

