-- ==== Sys2Proof/Laws/Checksum.lean ====
section
/-! SUPPORT. The law of the checksum loop: what it can do, in full. -/

namespace Sys2Proof.Machine

/-- Where no byte of its words faults the loop folds them in order (R180). -/
theorem csumLoop_ok (count : Nat) : ∀ (i x : Nat) (acc : Word) (s : State), NoFault s x (4 * count) →
    csumLoop count i x acc s =
      some ((List.range' i count).foldl (fun a j => foldWord j a (wordAt s (x + 4 * (j - i)))) acc) := by
  induction count with
  | zero => exact fun _ _ _ _ _ => rfl
  | succ count ih =>
    intro i x acc s hn
    have hr := readWord_of_ok (s := s) (x := x) fun y h1 h2 => hn y h1 (by omega)
    rw [csumLoop, hr]
    simp only [ih (i + 1) (x + 4) _ s fun y h1 h2 => hn y (by omega) (by omega)]
    rw [List.range'_succ, List.foldl_cons, Nat.sub_self, Nat.mul_zero, Nat.add_zero]
    congr 1
    apply List.foldl_ext
    intro a j hj
    have := (List.mem_range'_1.mp hj).1
    rw [show x + 4 + 4 * (j - (i + 1)) = x + 4 * (j - i) by omega]

/-- A fault in one of its words stops the loop (R230). -/
theorem csumLoop_fault (count : Nat) : ∀ (i x y : Nat) (acc : Word) (s : State),
    x ≤ y → y < x + 4 * count → memFault s y = true → csumLoop count i x acc s = none := by
  induction count with
  | zero => intro i x y acc s h1 h2; omega
  | succ count ih =>
    intro i x y acc s h1 h2 hf
    rw [csumLoop]
    by_cases h : y < x + 4
    · rw [readWord_of_fault h1 h hf]
    · rcases readWord_cases s x with ⟨-, hr⟩ | ⟨-, hr⟩
      · rw [hr]
      · rw [hr]
        exact ih _ _ y _ s (by omega) (by omega) hf

end Sys2Proof.Machine
end

