-- ==== Sys2Proof/Laws/Cipher.lean ====
section
/-! SUPPORT. The laws of the cipher engine: the tables that the pre-pass, the diagonal, `CipherInit` and `CipherNext` leave, and
everything the loops of `DECRYPT` can do. -/

namespace Sys2Proof.Machine

/-! ## The pre-pass (R102, R103) -/

theorem lcgRun_eq (p : Params) (n : Nat) : ∀ a, lcgRun p n a = (lcgStep p)^[n] a := by
  induction n with
  | zero => exact fun _ => rfl
  | succ n ih => exact fun a => by rw [lcgRun, ih, Function.iterate_succ_apply]

/-- Slot `i` of the `n` slots filled gets the entry of iteration `n + 2 - i`, counted from 1. -/
theorem prePass_get {p : Params} (hp : p.lits.tableWords = 256) (n : Nat) : ∀ a t i, n ≤ 254 →
    tabGet (prePass p n a t) i =
      if 2 ≤ i ∧ i < n + 2 then lcgEntry p.lits ((lcgStep p)^[n + 2 - i] a) else tabGet t i := by
  induction n with
  | zero => intro a t i _; rw [prePass, if_neg (by omega)]
  | succ n ih =>
    intro a t i hn
    rw [prePass, slot_of_lt hp (by omega), ih _ _ _ (by omega)]
    by_cases h1 : 2 ≤ i ∧ i < n + 2
    · rw [if_pos h1, if_pos (by omega), ← Function.iterate_succ_apply, show (n + 2 - i).succ = n + 1 + 2 - i by omega]
    · rw [if_neg h1]
      by_cases h2 : i = n + 2
      · rw [if_pos (by omega), h2, tabGet_tabSet_same, show n + 1 + 2 - (n + 2) = 1 by omega, Function.iterate_one]
      · rw [tabGet_tabSet_other _ h2, if_neg (by omega)]

theorem length_prePass {p : Params} (hp : p.lits.tableWords = 256) (n : Nat) : ∀ a t, n ≤ 254 → t.length = 256 →
    (prePass p n a t).length = 256 := by
  induction n with
  | zero => exact fun _ _ _ h => h
  | succ n ih =>
    intro a t hn h
    rw [prePass, slot_of_lt hp (by omega), ih _ _ (by omega)]
    rw [length_tabSet (by omega), h]

theorem lcgStep_params {p q : Params} (h1 : p.lcgReading = q.lcgReading) (h2 : p.lits = q.lits) : lcgStep p = lcgStep q := by
  funext a
  rw [lcgStep, lcgStep, h1, h2]

theorem prePass_params {p q : Params} (h1 : p.lcgReading = q.lcgReading) (h2 : p.lits = q.lits) (n : Nat) :
    ∀ a t, prePass p n a t = prePass q n a t := by
  induction n with
  | zero => exact fun _ _ => rfl
  | succ n ih => exact fun a t => by rw [prePass, prePass, lcgStep_params h1 h2, ih, h2]

theorem lcgStep_lt (p : Params) (a : Nat) : lcgStep p a < 2 ^ p.lits.lcgWidth := by
  unfold lcgStep
  cases p.lcgReading <;> exact Nat.mod_lt _ (Nat.two_pow_pos _)

theorem lcgRun_lt (p : Params) (n : Nat) : ∀ a, a < 2 ^ p.lits.lcgWidth → lcgRun p n a < 2 ^ p.lits.lcgWidth := by
  induction n with
  | zero => exact fun _ h => h
  | succ n ih => exact fun a _ => ih _ (lcgStep_lt p a)

theorem accStart_lt (l : Literals) (seed : Word) : accStart l seed < 2 ^ l.lcgWidth := Nat.mod_lt _ (Nat.two_pow_pos _)

/-- With `LCG_WIDTH` = 64 the accumulator starts as the seed (R101). -/
theorem accStart_source (seed : Word) : accStart Literals.source seed = seed.toNat :=
  Nat.mod_eq_of_lt (seed.isLt.trans (by decide))

/-! ## The diagonal (R105) -/

/-- The diagonal's constants and the table's size have R7's values. -/
structure DiagonalSizes (l : Literals) : Prop where
  words : l.tableWords = 256
  stride : l.diagStride = 7

theorem diagonal_miss {l : Literals} (hl : DiagonalSizes l) (n : Nat) : ∀ bit ones i t j, i + 7 * n ≤ 262 →
    (∀ q, q < n → j ≠ i + 7 * q) → tabGet (diagonal l n bit ones i t) j = tabGet t j := by
  induction n with
  | zero => exact fun _ _ _ _ _ _ _ => rfl
  | succ n ih =>
    intro bit ones i t j hi h
    have h0 : j ≠ i := by simpa using h 0 (by omega)
    rw [diagonal, hl.stride, slot_of_lt hl.words (by omega), ih _ _ _ _ _ (by omega), tabGet_tabSet_other _ h0]
    intro q hq
    have := h (q + 1) (by omega)
    omega

theorem diagonal_hit {l : Literals} (hl : DiagonalSizes l) (n : Nat) : ∀ (bit ones : Word) i t q, q < n → i + 7 * n ≤ 262 →
    tabGet (diagonal l n bit ones i t) (i + 7 * q) = (bit >>> q) ||| (tabGet t (i + 7 * q) &&& (ones >>> q)) := by
  induction n with
  | zero => intro _ _ _ _ q hq; omega
  | succ n ih =>
    intro bit ones i t q hq hi
    rw [diagonal, hl.stride, slot_of_lt hl.words (by omega)]
    cases q with
    | zero =>
      rw [diagonal_miss hl n _ _ _ _ _ (by omega) (by intro q hq; omega), Nat.mul_zero, Nat.add_zero, tabGet_tabSet_same]
      simp
    | succ q =>
      have := ih (bit >>> 1) (ones >>> 1) (i + 7)
        (tabSet t i (bit ||| (tabGet t i &&& ones))) q (by omega) (by omega)
      rw [show i + 7 + 7 * q = i + 7 * (q + 1) by omega] at this
      rw [this, tabGet_tabSet_other _ (by omega), ← BitVec.shiftRight_add, ← BitVec.shiftRight_add, Nat.add_comm 1 q]

theorem length_diagonal {l : Literals} (hl : l.tableWords = 256) (n : Nat) : ∀ bit ones i t, t.length = 256 →
    (diagonal l n bit ones i t).length = 256 := by
  induction n with
  | zero => exact fun _ _ _ _ h => h
  | succ n ih =>
    intro bit ones i t h
    refine ih _ _ _ _ ?_
    rw [length_tabSet (by rw [h, slot, hl]; exact Nat.mod_lt _ (by decide)), h]

/-- Each slot that the diagonal rewrites depends on its own old word: tables that agree below slot `b` agree there after it. -/
theorem diagonal_low (b : Nat) (l : Literals) (n : Nat) : ∀ bit ones i t u, (∀ j, j < b → tabGet t j = tabGet u j) →
    ∀ j, j < b → tabGet (diagonal l n bit ones i t) j = tabGet (diagonal l n bit ones i u) j := by
  induction n with
  | zero => exact fun _ _ _ _ _ h => h
  | succ n ih =>
    intro bit ones i t u h
    refine ih _ _ _ _ _ fun j hj => ?_
    rw [tabGet_tabSet, tabGet_tabSet, h j hj]
    split
    · rename_i e
      rw [← e, h j hj]
    · rfl

/-! ## `CipherInit` (R100) -/

/-- Whether a slot is on the diagonal (R105). -/
def onDiagonal (i : Nat) : Prop := ∃ q, q < 32 ∧ i = 5 + 7 * q

theorem CipherSizes.source : CipherSizes Literals.source := ⟨rfl, rfl, rfl⟩

theorem SourceLiterals.sizes {s : State} (h : SourceLiterals s) : CipherSizes s.params.lits := by
  rw [h]; exact .source

theorem seedTable_eq {p : Params} (hp : p.lits = Literals.source) (seed : Word) (t : List Word) :
    seedTable p seed t = diagonal Literals.source 32 0x80000000 0xFFFFFFFF 5
      (tabSet (tabSet (prePass p 250 seed.toNat t) 0 0) 1 103) := by
  rw [seedTable, hp, accStart_source]
  rfl

theorem seedTable_get {p : Params} (hp : p.lits = Literals.source) (seed : Word) (t : List Word) {i : Nat}
    (hd : ¬ onDiagonal i) :
    tabGet (seedTable p seed t) i =
      if i = 0 then 0 else if i = 1 then 103
      else if i < 252 then lcgEntry Literals.source ((lcgStep p)^[252 - i] seed.toNat) else tabGet t i := by
  have hm : ∀ q, q < 32 → i ≠ 5 + 7 * q := fun q hq h => hd ⟨q, hq, h⟩
  rw [seedTable_eq hp, diagonal_miss ⟨rfl, rfl⟩ 32 _ _ 5 _ _ (by omega) hm]
  by_cases h0 : i = 0
  · subst h0
    rw [tabGet_tabSet_other _ (by omega), tabGet_tabSet_same, if_pos rfl]
  · by_cases h1 : i = 1
    · subst h1
      rw [tabGet_tabSet_same, if_neg h0, if_pos rfl]
    · rw [tabGet_tabSet_other _ h1, tabGet_tabSet_other _ h0, prePass_get (by rw [hp]; rfl) _ _ _ _ (by omega), if_neg h0, if_neg h1, hp]
      by_cases h2 : i < 252
      · rw [if_pos (by omega), if_pos h2]
      · rw [if_neg (by omega), if_neg h2]

theorem seedTable_get_diagonal {p : Params} (hp : p.lits = Literals.source) (seed : Word) (t : List Word) {q : Nat}
    (hq : q < 32) :
    tabGet (seedTable p seed t) (5 + 7 * q) =
      ((0x80000000 : Word) >>> q) |||
        (lcgEntry Literals.source ((lcgStep p)^[252 - (5 + 7 * q)] seed.toNat) &&& ((0xFFFFFFFF : Word) >>> q)) := by
  rw [seedTable_eq hp, diagonal_hit ⟨rfl, rfl⟩ 32 _ _ 5 _ q hq (by omega), tabGet_tabSet_other _ (by omega),
    tabGet_tabSet_other _ (by omega), prePass_get (by rw [hp]; rfl) _ _ _ _ (by omega), if_pos (by omega), hp]

/-- Of the parameters only the reading and the constants reach the table. -/
theorem seedTable_params {p q : Params} (h1 : p.lcgReading = q.lcgReading) (h2 : p.lits = q.lits) (seed : Word)
    (t : List Word) : seedTable p seed t = seedTable q seed t := by
  rw [seedTable, seedTable, prePass_params h1 h2, h2]

theorem length_seedTable {p : Params} (hl : CipherSizes p.lits) (seed : Word) {t : List Word} (h : t.length = 256) :
    (seedTable p seed t).length = 256 := by
  have h0 := length_prePass hl.1 p.lits.lagWords (accStart p.lits seed) t (by rw [hl.2.1]; omega) h
  refine length_diagonal hl.1 _ _ _ _ _ ?_
  rw [length_tabSet (by rw [length_tabSet (by omega)]; omega), length_tabSet (by omega), h0]

theorem cipherInit_eq (seed : Word) (s : State) :
    cipherInit seed s = { s with
      acc := lcgRun s.params s.params.lits.lagWords (accStart s.params.lits seed)
      tab := seedTable s.params seed s.tab
      ksv := true } := rfl

theorem not_onDiagonal_of_lt {i : Nat} (h : i < 5) : ¬ onDiagonal i := by rintro ⟨q, -, hq⟩; omega

theorem not_onDiagonal_of_gt {i : Nat} (h : 222 < i) : ¬ onDiagonal i := by rintro ⟨q, hq, hq'⟩; omega

theorem seedTable_zero {p : Params} (hp : p.lits = Literals.source) (seed : Word) (t : List Word) :
    tabGet (seedTable p seed t) 0 = 0 := by
  rw [seedTable_get hp seed t (not_onDiagonal_of_lt (by omega)), if_pos rfl]

theorem seedTable_one {p : Params} (hp : p.lits = Literals.source) (seed : Word) (t : List Word) :
    tabGet (seedTable p seed t) 1 = 103 := by
  rw [seedTable_get hp seed t (not_onDiagonal_of_lt (by omega)), if_neg (by omega), if_pos rfl]

theorem seedTable_high {p : Params} (hp : p.lits = Literals.source) (seed : Word) (t : List Word) {i : Nat}
    (h : 252 ≤ i) : tabGet (seedTable p seed t) i = tabGet t i := by
  rw [seedTable_get hp seed t (not_onDiagonal_of_gt (by omega)), if_neg (by omega), if_neg (by omega), if_neg (by omega)]

/-- With tables of R7's sizes, below slot 252 the table that `CipherInit` leaves depends on the seed alone. -/
theorem seedTable_low {p : Params} (hl : CipherSizes p.lits) (seed : Word) (t u : List Word) {i : Nat} (h : i < 252) :
    tabGet (seedTable p seed t) i = tabGet (seedTable p seed u) i := by
  refine diagonal_low 252 _ _ _ _ _ _ _ (fun j hj => ?_) i h
  have key := fun v => prePass_get hl.1 p.lits.lagWords (accStart p.lits seed) v j (by rw [hl.2.1]; omega)
  rw [tabGet_tabSet, tabGet_tabSet, tabGet_tabSet, tabGet_tabSet, key, key, hl.2.1]
  split_ifs <;> first | rfl | omega

/-! ## `CipherNext` (R106) -/

theorem cursorIndex_lt {l : Literals} (hl : CipherSizes l) (a : Word) : cursorIndex l a < 250 := by
  rw [cursorIndex, hl.2.2]; exact Nat.mod_lt _ (by decide)

theorem cursorIndex_of_lt {l : Literals} (hl : CipherSizes l) {a : Word} (h : a.toNat < 250) : cursorIndex l a = a.toNat := by
  rw [cursorIndex, hl.2.2]; exact Nat.mod_eq_of_lt h

theorem mapAt_eq {l : Literals} (hl : CipherSizes l) (i : Nat) : mapAt l i = (i + 1) % 250 := by rw [mapAt, hl.2.2]

theorem mapAt_lt {l : Literals} (hl : CipherSizes l) (i : Nat) : mapAt l i < 250 := by
  rw [mapAt_eq hl]; exact Nat.mod_lt _ (by decide)

theorem mapAt_toNat {l : Literals} (hl : CipherSizes l) (i : Nat) : (BitVec.ofNat 32 (mapAt l i)).toNat = mapAt l i := by
  rw [BitVec.toNat_ofNat, Nat.mod_eq_of_lt (by have := mapAt_lt hl i; omega)]

/-- The keystream word is that of the old cursors. -/
theorem keyStep_word {l : Literals} (hl : CipherSizes l) (t : List Word) :
    (keyStep l t).1 = tabGet t (cursorIndex l (tabGet t 1) + 2) ^^^ tabGet t (cursorIndex l (tabGet t 0) + 2) := by
  have ha := cursorIndex_lt hl (tabGet t 0)
  have hb := cursorIndex_lt hl (tabGet t 1)
  simp only [keyStep]
  rw [slot_of_lt hl.1 (by omega), slot_of_lt hl.1 (by omega), tabGet_tabSet_other _ (by omega), tabGet_tabSet_other _ (by omega),
    tabGet_tabSet_other _ (by omega), tabGet_tabSet_other _ (by omega)]

/-- The table after a draw, slot by slot. -/
theorem keyStep_tab {l : Literals} (hl : CipherSizes l) (t : List Word) (i : Nat) :
    tabGet (keyStep l t).2 i =
      if i = 0 then BitVec.ofNat 32 (mapAt l (cursorIndex l (tabGet t 0)))
      else if i = 1 then BitVec.ofNat 32 (mapAt l (cursorIndex l (tabGet t 1)))
      else if i = cursorIndex l (tabGet t 0) + 2 then (keyStep l t).1
      else tabGet t i := by
  have ha := cursorIndex_lt hl (tabGet t 0)
  have hs : slot l (cursorIndex l (tabGet t 0) + 2) = cursorIndex l (tabGet t 0) + 2 := slot_of_lt hl.1 (by omega)
  simp only [keyStep, hs]
  by_cases h2 : i = cursorIndex l (tabGet t 0) + 2
  · rw [if_neg (by omega), if_neg (by omega), if_pos h2, h2, tabGet_tabSet_same]
  · rw [tabGet_tabSet_other _ h2]
    by_cases h1 : i = 1
    · rw [if_neg (by omega), if_pos h1, h1, tabGet_tabSet_same]
    · rw [tabGet_tabSet_other _ h1]
      by_cases h0 : i = 0
      · rw [if_pos h0, h0, tabGet_tabSet_same]
      · rw [tabGet_tabSet_other _ h0, if_neg h0, if_neg h1, if_neg h2]

theorem keyStep_high {l : Literals} (hl : CipherSizes l) (t : List Word) {i : Nat} (h : 252 ≤ i) :
    tabGet (keyStep l t).2 i = tabGet t i := by
  have ha := cursorIndex_lt hl (tabGet t 0)
  rw [keyStep_tab hl, if_neg (by omega), if_neg (by omega), if_neg (by omega)]

theorem length_keyStep {l : Literals} (hl : l.tableWords = 256) {t : List Word} (h : t.length = 256) :
    (keyStep l t).2.length = 256 := by
  have e : ∀ v w : Word, (tabSet (tabSet t 0 v) 1 w).length = 256 := fun v w => by
    rw [length_tabSet (by rw [length_tabSet (by omega)]; omega), length_tabSet (by omega), h]
  simp only [keyStep]
  rw [length_tabSet (by rw [e, slot, hl]; exact Nat.mod_lt _ (by decide)), e]

theorem cipherNext_eq (s : State) :
    cipherNext s = ((keyStep s.params.lits s.tab).1, s.setTab (keyStep s.params.lits s.tab).2) := rfl

/-! ## Several draws -/

theorem keyTab_succ (l : Literals) (n : Nat) : ∀ t, keyTab l (n + 1) t = (keyStep l (keyTab l n t)).2 := by
  induction n with
  | zero => exact fun _ => rfl
  | succ n ih => exact fun t => ih (keyStep l t).2

theorem keyWord_succ (l : Literals) (t : List Word) (n : Nat) : keyWord l t (n + 1) = keyWord l (keyStep l t).2 n := rfl

theorem keyTab_high {l : Literals} (hl : CipherSizes l) (n : Nat) {i : Nat} (h : 252 ≤ i) :
    ∀ t, tabGet (keyTab l n t) i = tabGet t i := by
  induction n with
  | zero => exact fun _ => rfl
  | succ n ih => exact fun t => (ih _).trans (keyStep_high hl t h)

theorem length_keyTab {l : Literals} (hl : l.tableWords = 256) (n : Nat) : ∀ {t}, t.length = 256 → (keyTab l n t).length = 256 := by
  induction n with
  | zero => exact id
  | succ n ih => exact fun h => ih (length_keyStep hl h)

/-- A table's cursors as R38 and R44 have them. -/
def CursorPair (t : List Word) : Prop :=
  (tabGet t 0).toNat < 250 ∧ (tabGet t 1).toNat = ((tabGet t 0).toNat + 103) % 250

theorem seedTable_cursorPair {p : Params} (hp : p.lits = Literals.source) (seed : Word) (t : List Word) :
    CursorPair (seedTable p seed t) := by
  simp [CursorPair, seedTable_zero hp, seedTable_one hp]

theorem keyStep_cursorPair {l : Literals} (hl : CipherSizes l) {t : List Word} (h : CursorPair t) : CursorPair (keyStep l t).2 := by
  obtain ⟨h0, h1⟩ := h
  have e0 := keyStep_tab hl t 0
  have e1 := keyStep_tab hl t 1
  rw [if_pos rfl, cursorIndex_of_lt hl h0] at e0
  rw [if_neg (by omega), if_pos rfl, cursorIndex_of_lt hl (by omega)] at e1
  rw [CursorPair, e0, e1, mapAt_toNat hl, mapAt_toNat hl, mapAt_eq hl, mapAt_eq hl]
  omega

theorem keyTab_cursorPair {l : Literals} (hl : CipherSizes l) (n : Nat) : ∀ {t}, CursorPair t → CursorPair (keyTab l n t) := by
  induction n with
  | zero => exact id
  | succ n ih => exact fun h => ih (keyStep_cursorPair hl h)

/-! ## The word loop of `DECRYPT` (R111) -/

@[simp] theorem memFault_updates (s : State) (m : List Host.Cell) (t : List Word) (x : Nat) :
    memFault ((s.setMem m).setTab t) x = memFault s x := rfl

/-- Everything the word loop can do: it goes on, or stops with `BUS`; it changes only the table, by draws, and bytes of its
own region. -/
theorem decryptWords_cases (n : Nat) : ∀ (x : Nat) (s : State), ∃ m k,
    k ≤ n ∧
    (decryptWords n x s = .ok () ((s.setMem m).setTab (keyTab s.params.lits k s.tab)) ∨
      decryptWords n x s = .stop .bus ((s.setMem m).setTab (keyTab s.params.lits k s.tab))) ∧
    (∀ y, ¬(x ≤ y ∧ y < x + 4 * n) → Memory.read m y = Memory.read s.mem y) ∧
    (Memory.wf s.mem = true → Memory.wf m = true) ∧
    (∀ b, Memory.below b s.mem = true → (n = 0 ∨ x + 4 * n ≤ b) → Memory.below b m = true) := by
  induction n with
  | zero => exact fun x s => ⟨s.mem, 0, by omega, .inl rfl, fun _ _ => rfl, id, fun _ h _ => h⟩
  | succ n ih =>
    intro x s
    rcases readWord_cases s x with ⟨-, hr⟩ | ⟨-, hr⟩
    · exact ⟨s.mem, 0, by omega, .inr (by simp only [decryptWords, hr]; rfl), fun _ _ => rfl, id, fun _ h _ => h⟩
    · obtain ⟨m1, a1, a2, a3, a4⟩ :=
        memWrite_cases 4 x (wordAt s x ^^^ (keyStep s.params.lits s.tab).1).toNat (s.setTab (keyStep s.params.lits s.tab).2)
      rcases a1 with a1 | ⟨a1, -⟩
      · obtain ⟨m, k, hk, h1, h2, h3, h4⟩ := ih (x + 4) ((s.setTab (keyStep s.params.lits s.tab).2).setMem m1)
        refine ⟨m, k + 1, by omega, ?_, fun y hy => ?_, fun h => h3 (a3 h), fun b hb hx => ?_⟩
        · simp only [decryptWords, hr, cipherNext_eq, a1]
          exact h1
        · rw [h2 y (by omega)]
          exact a2 y (by omega)
        · exact h4 b (a4 b hb (by omega)) (by omega)
      · refine ⟨m1, 1, by omega, .inr ?_, fun y hy => a2 y (by omega), a3, fun b hb hx => a4 b hb (by omega)⟩
        simp only [decryptWords, hr, cipherNext_eq, a1]
        rfl

/-- A byte of the XOR of two words is the XOR of their bytes. -/
theorem ofNat_xor_byte (w k : Word) (i : Nat) :
    BitVec.ofNat 8 ((w ^^^ k).toNat / 256 ^ i) = w.extractLsb' (8 * i) 8 ^^^ k.extractLsb' (8 * i) 8 := by
  apply BitVec.eq_of_getLsbD_eq
  intro j hj
  rw [show (256 : Nat) ^ i = 2 ^ (8 * i) by rw [Nat.pow_mul], ← Nat.shiftRight_eq_div_pow]
  simp only [BitVec.getLsbD_ofNat, hj, decide_true, Bool.true_and, Nat.testBit_shiftRight, BitVec.getLsbD_xor,
    BitVec.getLsbD_extractLsb', BitVec.testBit_toNat]

/-- A byte of a little-endian word. -/
theorem wordAt_byte (s : State) (x : Nat) (i : Nat) (hi : i < 4) : (wordAt s x).extractLsb' (8 * i) 8 = byteAt s (x + i) := by
  apply BitVec.eq_of_getLsbD_eq
  intro j hj
  simp only [wordAt, wordOfBytes, BitVec.getLsbD_extractLsb', BitVec.getLsbD_append, hj, decide_true, Bool.true_and]
  have : i = 0 ∨ i = 1 ∨ i = 2 ∨ i = 3 := by omega
  rcases this with rfl | rfl | rfl | rfl
  · rw [if_pos (by omega)]; simp
  · rw [if_neg (by omega), if_pos (by omega)]; congr 1; omega
  · rw [if_neg (by omega), if_neg (by omega), if_pos (by omega)]; congr 1; omega
  · rw [if_neg (by omega), if_neg (by omega), if_neg (by omega)]; congr 1; omega

/-- Where no byte faults, the word loop decrypts every word and draws one keystream word for each. -/
theorem decryptWords_ok (n : Nat) : ∀ (x : Nat) (s : State), NoFault s x (4 * n) → Memory.wf s.mem = true → ∃ m,
    decryptWords n x s = .ok () ((s.setMem m).setTab (keyTab s.params.lits n s.tab)) ∧ Memory.wf m = true ∧
    (∀ y, ¬(x ≤ y ∧ y < x + 4 * n) → Memory.read m y = Memory.read s.mem y) ∧
    (∀ i, i < 4 * n →
      Memory.read m (x + i) = Memory.read s.mem (x + i) ^^^ (keyWord s.params.lits s.tab (i / 4)).extractLsb' (8 * (i % 4)) 8) := by
  induction n with
  | zero => exact fun x s _ hw => ⟨s.mem, rfl, hw, fun _ _ => rfl, fun i hi => absurd hi (by omega)⟩
  | succ n ih =>
    intro x s hn hw
    have hr := readWord_of_ok (s := s) (x := x) fun y h1 h2 => hn y h1 (by omega)
    obtain ⟨m1, a1, a2, a3, a4⟩ :=
      memWrite_ok 4 x (wordAt s x ^^^ (keyStep s.params.lits s.tab).1).toNat (s.setTab (keyStep s.params.lits s.tab).2)
        (fun y h1 h2 => hn y h1 (by omega)) hw
    obtain ⟨m, h1, h2, h3, h4⟩ := ih (x + 4) ((s.setTab (keyStep s.params.lits s.tab).2).setMem m1)
      (fun y h1 h2 => hn y (by omega) (by omega)) a2
    refine ⟨m, ?_, h2, fun y hy => ?_, fun i hi => ?_⟩
    · simp only [decryptWords, hr, cipherNext_eq, a1]
      exact h1
    · rw [h3 y (by omega)]
      exact a3 y (by omega)
    · by_cases h : i < 4
      · rw [h3 _ (by omega)]
        simp only [setMem_mem, a4 i h]
        rw [ofNat_xor_byte _ _ i, wordAt_byte s x i h, show i / 4 = 0 by omega, show i % 4 = i by omega]
        rfl
      · have := h4 (i - 4) (by omega)
        rw [show x + 4 + (i - 4) = x + i by omega] at this
        rw [this]
        simp only [setMem_mem, setMem_tab, setTab_tab]
        rw [a3 _ (by omega), show i / 4 = (i - 4) / 4 + 1 by omega, keyWord_succ, show (i - 4) % 4 = i % 4 by omega]
        rfl

/-! ## The tail of `DECRYPT` (R112) -/

/-- Everything the tail's byte loop can do. -/
theorem decryptTailBytes_cases (n : Nat) : ∀ (j x : Nat) (k : Word) (s : State), ∃ m,
    (decryptTailBytes n j x k s = .ok () (s.setMem m) ∨ decryptTailBytes n j x k s = .stop .bus (s.setMem m)) ∧
    (∀ y, ¬(x ≤ y ∧ y < x + n) → Memory.read m y = Memory.read s.mem y) ∧
    (Memory.wf s.mem = true → Memory.wf m = true) ∧
    (∀ b, Memory.below b s.mem = true → (n = 0 ∨ x + n ≤ b) → Memory.below b m = true) := by
  induction n with
  | zero => exact fun j x k s => ⟨s.mem, .inl rfl, fun _ _ => rfl, id, fun _ h _ => h⟩
  | succ n ih =>
    intro j x k s
    rcases readByte_cases s x with ⟨-, hr⟩ | ⟨hf, hr⟩
    · exact ⟨s.mem, .inr (by simp only [decryptTailBytes, hr]; rfl), fun _ _ => rfl, id, fun _ h _ => h⟩
    · have hw := writeByte_of_ok (byteAt s x ^^^ tailByte s.params.tailOrder k j) hf
      obtain ⟨m, h1, h2, h3, h4⟩ := ih (j + 1) (x + 1) k
        (s.setMem (Memory.write s.mem x (byteAt s x ^^^ tailByte s.params.tailOrder k j)))
      refine ⟨m, ?_, fun y hy => ?_, fun h => h3 (Memory.write_wf h x _), fun b hb hx => ?_⟩
      · simp only [decryptTailBytes, hr, hw]
        exact h1
      · rw [h2 y (by omega)]
        exact Memory.read_write_other _ _ (by omega)
      · exact h4 b (Memory.write_below hb (by omega) _) (by omega)

/-- Where no byte faults, the tail's byte loop decrypts every byte. -/
theorem decryptTailBytes_ok (n : Nat) : ∀ (j x : Nat) (k : Word) (s : State), NoFault s x n → Memory.wf s.mem = true → ∃ m,
    decryptTailBytes n j x k s = .ok () (s.setMem m) ∧ Memory.wf m = true ∧
    (∀ y, ¬(x ≤ y ∧ y < x + n) → Memory.read m y = Memory.read s.mem y) ∧
    (∀ i, i < n → Memory.read m (x + i) = Memory.read s.mem (x + i) ^^^ tailByte s.params.tailOrder k (j + i)) := by
  induction n with
  | zero => exact fun j x k s _ hw => ⟨s.mem, rfl, hw, fun _ _ => rfl, fun i hi => absurd hi (by omega)⟩
  | succ n ih =>
    intro j x k s hn hwf
    have hf := hn x (by omega) (by omega)
    have hr := readByte_of_ok hf
    have hw := writeByte_of_ok (byteAt s x ^^^ tailByte s.params.tailOrder k j) hf
    obtain ⟨m, h1, h2, h3, h4⟩ := ih (j + 1) (x + 1) k
      (s.setMem (Memory.write s.mem x (byteAt s x ^^^ tailByte s.params.tailOrder k j)))
      (fun y h1 h2 => hn y (by omega) (by omega)) (Memory.write_wf hwf x _)
    refine ⟨m, ?_, h2, fun y hy => ?_, fun i hi => ?_⟩
    · simp only [decryptTailBytes, hr, hw]
      exact h1
    · rw [h3 y (by omega)]
      exact Memory.read_write_other _ _ (by omega)
    · cases i with
      | zero =>
        rw [h3 _ (by omega)]
        simp only [setMem_mem, Nat.add_zero]
        rw [Memory.read_write_same hwf]
        rfl
      | succ i =>
        have := h4 i (by omega)
        rw [show x + 1 + i = x + (i + 1) by omega, show j + 1 + i = j + (i + 1) by omega] at this
        rw [this]
        simp only [setMem_mem, setMem_params]
        rw [Memory.read_write_other _ _ (by omega)]

/-- Everything the tail can do. -/
theorem decryptTail_cases (t x : Nat) (s : State) : ∃ m k,
    (decryptTail t x s = .ok () ((s.setMem m).setTab (keyTab s.params.lits k s.tab)) ∨
      decryptTail t x s = .stop .bus ((s.setMem m).setTab (keyTab s.params.lits k s.tab))) ∧
    (∀ y, ¬(x ≤ y ∧ y < x + t) → Memory.read m y = Memory.read s.mem y) ∧
    (Memory.wf s.mem = true → Memory.wf m = true) ∧
    (∀ b, Memory.below b s.mem = true → (t = 0 ∨ x + t ≤ b) → Memory.below b m = true) := by
  by_cases h : t = 0
  · exact ⟨s.mem, 0, .inl (by simp only [decryptTail, if_pos h]; rfl), fun _ _ => rfl, id, fun _ h _ => h⟩
  · obtain ⟨m, h1, h2, h3, h4⟩ := decryptTailBytes_cases t 0 x (keyStep s.params.lits s.tab).1 (s.setTab (keyStep s.params.lits s.tab).2)
    refine ⟨m, 1, ?_, h2, h3, h4⟩
    simp only [decryptTail, if_neg h, cipherNext_eq]
    exact h1

/-! ## The body of `DECRYPT` (R110 to R112) -/

/-- The table that the words of a `DECRYPT` are drawn from (R110). -/
def decryptTable (seed : Word) (s : State) : List Word :=
  seedTable s.params seed (tabSet (seedTable s.params s.params.lits.bootSeed s.tab) (slot s.params.lits 254) 0)

theorem decryptSetup_eq (seed : Word) (s : State) :
    decryptSetup seed s = { s with
      acc := lcgRun s.params s.params.lits.lagWords (accStart s.params.lits seed)
      tab := decryptTable seed s
      ksv := true } := by
  simp only [decryptSetup, decryptTable, cipherInit, State.setTab]

theorem decryptSetup_tab (seed : Word) (s : State) : (decryptSetup seed s).tab = decryptTable seed s := by
  rw [decryptSetup_eq]

theorem decryptSetup_params (seed : Word) (s : State) : (decryptSetup seed s).params = s.params := by
  rw [decryptSetup_eq]

theorem decryptSetup_mem (seed : Word) (s : State) : (decryptSetup seed s).mem = s.mem := by
  rw [decryptSetup_eq]

theorem decryptTable_cursorPair {s : State} (hs : SourceLiterals s) (seed : Word) : CursorPair (decryptTable seed s) :=
  seedTable_cursorPair hs _ _

/-- Below slot 252 the bootstrap leaves no trace (R110). -/
theorem decryptTable_low {s : State} (hl : CipherSizes s.params.lits) (seed : Word) {i : Nat} (h : i < 252) :
    tabGet (decryptTable seed s) i = tabGet (seedTable s.params seed s.tab) i :=
  seedTable_low hl _ _ _ h

theorem length_decryptTable {s : State} (hl : CipherSizes s.params.lits) (seed : Word) (h : s.tab.length = 256) :
    (decryptTable seed s).length = 256 := by
  have h1 := length_seedTable hl s.params.lits.bootSeed h
  refine length_seedTable hl _ ?_
  rw [slot_of_lt hl.1 (by omega), length_tabSet (by omega), h1]

theorem collapse_updates (s : State) (m m' : List Host.Cell) (t t' : List Word) :
    (((s.setMem m).setTab t).setMem m').setTab t' = (s.setMem m').setTab t' := rfl

/-- Everything the body can do: it completes with `OK` or `BUS`, having changed only the cipher's registers and bytes of its own
region. -/
theorem decryptBody_cases (seed : Word) (base n : Nat) (s : State) : ∃ m k c,
    decryptBody seed base n s =
      complete c (((decryptSetup seed s).setMem m).setTab (keyTab s.params.lits k (decryptTable seed s))) ∧
    (c = .ok ∨ c = .bus) ∧
    (∀ y, ¬(base ≤ y ∧ y < base + n) → Memory.read m y = Memory.read s.mem y) ∧
    (Memory.wf s.mem = true → Memory.wf m = true) ∧
    (∀ b, Memory.below b s.mem = true → (n = 0 ∨ base + n ≤ b) → Memory.below b m = true) := by
  have hn : n = 4 * (n / 4) + n % 4 := by omega
  obtain ⟨m1, k1, -, a1, a2, a3, a4⟩ := decryptWords_cases (n / 4) base (decryptSetup seed s)
  simp only [decryptSetup_tab, decryptSetup_params, decryptSetup_mem] at a1 a2 a3 a4
  rcases a1 with a1 | a1
  · obtain ⟨m, k, h1, h2, h3, h4⟩ := decryptTail_cases (n % 4) (base + 4 * (n / 4))
      (((decryptSetup seed s).setMem m1).setTab (keyTab s.params.lits k1 (decryptTable seed s)))
    have hk : ∀ k t, keyTab s.params.lits k (keyTab s.params.lits k1 t) = keyTab s.params.lits (k1 + k) t := by
      intro k t
      induction k with
      | zero => rfl
      | succ k ih => rw [keyTab_succ, ih, ← Nat.add_assoc, keyTab_succ]
    simp only [setTab_params, setMem_params, decryptSetup_params, setTab_tab, hk, setTab_mem, setMem_mem] at h1 h2 h3 h4
    refine ⟨m, k1 + k, ?_⟩
    rcases h1 with h1 | h1
    · refine ⟨.ok, by simp only [decryptBody, a1, h1, finish_eq, collapse_updates], .inl rfl, fun y hy => ?_, fun h => h3 (a3 h), fun b hb hx => ?_⟩
      · rw [h2 y (by omega)]; exact a2 y (by omega)
      · exact h4 b (a4 b hb (by omega)) (by omega)
    · refine ⟨.bus, by simp only [decryptBody, a1, h1, raiseError_eq, collapse_updates], .inr rfl, fun y hy => ?_, fun h => h3 (a3 h), fun b hb hx => ?_⟩
      · rw [h2 y (by omega)]; exact a2 y (by omega)
      · exact h4 b (a4 b hb (by omega)) (by omega)
  · exact ⟨m1, k1, .bus, by simp only [decryptBody, a1, raiseError_eq], .inr rfl, fun y hy => a2 y (by omega), a3,
      fun b hb hx => a4 b hb (by omega)⟩

end Sys2Proof.Machine
end

