-- ==== Sys2Proof/Laws/Lz77.lean ====
section
/-! SUPPORT. The laws of the decompressor: what the cursor, an emitted byte, a copy, a pass and the loop can do, in full. -/

namespace Sys2Proof.Machine

/-! ## The cursor (R143, R144) -/

/-- The cursor is inside its source and its mask is one of the eight (R47). -/
structure CursorIn (s : State) : Prop where
  mask : maskOk s = true
  pos : s.pos.toNat ≤ s.srcLen.toNat

/-- The bits that the cursor has still to read. -/
def bitsLeft (s : State) : Nat := 8 * (s.srcLen.toNat - s.pos.toNat) + maskLeft s.mask

theorem maskOk_cases {s : State} (h : maskOk s = true) :
    s.mask = 0x80 ∨ s.mask = 0x40 ∨ s.mask = 0x20 ∨ s.mask = 0x10 ∨ s.mask = 0x08 ∨ s.mask = 0x04 ∨ s.mask = 0x02 ∨
      s.mask = 0x01 := by
  simpa [maskOk] using h

theorem maskOk_of_cases {s : State}
    (h : s.mask = 0x80 ∨ s.mask = 0x40 ∨ s.mask = 0x20 ∨ s.mask = 0x10 ∨ s.mask = 0x08 ∨ s.mask = 0x04 ∨ s.mask = 0x02 ∨
      s.mask = 0x01) : maskOk s = true := by
  simpa [maskOk] using h

/-- Everything a cursor load can do: it stops with the state as it was, or goes on with at most the cursor changed. -/
theorem cursorLoad_cases (s : State) :
    (s.mask = 0x80 ∧ s.srcLen.toNat ≤ s.pos.toNat ∧ cursorLoad s = .stop .truncated s) ∨
    (s.mask = 0x80 ∧ s.pos.toNat < s.srcLen.toNat ∧ memFault s (s.srcAddr.toNat + s.pos.toNat) = true ∧
      cursorLoad s = .stop .bus s) ∨
    (s.mask = 0x80 ∧ s.pos.toNat < s.srcLen.toNat ∧
      cursorLoad s = .ok () (s.setCursor (s.pos + 1) s.mask (byteAt s (s.srcAddr.toNat + s.pos.toNat)))) ∨
    (s.mask ≠ 0x80 ∧ cursorLoad s = .ok () s) := by
  by_cases hm : s.mask = 0x80
  · by_cases hp : s.srcLen.toNat ≤ s.pos.toNat
    · exact .inl ⟨hm, hp, by simp only [cursorLoad, if_pos hm, if_pos hp]⟩
    · rcases readByte_cases s (s.srcAddr.toNat + s.pos.toNat) with ⟨hf, hr⟩ | ⟨-, hr⟩
      · exact .inr (.inl ⟨hm, by omega, hf, by simp only [cursorLoad, if_pos hm, if_neg hp, hr]⟩)
      · exact .inr (.inr (.inl ⟨hm, by omega, by simp only [cursorLoad, if_pos hm, if_neg hp, hr]⟩))
  · exact .inr (.inr (.inr ⟨hm, by simp only [cursorLoad, if_neg hm]⟩))

theorem nextMask_of_cases {m : Byte}
    (h : m = 0x80 ∨ m = 0x40 ∨ m = 0x20 ∨ m = 0x10 ∨ m = 0x08 ∨ m = 0x04 ∨ m = 0x02 ∨ m = 0x01) :
    (nextMask m = 0x80 ∨ nextMask m = 0x40 ∨ nextMask m = 0x20 ∨ nextMask m = 0x10 ∨ nextMask m = 0x08 ∨
      nextMask m = 0x04 ∨ nextMask m = 0x02 ∨ nextMask m = 0x01) ∧
    maskLeft (nextMask m) + 1 = if m = 0x80 then 8 else maskLeft m := by
  rcases h with rfl | rfl | rfl | rfl | rfl | rfl | rfl | rfl <;> decide

theorem setCursor_self (s : State) : s.setCursor s.pos s.mask s.rack = s := rfl

theorem setCursor_setCursor (s : State) (p p' : Word) (m m' r r' : Byte) :
    (s.setCursor p m r).setCursor p' m' r' = s.setCursor p' m' r' := rfl

theorem succ_toNat_of_lt {p q : Word} (h : p.toNat < q.toNat) : (p + 1).toNat = p.toNat + 1 := by
  have := q.isLt
  rw [BitVec.toNat_add, Nat.mod_eq_of_lt] <;> (simp; try omega)

/-- Everything a bit read can do (R143): a bit, with the cursor moved on by one; or a stop, with the state as it was. -/
theorem readBit_cases {s : State} (h : CursorIn s) :
    (∃ b p m r, readBit s = .ok b (s.setCursor p m r) ∧ CursorIn (s.setCursor p m r) ∧
      bitsLeft (s.setCursor p m r) + 1 = bitsLeft s) ∨
    (readBit s = .stop .truncated s ∧ s.pos = s.srcLen) ∨ readBit s = .stop .bus s := by
  have hm := maskOk_cases h.mask
  have hn := nextMask_of_cases hm
  have hp := h.pos
  rcases cursorLoad_cases s with ⟨-, h2, h3⟩ | ⟨-, -, -, h3⟩ | ⟨h1, h2, h3⟩ | ⟨h1, h3⟩
  · exact .inr (.inl ⟨by simp only [readBit, h3], BitVec.eq_of_toNat_eq (by omega)⟩)
  · exact .inr (.inr (by simp only [readBit, h3]))
  · refine .inl ⟨decide (byteAt s (s.srcAddr.toNat + s.pos.toNat) &&& s.mask ≠ 0), s.pos + 1, nextMask s.mask,
      byteAt s (s.srcAddr.toNat + s.pos.toNat), by simp only [readBit, h3]; rfl, ⟨maskOk_of_cases hn.1, ?_⟩, ?_⟩
    · simp only [setCursor_pos, setCursor_srcLen, succ_toNat_of_lt h2]; omega
    · have := hn.2
      rw [if_pos h1] at this
      simp only [bitsLeft, setCursor_pos, setCursor_srcLen, setCursor_mask, succ_toNat_of_lt h2, h1]
      rw [h1] at this
      have h0 : maskLeft 0x80 = 0 := rfl
      omega
  · refine .inl ⟨decide (s.rack &&& s.mask ≠ 0), s.pos, nextMask s.mask, s.rack, by simp only [readBit, h3],
      ⟨maskOk_of_cases hn.1, hp⟩, ?_⟩
    have := hn.2
    rw [if_neg h1] at this
    simp only [bitsLeft, setCursor_pos, setCursor_srcLen, setCursor_mask]
    omega

/-- Everything a field read can do (R144): a field below `2^n`, with the cursor moved on by `n` bits; or a stop, with only the
cursor moved. -/
theorem readBits_cases (n : Nat) : ∀ (v : Nat) {s : State}, CursorIn s → ∃ p m r, CursorIn (s.setCursor p m r) ∧
    ((∃ w, readBits n v s = .ok w (s.setCursor p m r) ∧ bitsLeft (s.setCursor p m r) + n = bitsLeft s ∧
        w < (v + 1) * 2 ^ n) ∨
      (readBits n v s = .stop .truncated (s.setCursor p m r) ∧ p = s.srcLen) ∨
      readBits n v s = .stop .bus (s.setCursor p m r)) := by
  induction n with
  | zero => exact fun v s h => ⟨s.pos, s.mask, s.rack, h, .inl ⟨v, rfl, rfl, by omega⟩⟩
  | succ n ih =>
    intro v s h
    rcases readBit_cases h with ⟨b, p, m, r, h1, h2, h3⟩ | ⟨h1, h2⟩ | h1
    · obtain ⟨p', m', r', a1, a2⟩ := ih (2 * v + b.toNat) h2
      simp only [setCursor_setCursor, setCursor_srcLen] at a1 a2
      refine ⟨p', m', r', a1, ?_⟩
      simp only [readBits, h1]
      rcases a2 with ⟨w, a2, a3, a4⟩ | a2 | a2
      · refine .inl ⟨w, a2, by omega, a4.trans_le ?_⟩
        rw [Nat.pow_succ', ← Nat.mul_assoc]
        refine Nat.mul_le_mul_right _ ?_
        cases b <;> simp <;> omega
      · exact .inr (.inl a2)
      · exact .inr (.inr a2)
    · exact ⟨s.pos, s.mask, s.rack, h, .inr (.inl ⟨by simp only [readBits, h1]; rfl, h2⟩)⟩
    · exact ⟨s.pos, s.mask, s.rack, h, .inr (.inr (by simp only [readBits, h1]; rfl))⟩

/-- The bits of R155, with R7's field widths. -/
theorem symbolBits_source : symbolBits Literals.source = 9 := rfl

theorem symbolBits_pos (l : Literals) : 0 < symbolBits l := by rw [symbolBits]; omega

theorem symbolBits_literal (l : Literals) : symbolBits l ≤ 1 + l.literalBits := by rw [symbolBits]; omega

theorem symbolBits_offset (l : Literals) : symbolBits l ≤ 1 + l.offsetBits := by rw [symbolBits]; omega

/-- Everything a symbol read can do: a symbol, with the cursor moved on by at least the bits of R155 (nine); or a stop, with only the
cursor moved. -/
theorem readSymbol_cases {s : State} (h : CursorIn s) : ∃ p m r, CursorIn (s.setCursor p m r) ∧
    ((∃ sym, readSymbol s = .ok sym (s.setCursor p m r) ∧ bitsLeft (s.setCursor p m r) + symbolBits s.params.lits ≤ bitsLeft s) ∨
      (readSymbol s = .stop .truncated (s.setCursor p m r) ∧ p = s.srcLen) ∨
      readSymbol s = .stop .bus (s.setCursor p m r)) := by
  obtain ⟨p, m, r, h1, h2⟩ := readBits_cases 1 0 h
  have hs := symbolBits_literal s.params.lits
  have hs' := symbolBits_offset s.params.lits
  rcases h2 with ⟨d, h2, h3, -⟩ | h2 | h2
  · by_cases hd : d = 1
    · obtain ⟨p', m', r', a1, a2⟩ := readBits_cases s.params.lits.literalBits 0 h1
      simp only [setCursor_setCursor, setCursor_srcLen] at a1 a2
      refine ⟨p', m', r', a1, ?_⟩
      rcases a2 with ⟨w, a2, a3, -⟩ | a2 | a2
      · exact .inl ⟨.literal w, by simp only [readSymbol, h2, if_pos hd, a2], by omega⟩
      · exact .inr (.inl ⟨by simp only [readSymbol, h2, if_pos hd, a2.1], a2.2⟩)
      · exact .inr (.inr (by simp only [readSymbol, h2, if_pos hd, a2]))
    · obtain ⟨p', m', r', a1, a2⟩ := readBits_cases s.params.lits.offsetBits 0 h1
      simp only [setCursor_setCursor, setCursor_srcLen] at a1 a2
      rcases a2 with ⟨w, a2, a3, -⟩ | a2 | a2
      · by_cases hw : w = 0
        · exact ⟨p', m', r', a1, .inl ⟨.endOfStream, by simp only [readSymbol, h2, if_neg hd, a2, if_pos hw], by omega⟩⟩
        · obtain ⟨p'', m'', r'', b1, b2⟩ := readBits_cases s.params.lits.lengthBits 0 a1
          simp only [setCursor_setCursor, setCursor_srcLen] at b1 b2
          refine ⟨p'', m'', r'', b1, ?_⟩
          rcases b2 with ⟨l, b2, b3, -⟩ | b2 | b2
          · exact .inl ⟨.copy w l,
              by simp only [readSymbol, h2, if_neg hd, a2, if_neg hw, b2], by omega⟩
          · exact .inr (.inl ⟨by simp only [readSymbol, h2, if_neg hd, a2, if_neg hw, b2.1], b2.2⟩)
          · exact .inr (.inr (by simp only [readSymbol, h2, if_neg hd, a2, if_neg hw, b2]))
      · exact ⟨p', m', r', a1, .inr (.inl ⟨by simp only [readSymbol, h2, if_neg hd, a2.1], a2.2⟩)⟩
      · exact ⟨p', m', r', a1, .inr (.inr (by simp only [readSymbol, h2, if_neg hd, a2]))⟩
  · exact ⟨p, m, r, h1, .inr (.inl ⟨by simp only [readSymbol, h2.1], h2.2⟩)⟩
  · exact ⟨p, m, r, h1, .inr (.inr (by simp only [readSymbol, h2]))⟩

/-! ## What the decompressor may change -/

/-- `t` is `s` but for the decompressor's registers and the bytes from `OUT_COUNT` of `s` to that of `t` of the output. -/
structure LzFrame (s t : State) : Prop where
  shape : t = { s with
    mem := t.mem, dict := t.dict, wIndex := t.wIndex, pos := t.pos, mask := t.mask, rack := t.rack,
    outCount := t.outCount, eos := t.eos }
  count : s.outCount.toNat ≤ t.outCount.toNat
  mem : ∀ y, ¬(s.dstAddr.toNat + s.outCount.toNat ≤ y ∧ y < s.dstAddr.toNat + t.outCount.toNat) →
    Memory.read t.mem y = Memory.read s.mem y
  wf : Memory.wf s.mem = true → Memory.wf t.mem = true
  below : ∀ b, Memory.below b s.mem = true → (t.outCount.toNat = s.outCount.toNat ∨ s.dstAddr.toNat + t.outCount.toNat ≤ b) →
    Memory.below b t.mem = true
  size : s.dict.length = s.params.lits.dictSize → s.wIndex < s.params.lits.dictSize →
    t.dict.length = s.params.lits.dictSize ∧ t.wIndex < s.params.lits.dictSize

theorem LzFrame.srcLen {s t : State} (h : LzFrame s t) : t.srcLen = s.srcLen := by rw [h.shape]

theorem LzFrame.srcAddr {s t : State} (h : LzFrame s t) : t.srcAddr = s.srcAddr := by rw [h.shape]

theorem LzFrame.dstLen {s t : State} (h : LzFrame s t) : t.dstLen = s.dstLen := by rw [h.shape]

theorem LzFrame.dstAddr {s t : State} (h : LzFrame s t) : t.dstAddr = s.dstAddr := by rw [h.shape]

theorem LzFrame.params {s t : State} (h : LzFrame s t) : t.params = s.params := by rw [h.shape]

theorem LzFrame.refl (s : State) : LzFrame s s := ⟨rfl, Nat.le_refl _, fun _ _ => rfl, id, fun _ h _ => h, fun h1 h2 => ⟨h1, h2⟩⟩

theorem LzFrame.trans {s t u : State} (h : LzFrame s t) (k : LzFrame t u) : LzFrame s u := by
  have hd := h.dstAddr
  have hc := h.count
  have kc := k.count
  refine ⟨?_, by omega, fun y hy => ?_, fun w => k.wf (h.wf w), fun b hb hx => ?_, fun h1 h2 => ?_⟩
  · have ks := k.shape
    rw [h.shape] at ks
    exact ks
  · rw [k.mem y (by rw [hd]; omega)]
    exact h.mem y (by omega)
  · exact k.below b (h.below b hb (by omega)) (by rw [hd]; omega)
  · have ks := k.size
    rw [h.params] at ks
    exact ks (h.size h1 h2).1 (h.size h1 h2).2

theorem LzFrame.setCursor (s : State) (p : Word) (m r : Byte) : LzFrame s (s.setCursor p m r) :=
  ⟨rfl, Nat.le_refl _, fun _ _ => rfl, id, fun _ h _ => h, fun h1 h2 => ⟨h1, h2⟩⟩

/-- The state after a byte is emitted (R145). -/
def emitted (c : Byte) (s : State) : State := { s with
  mem := Memory.write s.mem (s.dstAddr.toNat + s.outCount.toNat) c
  dict := dictSet s.dict s.wIndex c
  wIndex := (s.wIndex + 1) % s.params.lits.dictSize
  outCount := s.outCount + 1 }

/-- Everything `Emit` can do (R145, R149, R230). -/
theorem emit_cases (c : Byte) (s : State) :
    (memFault s (s.dstAddr.toNat + s.outCount.toNat) = true ∧ emit c s = .stop .bus s) ∨
    (memFault s (s.dstAddr.toNat + s.outCount.toNat) = false ∧ s.outCount + 1 = s.dstLen ∧
      emit c s = .stop .ok (emitted c s)) ∨
    (memFault s (s.dstAddr.toNat + s.outCount.toNat) = false ∧ s.outCount + 1 ≠ s.dstLen ∧
      emit c s = .ok () (emitted c s)) := by
  rcases writeByte_cases s (s.dstAddr.toNat + s.outCount.toNat) c with ⟨hf, hw⟩ | ⟨hf, hw⟩
  · exact .inl ⟨hf, by simp only [emit, hw]⟩
  · by_cases h : s.outCount + 1 = s.dstLen
    · refine .inr (.inl ⟨hf, h, ?_⟩)
      simp only [emit, hw]
      exact if_pos h
    · refine .inr (.inr ⟨hf, h, ?_⟩)
      simp only [emit, hw]
      exact if_neg h

theorem emitted_frame (c : Byte) {s : State} (h : s.outCount.toNat < s.dstLen.toNat) :
    LzFrame s (emitted c s) ∧ (emitted c s).outCount.toNat = s.outCount.toNat + 1 := by
  have hc : (s.outCount + 1).toNat = s.outCount.toNat + 1 := succ_toNat_of_lt h
  refine ⟨⟨rfl, ?_, fun y hy => ?_, fun w => Memory.write_wf w _ _, fun b hb hx => ?_, fun h1 h2 => ?_⟩, hc⟩
  · simp only [emitted, hc]; omega
  · simp only [emitted, hc] at hy ⊢
    exact Memory.read_write_other _ _ (by omega)
  · simp only [emitted, hc] at hx ⊢
    exact Memory.write_below hb (by omega) _
  · exact ⟨by rw [← h1]; exact length_dictSet (by omega) c, Nat.mod_lt _ (by omega)⟩

/-- How a part of `LZDEC` stops: output full or end marker with `OK`, the input used up with `TRUNCATED`, or `BUS`. -/
def LzStopped (s : State) (c : ErrCode) (t : State) : Prop :=
  (c = .ok ∧ t.eos = s.eos ∧ t.outCount = s.dstLen) ∨ (c = .ok ∧ t.eos = true) ∨
  (c = .truncated ∧ t.eos = s.eos ∧ t.pos = s.srcLen) ∨ (c = .bus ∧ t.eos = s.eos)

/-- Everything a copy can do (R147). -/
theorem copyMatch_cases (n : Nat) : ∀ (off : Nat) {s : State}, s.outCount.toNat < s.dstLen.toNat → ∃ t,
    LzFrame s t ∧ t.pos = s.pos ∧ t.mask = s.mask ∧ t.rack = s.rack ∧ t.eos = s.eos ∧
    ((copyMatch n off s = .ok () t ∧ t.outCount.toNat < t.dstLen.toNat) ∨
      (copyMatch n off s = .stop .ok t ∧ t.outCount = s.dstLen) ∨
      (copyMatch n off s = .stop .bus t ∧ t.outCount.toNat < s.dstLen.toNat)) := by
  induction n with
  | zero => exact fun off s h => ⟨s, LzFrame.refl s, rfl, rfl, rfl, rfl, .inl ⟨rfl, h⟩⟩
  | succ n ih =>
    intro off s h
    obtain ⟨hf, hc⟩ := emitted_frame (dictGet s.dict (off % s.params.lits.dictSize)) h
    rcases emit_cases (dictGet s.dict (off % s.params.lits.dictSize)) s with ⟨-, he⟩ | ⟨-, hd, he⟩ | ⟨-, hd, he⟩
    · exact ⟨s, LzFrame.refl s, rfl, rfl, rfl, rfl, .inr (.inr ⟨by simp only [copyMatch, he], h⟩)⟩
    · exact ⟨_, hf, rfl, rfl, rfl, rfl, .inr (.inl ⟨by simp only [copyMatch, he], hd⟩)⟩
    · have hne : (emitted (dictGet s.dict (off % s.params.lits.dictSize)) s).outCount.toNat ≠ s.dstLen.toNat :=
        fun hh => hd (BitVec.eq_of_toNat_eq hh)
      have hlt : (emitted (dictGet s.dict (off % s.params.lits.dictSize)) s).outCount.toNat < (emitted (dictGet s.dict (off % s.params.lits.dictSize)) s).dstLen.toNat := by
        simp only [hf.dstLen]; omega
      obtain ⟨t, a1, a2, a3, a4, a5, a6⟩ := ih (off + 1) hlt
      refine ⟨t, hf.trans a1, a2, a3, a4, a5, ?_⟩
      simp only [copyMatch, he]
      exact a6

/-- Everything a symbol can do (R146, R147, R148). -/
theorem applySymbol_cases (sym : Symbol) {s : State} (h : s.outCount.toNat < s.dstLen.toNat) : ∃ t,
    LzFrame s t ∧ t.pos = s.pos ∧ t.mask = s.mask ∧ t.rack = s.rack ∧ t.outCount.toNat ≤ s.dstLen.toNat ∧
    ((applySymbol sym s = .ok () t ∧ t.outCount.toNat < t.dstLen.toNat ∧ t.eos = s.eos) ∨
      ∃ c, applySymbol sym s = .stop c t ∧ c ≠ .truncated ∧ LzStopped s c t) := by
  cases sym with
  | literal c =>
    obtain ⟨hf, hc⟩ := emitted_frame (BitVec.ofNat 8 c) h
    rcases emit_cases (BitVec.ofNat 8 c) s with ⟨-, he⟩ | ⟨-, hd, he⟩ | ⟨-, hd, he⟩
    · exact ⟨s, LzFrame.refl s, rfl, rfl, rfl, by omega,
        .inr ⟨.bus, he, by decide, .inr (.inr (.inr ⟨rfl, rfl⟩))⟩⟩
    · exact ⟨_, hf, rfl, rfl, rfl, by omega, .inr ⟨.ok, he, by decide, .inl ⟨rfl, rfl, hd⟩⟩⟩
    · have hne : (emitted (BitVec.ofNat 8 c) s).outCount.toNat ≠ s.dstLen.toNat := fun hh => hd (BitVec.eq_of_toNat_eq hh)
      exact ⟨_, hf, rfl, rfl, rfl, by omega, .inl ⟨he, by rw [hf.dstLen]; omega, rfl⟩⟩
  | copy off len =>
    obtain ⟨t, a1, a2, a3, a4, a5, a6⟩ := copyMatch_cases (len + s.params.lits.minMatch) off h
    rcases a6 with ⟨a6, a7⟩ | ⟨a6, a7⟩ | ⟨a6, a7⟩
    · exact ⟨t, a1, a2, a3, a4, by have := a1.dstLen; rw [this] at a7; omega, .inl ⟨a6, a7, a5⟩⟩
    · exact ⟨t, a1, a2, a3, a4, by rw [a7], .inr ⟨.ok, a6, by decide, .inl ⟨rfl, a5, a7⟩⟩⟩
    · exact ⟨t, a1, a2, a3, a4, by omega, .inr ⟨.bus, a6, by decide, .inr (.inr (.inr ⟨rfl, a5⟩))⟩⟩
  | endOfStream =>
    exact ⟨{ s with eos := true }, ⟨rfl, Nat.le_refl _, fun _ _ => rfl, id, fun _ h _ => h, fun h1 h2 => ⟨h1, h2⟩⟩, rfl, rfl, rfl, by
      show s.outCount.toNat ≤ s.dstLen.toNat
      omega, .inr ⟨.ok, rfl, by decide, .inr (.inl ⟨rfl, rfl⟩)⟩⟩

/-- Everything a pass can do (R140). -/
theorem lzPass_cases {s : State} (hc : CursorIn s) (h : s.outCount.toNat < s.dstLen.toNat) : ∃ t,
    LzFrame s t ∧ CursorIn t ∧ t.outCount.toNat ≤ s.dstLen.toNat ∧
    ((lzPass s = .ok () t ∧ t.outCount.toNat < t.dstLen.toNat ∧ t.eos = s.eos ∧
        bitsLeft t + symbolBits s.params.lits ≤ bitsLeft s) ∨
      ∃ c, lzPass s = .stop c t ∧ LzStopped s c t) := by
  obtain ⟨p, m, r, h1, h2⟩ := readSymbol_cases hc
  have hf := LzFrame.setCursor s p m r
  rcases h2 with ⟨sym, h2, h3⟩ | ⟨h2, h3⟩ | h2
  · obtain ⟨t, a1, a2, a3, a4, a5, a6⟩ := applySymbol_cases sym (s := s.setCursor p m r) h
    have hct : CursorIn t := by
      refine ⟨maskOk_of_cases ?_, ?_⟩
      · rw [a3]; exact maskOk_cases h1.mask
      · rw [a2, a1.srcLen]; exact h1.pos
    have hb : bitsLeft t = bitsLeft (s.setCursor p m r) := by simp only [bitsLeft, a2, a3, a1.srcLen]
    refine ⟨t, hf.trans a1, hct, a5, ?_⟩
    rcases a6 with ⟨a6, a7, a8⟩ | ⟨c, a6, -, a8⟩
    · exact .inl ⟨by simp only [lzPass, h2]; exact a6, a7, a8, by omega⟩
    · exact .inr ⟨c, by simp only [lzPass, h2]; exact a6, a8⟩
  · exact ⟨_, hf, h1, Nat.le_of_lt h, .inr ⟨.truncated, by simp only [lzPass, h2], .inr (.inr (.inl ⟨rfl, rfl, h3⟩))⟩⟩
  · exact ⟨_, hf, h1, Nat.le_of_lt h, .inr ⟨.bus, by simp only [lzPass, h2], .inr (.inr (.inr ⟨rfl, rfl⟩))⟩⟩

/-- With passes enough for its bits the loop stops (R155), having changed only what the decompressor may. -/
theorem lzLoop_cases (n : Nat) : ∀ {s : State}, CursorIn s → s.outCount.toNat < s.dstLen.toNat →
    bitsLeft s < symbolBits s.params.lits * n →
    ∃ c t, lzLoop n s = .stop c t ∧ LzFrame s t ∧ CursorIn t ∧ t.outCount.toNat ≤ s.dstLen.toNat ∧ LzStopped s c t := by
  induction n with
  | zero => intro s _ _ h; omega
  | succ n ih =>
    intro s hc h hb
    obtain ⟨t, a1, a2, a3, a4⟩ := lzPass_cases hc h
    rw [Nat.mul_succ] at hb
    rcases a4 with ⟨a4, a5, a6, a7⟩ | ⟨c, a4, a5⟩
    · obtain ⟨c, u, b1, b2, b3, b4, b5⟩ := ih a2 a5 (by rw [a1.params]; omega)
      refine ⟨c, u, by simp only [lzLoop, a4]; exact b1, a1.trans b2, b3, by rw [a1.dstLen] at b4; exact b4, ?_⟩
      rw [LzStopped, a6, a1.dstLen, a1.srcLen] at b5
      exact b5
    · exact ⟨c, t, by simp only [lzLoop, a4], a1, a2, a3, a5⟩

theorem lzStart_cursorIn (s : State) : CursorIn (lzStart s) := by
  refine ⟨rfl, ?_⟩
  show (0#32).toNat ≤ _
  simp

/-- The bound of R155 is enough for the bits of the source. -/
theorem bitsLeft_lzStart (s : State) : bitsLeft (lzStart s) < symbolBits s.params.lits * lzPassBound s := by
  have : bitsLeft (lzStart s) = 8 * s.srcLen.toNat := by
    show 8 * (s.srcLen.toNat - (0#32).toNat) + maskLeft 0x80 = _
    rw [show maskLeft 0x80 = 0 from rfl]
    simp
  rw [this, lzPassBound]
  exact Nat.lt_mul_div_succ _ (symbolBits_pos _)

end Sys2Proof.Machine
end

