-- ==== Sys2Proof/Laws/Commands.lean ====
section
/-! SUPPORT. One law per command: everything that it can do, in full. -/

namespace Sys2Proof.Machine

/-! ## Pre-checks (R231) in numbers -/

theorem inRange_src (s : State) : (srcRegion s).inRange (memSize s) = true ↔ SrcInRange s := Range.inRange_iff

theorem inRange_dst (s : State) : (dstRegion s).inRange (memSize s) = true ↔ DstInRange s := Range.inRange_iff

/-- Overlap as R154 defines it. -/
theorem overlaps_regions (s : State) : (srcRegion s).overlaps (dstRegion s) = true ↔
    0 < s.srcLen.toNat ∧ 0 < s.dstLen.toNat ∧ s.srcAddr.toNat < s.dstAddr.toNat + s.dstLen.toNat ∧
      s.dstAddr.toNat < s.srcAddr.toNat + s.srcLen.toNat := by
  simp only [Range.overlaps, Bool.and_eq_true, decide_eq_true_eq, and_assoc]
  rfl

theorem precheck_decrypt_none (s : State) : precheck .decrypt s = none ↔ SrcInRange s := by
  rw [← inRange_src]; simp [precheck]

theorem precheck_csum_none (s : State) : precheck .csum s = none ↔ SrcInRange s := by
  rw [← inRange_src]; simp [precheck]

theorem precheck_decryptS_none (s : State) :
    precheck .decryptS s = none ↔ SrcInRange s ∧ 4 ≤ s.srcLen.toNat := by
  rw [← inRange_src]
  cases h : (srcRegion s).inRange (memSize s) <;> simp [precheck, h]

theorem precheck_lzdec_none (s : State) :
    precheck .lzdec s = none ↔ SrcInRange s ∧ DstInRange s ∧
      (srcRegion s).overlaps (dstRegion s) = false := by
  rw [← inRange_src, ← inRange_dst]
  cases h : (srcRegion s).inRange (memSize s) <;> cases h' : (dstRegion s).inRange (memSize s) <;> simp [precheck, h, h']

/-- A command whose pre-check fails completes with its code and does nothing else (R229). -/
theorem exec_of_precheck {i : Instr} {s : State} {c : ErrCode} (h : precheck i s = some c) :
    exec i s = .next (complete c s) := by
  cases i with
  | cinit => cases h
  | cnext => simp only [exec, execCnext, h]; rfl
  | decrypt => simp only [exec, execDecrypt, h]; rfl
  | decryptS => simp only [exec, execDecryptS, h]; rfl
  | csum => simp only [exec, execCsum, h]; rfl
  | lzdec => simp only [exec, execLzdec, h]; rfl

/-! ## The commands -/

/-- `CipherInit` as one record. -/
theorem cipherInit_shape (seed : Word) (s : State) : ∃ a u,
    a = lcgRun s.params s.params.lits.lagWords (accStart s.params.lits seed) ∧ u = seedTable s.params seed s.tab ∧
    cipherInit seed s = { s with acc := a, tab := u, ksv := true } := ⟨_, _, rfl, rfl, cipherInit_eq seed s⟩

theorem exec_cinit (s : State) : exec .cinit s = .next (complete .ok (cipherInit s.seed s)) := rfl

theorem exec_cnext {s : State} (h : s.ksv = true) :
    exec .cnext s = .next (complete .ok { s with tab := (keyStep s.params.lits s.tab).2, result := (keyStep s.params.lits s.tab).1 }) := by
  have hp : precheck .cnext s = none := by simp [precheck, h]
  simp only [exec, execCnext, hp]
  rfl

/-- Everything `CSUM` can do after its pre-check. -/
theorem exec_csum_cases {s : State} (h : precheck .csum s = none) :
    (∃ acc, csumLoop (s.srcLen.toNat / 4) 0 s.srcAddr.toNat 0 s = some acc ∧
      exec .csum s = .next (complete .ok { s with result := acc })) ∨
    (csumLoop (s.srcLen.toNat / 4) 0 s.srcAddr.toNat 0 s = none ∧ exec .csum s = .next (complete .bus s)) := by
  cases hc : csumLoop (s.srcLen.toNat / 4) 0 s.srcAddr.toNat 0 s with
  | none => exact .inr ⟨rfl, by simp only [exec, execCsum, h, hc]; rfl⟩
  | some acc => exact .inl ⟨acc, rfl, by simp only [exec, execCsum, h, hc]; rfl⟩

theorem exec_decrypt {s : State} (h : precheck .decrypt s = none) :
    exec .decrypt s = .next (decryptBody s.seed s.srcAddr.toNat s.srcLen.toNat s) := by
  simp only [exec, execDecrypt, h]

/-- `DECRYPT` with `S = 1` after its pre-checks. -/
theorem exec_decryptS_cases {s : State} (h : precheck .decryptS s = none) :
    ((∃ y, s.srcAddr.toNat ≤ y ∧ y < s.srcAddr.toNat + 4 ∧ memFault s y = true) ∧
      exec .decryptS s = .next (complete .bus s)) ∨
    (NoFault s s.srcAddr.toNat 4 ∧ exec .decryptS s =
      .next (decryptBody (wordAt s s.srcAddr.toNat) (s.srcAddr.toNat + 4) (s.srcLen.toNat - 4) s)) := by
  rcases readWord_cases s s.srcAddr.toNat with ⟨hf, hr⟩ | ⟨hn, hr⟩
  · exact .inl ⟨hf, by simp only [exec, execDecryptS, h, hr]; rfl⟩
  · exact .inr ⟨hn, by simp only [exec, execDecryptS, h, hr]⟩

/-- Everything the body of `DECRYPT` can do, as one record. -/
theorem decryptBody_shape (seed : Word) (base n : Nat) (s : State) : ∃ m k c a u,
    a = lcgRun s.params s.params.lits.lagWords (accStart s.params.lits seed) ∧ u = keyTab s.params.lits k (decryptTable seed s) ∧
    decryptBody seed base n s = { s with
      mem := m, tab := u, acc := a
      ksv := true, err := c, done := true, phase := .idle } ∧
    (c = .ok ∨ c = .bus) ∧
    (∀ y, ¬(base ≤ y ∧ y < base + n) → Memory.read m y = Memory.read s.mem y) ∧
    (Memory.wf s.mem = true → Memory.wf m = true) ∧
    (∀ b, Memory.below b s.mem = true → (n = 0 ∨ base + n ≤ b) → Memory.below b m = true) := by
  obtain ⟨m, k, c, h1, h2⟩ := decryptBody_cases seed base n s
  obtain ⟨a, ha⟩ : ∃ a, a = lcgRun s.params s.params.lits.lagWords (accStart s.params.lits seed) := ⟨_, rfl⟩
  obtain ⟨u, hu⟩ : ∃ u, u = keyTab s.params.lits k (decryptTable seed s) := ⟨_, rfl⟩
  rw [decryptSetup_eq, ← ha, ← hu] at h1
  exact ⟨m, k, c, a, u, ha, hu, h1, h2⟩

/-- `LZDEC` after its pre-checks: it stops, having changed only what the decompressor may. -/
theorem exec_lzdec_cases {s : State} (h : precheck .lzdec s = none) : ∃ c t,
    exec .lzdec s = .next (lzStop c t) ∧ LzFrame (lzStart s) t ∧ CursorIn t ∧ t.outCount.toNat ≤ s.dstLen.toNat ∧
      ((s.dstLen = 0 ∧ c = .ok ∧ t = lzStart s) ∨
        (s.dstLen ≠ 0 ∧ lzLoop (lzPassBound s) (lzStart s) = .stop c t ∧ LzStopped (lzStart s) c t)) := by
  by_cases hd : s.dstLen = 0
  · refine ⟨.ok, lzStart s, by simp only [exec, execLzdec, h, if_pos hd], LzFrame.refl _, lzStart_cursorIn s, ?_,
      .inl ⟨hd, rfl, rfl⟩⟩
    show (0#32).toNat ≤ _
    simp
  · have hlt : (lzStart s).outCount.toNat < (lzStart s).dstLen.toNat := by
      show (0#32).toNat < s.dstLen.toNat
      have : s.dstLen.toNat ≠ 0 := fun h0 => hd (BitVec.eq_of_toNat_eq (by simpa using h0))
      simp; omega
    obtain ⟨c, t, a1, a2, a3, a4, a5⟩ := lzLoop_cases (lzPassBound s) (lzStart_cursorIn s) hlt (bitsLeft_lzStart s)
    exact ⟨c, t, by simp only [exec, execLzdec, h, if_neg hd, a1], a2, a3, a4, .inr ⟨hd, a1, a5⟩⟩

/-! ## What every command leaves alone -/

/-- The state after a command, but for what some command may write (R35, R221). -/
structure CommandFrame (i : Instr) (s t : State) : Prop where
  shape : t = { s with
    done := true, phase := .idle, err := t.err, ksv := t.ksv, eos := t.eos, result := t.result, outCount := t.outCount
    inPos := t.inPos, tab := t.tab, acc := t.acc, dict := t.dict, wIndex := t.wIndex, pos := t.pos, mask := t.mask
    rack := t.rack, mem := t.mem }
  mem : ∀ x, (∀ l ∈ usedBy i s t, l.writes = true → l.region.has x = false) → byteAt t x = byteAt s x
  used : ∀ l ∈ usedBy i s t, l.region.inRange (memSize s) = true
  wf : Memory.wf s.mem = true → Memory.wf t.mem = true
  below : Memory.below (memSize s) s.mem = true → Memory.below (memSize s) t.mem = true
  cursors : SourceLiterals s → (s.ksv = true → CursorPair s.tab) → t.ksv = true → CursorPair t.tab
  mask : maskOk s = true → maskOk t = true
  eos : s.eos = false → t.eos = true → t.err = .ok
  sizes : SourceLiterals s → sizesOk s = true → sizesOk t = true

/-- A command is handed no byte past the top of memory (R65). -/
theorem loansOf_inRange (i : Instr) (s : State) : ∀ l ∈ loansOf i s, l.region.inRange (memSize s) = true := by
  intro l hl
  rw [Range.inRange_iff]
  unfold loansOf at hl
  cases hp : precheck i s with
  | some c => rw [hp] at hl; simp at hl
  | none =>
    rw [hp] at hl
    cases i with
    | cinit => simp at hl
    | cnext => simp at hl
    | decrypt => simp at hl; subst hl; exact (precheck_decrypt_none s).mp hp
    | decryptS =>
      have := (precheck_decryptS_none s).mp hp
      simp at hl
      rcases hl with rfl | rfl <;> dsimp only <;> omega
    | csum =>
      have := (precheck_csum_none s).mp hp
      simp at hl
      subst hl
      dsimp only
      omega
    | lzdec =>
      have := (precheck_lzdec_none s).mp hp
      dsimp only at hl
      split_ifs at hl
      · simp at hl
      · simp at hl
        rcases hl with rfl | rfl
        · exact this.1
        · exact this.2.1

/-- Of a command other than an `LZDEC` that passes its pre-checks the bytes used are its regions. -/
theorem usedBy_eq_loansOf {i : Instr} {s : State} (h : i ≠ .lzdec ∨ precheck i s ≠ none) (t : State) :
    usedBy i s t = loansOf i s := by
  cases i with
  | lzdec =>
    cases hp : precheck .lzdec s with
    | none => exact absurd hp (h.resolve_left fun h => h rfl)
    | some c => simp only [usedBy, loansOf, hp]
  | cinit => rfl
  | cnext => rfl
  | decrypt => rfl
  | decryptS => rfl
  | csum => rfl

theorem usedBy_inRange_of {i : Instr} {s : State} (h : i ≠ .lzdec ∨ precheck i s ≠ none) (t : State) :
    ∀ l ∈ usedBy i s t, l.region.inRange (memSize s) = true := by
  rw [usedBy_eq_loansOf h]
  exact loansOf_inRange i s

/-- A command that completes at once, past its pre-checks only if it is no `LZDEC`. -/
theorem CommandFrame.of_complete {i : Instr} (c : ErrCode) {s : State} (h : i ≠ .lzdec ∨ precheck i s ≠ none) :
    CommandFrame i s (complete c s) where
  shape := rfl
  mem := fun _ _ => rfl
  used := usedBy_inRange_of h _
  wf := id
  below := id
  cursors := fun _ => id
  mask := id
  eos := fun h1 h2 => absurd (h1.symm.trans h2) Bool.false_ne_true
  sizes := fun _ h => h

theorem has_false {b n x : Nat} (h : (⟨b, n⟩ : Range).has x = false) : ¬(b ≤ x ∧ x < b + n) := by
  simp only [Range.has, Bool.and_eq_false_iff, decide_eq_false_iff_not] at h
  omega

theorem has_true {b n x : Nat} : (⟨b, n⟩ : Range).has x = true ↔ b ≤ x ∧ x < b + n := by
  simp [Range.has]

/-- The frame of a `DECRYPT` body on a region handed over for writing. -/
theorem decryptBody_frame {i : Instr} {s : State} (seed : Word) {base n : Nat}
    (hi : i ≠ .lzdec) (hl : ⟨⟨base, n⟩, true⟩ ∈ loansOf i s)
    (hb : n = 0 ∨ base + n ≤ memSize s) :
    CommandFrame i s (decryptBody seed base n s) := by
  obtain ⟨m, k, c, a, u, ha, hu, h1, -, h3, h4, h5⟩ := decryptBody_shape seed base n s
  rw [h1]
  exact {
    shape := rfl
    mem := fun x hx => h3 x (has_false (hx _ (usedBy_eq_loansOf (.inl hi) _ ▸ hl) rfl))
    used := usedBy_inRange_of (.inl hi) _
    wf := h4
    below := fun h => h5 _ h hb
    cursors := fun hs _ _ => hu ▸ keyTab_cursorPair hs.sizes k (decryptTable_cursorPair hs seed)
    mask := id
    eos := fun e1 e2 => absurd (e1.symm.trans e2) Bool.false_ne_true
    sizes := fun hs h => sizesOk_cipher (u := u) (a := a) h
      (by
        have hw := hs.sizes.1
        have hl := (sizesOk_iff.mp h).1
        rw [hu, hw]
        exact length_keyTab hw k (length_decryptTable hs.sizes _ (hl.trans hw)))
      (ha ▸ lcgRun_lt _ _ _ (accStart_lt _ _)) }

/-- Every command completes, from every state, in its frame. -/
theorem exec_frame (i : Instr) (s : State) : ∃ t, exec i s = .next t ∧ CommandFrame i s t := by
  cases hp : precheck i s with
  | some c => exact ⟨_, exec_of_precheck hp, .of_complete c (.inr (by rw [hp]; exact nofun))⟩
  | none =>
    cases i with
    | cinit =>
      obtain ⟨a, u, ha, hu, h⟩ := cipherInit_shape s.seed s
      refine ⟨_, exec_cinit s, ?_⟩
      rw [h]
      refine ⟨rfl, fun _ _ => rfl, loansOf_inRange .cinit s, id, id, fun hs _ _ => hu ▸ seedTable_cursorPair hs _ _, id,
        fun h1 h2 => absurd (h1.symm.trans h2) Bool.false_ne_true, fun hs h => ?_⟩
      refine sizesOk_cipher (u := u) (a := a) h ?_ (ha ▸ lcgRun_lt _ _ _ (accStart_lt _ _))
      have hw := hs.sizes.1
      rw [hu, hw]
      exact length_seedTable hs.sizes _ ((sizesOk_iff.mp h).1.trans hw)
    | cnext =>
      have hk : s.ksv = true := by
        cases h : s.ksv
        · simp [precheck, h] at hp
        · rfl
      refine ⟨_, exec_cnext hk, rfl, fun _ _ => rfl, loansOf_inRange .cnext s, id, id, fun hs h _ => keyStep_cursorPair hs.sizes (h hk), id,
        fun h1 h2 => absurd (h1.symm.trans h2) Bool.false_ne_true, fun hs h => ?_⟩
      have hw := hs.sizes.1
      have h' := sizesOk_iff.mp h
      exact sizesOk_cipher h ((length_keyStep hw (h'.1.trans hw)).trans hw.symm) h'.2.1
    | decrypt =>
      refine ⟨_, exec_decrypt hp, decryptBody_frame _ nofun ?_ ?_⟩
      · simp [loansOf, hp, srcRegion]
      · exact (precheck_decrypt_none s).mp hp
    | decryptS =>
      have hr := (precheck_decryptS_none s).mp hp
      rcases exec_decryptS_cases hp with ⟨-, h⟩ | ⟨-, h⟩
      · exact ⟨_, h, .of_complete _ (.inl nofun)⟩
      · refine ⟨_, h, decryptBody_frame _ nofun ?_ ?_⟩
        · simp [loansOf, hp]
        · omega
    | csum =>
      rcases exec_csum_cases hp with ⟨acc, -, h⟩ | ⟨-, h⟩
      · refine ⟨_, h, rfl, fun _ _ => rfl, loansOf_inRange .csum s, id, id, fun _ => id, id,
          fun h1 h2 => absurd (h1.symm.trans h2) Bool.false_ne_true, fun _ h => h⟩
      · exact ⟨_, h, .of_complete _ (.inl nofun)⟩
    | lzdec =>
      obtain ⟨c, t, h1, h2, h3, h4, h5⟩ := exec_lzdec_cases hp
      have hs := h2.shape
      have hr := (precheck_lzdec_none s).mp hp
      have hz : (lzStart s).outCount.toNat = 0 := rfl
      have hu : usedBy .lzdec s (lzStop c t) =
          [⟨⟨s.srcAddr.toNat, t.pos.toNat⟩, false⟩, ⟨⟨s.dstAddr.toNat, t.outCount.toNat⟩, true⟩] := by
        simp only [usedBy, hp]
        rfl
      have hpos : t.pos.toNat ≤ s.srcLen.toNat := by have := h3.pos; rwa [h2.srcLen] at this
      refine ⟨_, h1, ?_, fun x hx => ?_, fun l hl => ?_, h2.wf, fun h => h2.below _ h ?_, fun _ h hk => ?_, fun _ => h3.mask,
        fun e1 e2 => ?_, fun _ h => ?_⟩
      · rw [lzStop, hs]; rfl
      · refine h2.mem x ?_
        rw [hz]
        have := has_false (hx ⟨⟨s.dstAddr.toNat, t.outCount.toNat⟩, true⟩ (by rw [hu]; simp) rfl)
        show ¬(s.dstAddr.toNat + 0 ≤ x ∧ x < s.dstAddr.toNat + t.outCount.toNat)
        omega
      · rw [hu] at hl
        simp only [List.mem_cons, List.not_mem_nil, or_false] at hl
        rw [Range.inRange_iff]
        rcases hl with rfl | rfl <;> dsimp only <;> omega
      · show t.outCount.toNat = 0 ∨ s.dstAddr.toNat + t.outCount.toNat ≤ _
        omega
      · have ht : (lzStop c t).tab = s.tab := by rw [lzStop, hs]; rfl
        have hk' : (lzStop c t).ksv = s.ksv := by rw [lzStop, hs]; rfl
        rw [ht]; rw [hk'] at hk; exact h hk
      · show c = _
        rcases h5 with ⟨-, rfl, -⟩ | ⟨-, -, h5⟩
        · rfl
        · have ee : t.eos = true := e2
          rcases h5 with ⟨rfl, -⟩ | ⟨rfl, -⟩ | ⟨-, h5, -⟩ | ⟨-, h5⟩
          · rfl
          · rfl
          · rw [h5] at ee; cases ee
          · rw [h5] at ee; cases ee
      · have h := sizesOk_iff.mp h
        have hd : 0 < s.params.lits.dictSize := by omega
        have hz := h2.size List.length_replicate (Nat.mod_lt _ hd)
        have hq : (lzStop c t).params = s.params := by rw [lzStop, hs]; rfl
        have ht : (lzStop c t).tab = s.tab := by rw [lzStop, hs]; rfl
        have ha : (lzStop c t).acc = s.acc := by rw [lzStop, hs]; rfl
        refine sizesOk_iff.mpr ⟨?_, ?_, ?_⟩
        · rw [hq, ht]; exact h.1
        · rw [hq, ha]; exact h.2.1
        · rw [hq]; exact hz

end Sys2Proof.Machine
end

