-- ==== Sys2Proof/Laws/Step.lean ====
section
/-! SUPPORT. What a step, a running command with or without races, the register window and a reset can do. -/

namespace Sys2Proof.Machine

/-! ## Which agent moves (R262, R269) -/

theorem step_idle {s : State} (h : s.phase = .idle) : step s = hostTurn s := by
  unfold step systemStep
  rw [h]

theorem step_running {s : State} {op : Option Instr} (h : s.phase = .running op) (ht : s.turns = 0 ∨ nextStmt s = none) :
    step s = runCommand op s := by
  unfold step systemStep
  rw [h]
  exact if_pos ht

theorem step_waiting {s : State} {op : Option Instr} {n : Nat} (h : s.phase = .running op) (ht : s.turns = n + 1)
    (hn : nextStmt s ≠ none) : step s = hostTurn { s with turns := n } := by
  unfold step systemStep
  rw [h]
  dsimp only
  rw [if_neg, ht, ← h]
  · rfl
  · rintro (h0 | h0)
    · omega
    · exact hn h0

theorem step_of_stmt {s : State} {st : Stmt} (h : s.phase = .idle) (hn : nextStmt s = some st) : step s = hostStmt st s := by
  rw [step_idle h]
  unfold hostTurn
  rw [hn]

/-- On the host's turn, with that turn used up, its next statement runs. -/
theorem step_of_moves {s u : State} {st : Stmt} (h : HostMoves s u) (hn : nextStmt s = some st) : step s = hostStmt st u := by
  rcases h with ⟨hp, rfl⟩ | ⟨op, n, hp, ht, rfl⟩
  · exact step_of_stmt hp hn
  · rw [step_waiting hp ht (by rw [hn]; simp)]
    unfold hostTurn
    rw [show nextStmt { s with turns := n } = some st from hn]

/-! ## A running command (R269, R73) -/

/-- Where the host has accessed nothing, the transition is `exec` of the command. -/
theorem runCommand_of_untouched {s : State} (i : Instr) (h : s.touched = []) : runCommand (some i) s = exec i s := by
  simp only [runCommand, h]
  rfl

/-- Where the host has accessed no byte that the command used, the transition is the command's (R266). -/
theorem runCommand_of_no_race {s u : State} {i : Instr} (h : exec i s = .next u) (hr : raced i s u = false) :
    runCommand (some i) s = .next (u.setTouched []) := by
  by_cases h0 : s.touched = []
  · obtain ⟨v, h1, f⟩ := exec_frame i s
    have hu : u.touched = [] := by
      rw [h] at h1
      cases h1
      rw [f.shape]
      exact h0
    rw [runCommand_of_untouched i h0, h, State.setTouched, ← hu]
  · simp only [runCommand, List.isEmpty_iff, if_neg h0, h, hr]
    rfl

/-- Where the host has raced with the command, it runs over free bytes, and then the race settles. -/
theorem runCommand_of_race {s u t : State} {i : Instr} (h : exec i s = .next u) (hr : raced i s u = true)
    (ht : exec i (scrambleBytes s.touched s) = .next t) : runCommand (some i) s = .next (settleRace i s t) := by
  have h0 : s.touched ≠ [] := fun h0 => by simp [raced, h0] at hr
  simp only [runCommand, List.isEmpty_iff, if_neg h0, h, hr, runRaced, ht]
  rfl

/-- The bytes a command uses depend on memory and draws only through its end. -/
theorem usedBy_setMem (i : Instr) (s t : State) (m : List Host.Cell) (n : Nat) :
    usedBy i ((s.setMem m).setDraws n) t = usedBy i s t := by cases i <;> rfl

/-- What a race does to results: it changes result registers and the count of draws. -/
theorem freeResults_shape (i : Instr) (s : State) : ∃ r o p n,
    freeResults i s = { s with result := r, outCount := o, inPos := p, draws := n } := by
  cases i with
  | csum =>
    unfold freeResults
    split_ifs
    · exact ⟨_, s.outCount, s.inPos, _, rfl⟩
    · exact ⟨s.result, s.outCount, s.inPos, s.draws, rfl⟩
  | lzdec => exact ⟨s.result, _, _, _, rfl⟩
  | cinit => exact ⟨s.result, s.outCount, s.inPos, s.draws, rfl⟩
  | cnext => exact ⟨s.result, s.outCount, s.inPos, s.draws, rfl⟩
  | decrypt => exact ⟨s.result, s.outCount, s.inPos, s.draws, rfl⟩
  | decryptS => exact ⟨s.result, s.outCount, s.inPos, s.draws, rfl⟩

/-- What the end of a race can do: it changes bytes that the host accessed, the count of draws, result registers and the record
of the bytes used; those that the command did not use are as the host left them. -/
theorem settleRace_shape (i : Instr) (s t : State) : ∃ m n r o p,
    settleRace i s t = { t with
      mem := m, draws := n, result := r, outCount := o, inPos := p, held := usedBy i s t, touched := [] } ∧
    (∀ y, y ∉ s.touched → Memory.read m y = Memory.read t.mem y) ∧
    (Memory.wf t.mem = true → Memory.wf m = true ∧
      ∀ y ∈ s.touched, inLoans (usedBy i s t) y = false → Memory.read m y = Memory.read s.mem y) ∧
    (∀ k, Memory.below k t.mem = true → (∀ x ∈ s.touched, x < k) → Memory.below k m = true) := by
  obtain ⟨m1, a1, a2, a3, a4⟩ := restoreBytes_cases s.mem (s.touched.filter fun x => !inLoans (usedBy i s t) x) t
  obtain ⟨m, n, h1, h2, h3, h4⟩ := scrambleBytes_cases (s.touched.filter (inLoans (usedBy i s t))) (t.setMem m1)
  obtain ⟨r, o, p, n', hf⟩ := freeResults_shape i (((t.setMem m1).setMem m).setDraws n)
  refine ⟨m, n', r, o, p, ?_, fun y hy => ?_, fun hw => ⟨h3 (a3 hw).1, fun y hy hu => ?_⟩, fun k hk hx => ?_⟩
  · unfold settleRace
    dsimp only
    rw [a1, h1, hf]
    rfl
  · rw [h2 y fun h => hy (List.mem_filter.mp h).1]
    exact a2 y fun h => hy (List.mem_filter.mp h).1
  · rw [h2 y fun h => by simp [hu] at h]
    exact (a3 hw).2 y (List.mem_filter.mpr ⟨hy, by rw [hu]; rfl⟩)
  · exact h4 k (a4 k hk fun x h => hx x (List.mem_filter.mp h).1) fun x h => hx x (List.mem_filter.mp h).1

/-- A running command's transition always answers a next state: the command's, or, where the host has raced with it, the command
over free bytes and then the end of the race. -/
theorem runCommand_cases (i : Instr) (s : State) : ∃ u, exec i s = .next u ∧ CommandFrame i s u ∧
    ((raced i s u = false ∧ runCommand (some i) s = .next (u.setTouched [])) ∨
      (raced i s u = true ∧ ∃ t m n, scrambleBytes s.touched s = (s.setMem m).setDraws n ∧
        exec i ((s.setMem m).setDraws n) = .next t ∧ CommandFrame i ((s.setMem m).setDraws n) t ∧
        runCommand (some i) s = .next (settleRace i s t) ∧
        (∀ y, y ∉ s.touched → Memory.read m y = Memory.read s.mem y) ∧
        (Memory.wf s.mem = true → Memory.wf m = true) ∧
        (∀ k, Memory.below k s.mem = true → (∀ x ∈ s.touched, x < k) → Memory.below k m = true))) := by
  obtain ⟨u, h, f⟩ := exec_frame i s
  refine ⟨u, h, f, ?_⟩
  cases hr : raced i s u with
  | false => exact .inl ⟨rfl, runCommand_of_no_race h hr⟩
  | true =>
    obtain ⟨m, n, h1, h2, h3, h4⟩ := scrambleBytes_cases s.touched s
    obtain ⟨t, k1, g⟩ := exec_frame i ((s.setMem m).setDraws n)
    exact .inr ⟨rfl, t, m, n, h1, k1, g, runCommand_of_race h hr (h1 ▸ k1), h2, h3, h4⟩

/-! ## The bytes of a command (R68) -/

/-- What a started command will use is inside the address space (R65). -/
theorem heldBy_inRange (op : Option Instr) (s : State) :
    ∀ l ∈ heldBy op s, l.region.inRange (memSize s) = true := by
  cases op with
  | none => intro l hl; exact absurd hl List.not_mem_nil
  | some i =>
    obtain ⟨t, h, f⟩ := exec_frame i s
    simp only [heldBy, h]
    exact f.used

/-- The bytes of a running command are those recorded at its start, or all that it might reach. -/
theorem exposed_cases (s : State) : exposed s = [] ∨ exposed s = s.held ∨ exposed s = reach s := by
  unfold exposed
  split
  · exact .inl rfl
  · split_ifs
    · exact .inr (.inr rfl)
    · exact .inr (.inl rfl)

theorem reach_inRange (s : State) : ∀ l ∈ reach s, l.region.inRange (memSize s) = true := by
  unfold reach
  split
  · exact fun l hl => absurd hl List.not_mem_nil
  · exact fun l hl => absurd hl List.not_mem_nil
  · exact loansOf_inRange _ s

/-! ## The register window (R20 to R34) -/

/-- What a write can do: nothing, or, of an idle block, store an operand register or start a command. -/
theorem windowWrite_cases (off width : Nat) (v : Word) (s : State) :
    windowWrite off width v s = s ∨
      (busy s = false ∧
        (windowWrite off width v s = startCommand v s ∨
          ∃ a b c d e, windowWrite off width v s = { s with seed := a, srcAddr := b, srcLen := c, dstAddr := d, dstLen := e })) := by
  unfold windowWrite
  cases hb : busy s with
  | true => exact .inl (if_pos rfl)
  | false =>
    rw [if_neg (by simp)]
    split_ifs
    · split
      · exact .inl rfl
      · rename_i r hr
        cases r with
        | cmd => exact .inr ⟨rfl, .inl rfl⟩
        | status => exact .inl rfl
        | seed => exact .inr ⟨rfl, .inr ⟨_, _, _, _, _, rfl⟩⟩
        | srcAddr => exact .inr ⟨rfl, .inr ⟨_, _, _, _, _, rfl⟩⟩
        | srcLen => exact .inr ⟨rfl, .inr ⟨_, _, _, _, _, rfl⟩⟩
        | dstAddr => exact .inr ⟨rfl, .inr ⟨_, _, _, _, _, rfl⟩⟩
        | dstLen => exact .inr ⟨rfl, .inr ⟨_, _, _, _, _, rfl⟩⟩
        | result => exact .inl rfl
        | outCount => exact .inl rfl
        | inPos => exact .inl rfl
    · exact .inl rfl

/-- What a read can do to the state: count draws, or, a `STATUS` read of an idle block, end a hand-over. -/
theorem windowRead_cases (off width : Nat) (s : State) :
    (∃ w n, windowRead off width s = (w, s.setDraws n)) ∨
      (s.phase = .idle ∧ windowRead off width s = (statusWord s, { s with polled := true, held := [], unseen := [] })) := by
  have hres : ∀ v, ∃ w n, readResult v s = (w, s.setDraws n) := fun v => by
    unfold readResult
    split_ifs
    · exact ⟨v, s.draws, rfl⟩
    · exact ⟨_, _, rfl⟩
  unfold windowRead
  split_ifs
  · split
    · exact .inl ⟨0, s.draws, rfl⟩
    · rename_i r hr
      cases r with
      | status =>
        simp only [readReg, readStatus]
        split
        · rename_i hp; exact .inr ⟨hp, rfl⟩
        · split_ifs
          · exact .inl ⟨_, s.draws, rfl⟩
          · exact .inl ⟨_, _, rfl⟩
      | cmd => exact .inl ⟨_, s.draws, rfl⟩
      | seed => exact .inl ⟨_, s.draws, rfl⟩
      | srcAddr => exact .inl ⟨_, s.draws, rfl⟩
      | srcLen => exact .inl ⟨_, s.draws, rfl⟩
      | dstAddr => exact .inl ⟨_, s.draws, rfl⟩
      | dstLen => exact .inl ⟨_, s.draws, rfl⟩
      | result => exact .inl (hres _)
      | outCount => exact .inl (hres _)
      | inPos => exact .inl (hres _)
  · exact .inl ⟨0, s.draws, rfl⟩

/-! ## Reset (R260, R261) -/

/-- A free `MASK` is one of its eight values (R47). -/
theorem freeMask_cases (n : Nat) : ∃ k, k < 8 ∧ freeMask n = 0x80#8 >>> k := ⟨_, Nat.mod_lt _ (by decide), rfl⟩

/-- What a reset can do: the block's reset over the memory as it was, or, of a running command, over a memory that differs only
in the bytes of that command. -/
theorem platformReset_cases (s : State) :
    (s.phase = .idle ∧ platformReset s = resetBlock s) ∨
      ∃ m n, platformReset s = resetBlock ((s.setMem m).setDraws n) ∧
        (∀ x, inLoans (exposed s) x = false → Memory.read m x = Memory.read s.mem x) ∧
        (Memory.wf s.mem = true → Memory.wf m = true) ∧
        ∀ k, Memory.below k s.mem = true → (∀ l ∈ exposed s, l.region.inRange k = true) →
          Memory.below k m = true := by
  cases hp : s.phase with
  | idle => exact .inl ⟨rfl, by simp only [platformReset, hp]⟩
  | running op =>
    obtain ⟨m, n, h1, h2, h3, h4⟩ := scrambleLoans_cases (exposed s) s
    exact .inr ⟨m, n, by simp only [platformReset, hp, h1], fun x h => h2 x (inLoans_eq_false.mp h), h3, h4⟩

end Sys2Proof.Machine
end

