-- ==== Sys2Proof/Laws/Host.lean ====
section
/-! SUPPORT. What the host agent's operations can do: variables, labels and data-memory accesses. -/

namespace Sys2Proof.Machine

/-! ## Variables, labels, expressions -/

/-- Evaluating an expression changes nothing but the count of draws. -/
theorem evalHost_shape (e : Expr) (s : State) : ∃ n, (evalHost e s).2 = s.setDraws n := ⟨_, rfl⟩

/-- Evaluating the value of a register write changes nothing but the count of draws. -/
theorem evalWord_shape (e : Expr) (s : State) : ∃ n, (evalWord e s).2 = s.setDraws n := by
  unfold evalWord asWord
  dsimp only
  split_ifs
  · exact evalHost_shape e s
  · exact ⟨_, rfl⟩

theorem lookupVar_assignVar (vs : List (Var × Nat)) (x v y : Nat) :
    lookupVar (assignVar vs x v) y = if y = x then some v else lookupVar vs y := by
  induction vs with
  | nil => simp [assignVar, lookupVar]
  | cons p vs ih =>
    unfold assignVar
    by_cases h1 : x < p.1
    · simp [h1, lookupVar]
    · by_cases h2 : x = p.1
      · simp only [if_neg h1, if_pos h2, lookupVar]
        subst h2
        by_cases h4 : y = p.1 <;> simp [h4]
      · simp only [if_neg h1, if_neg h2, lookupVar, ih]
        by_cases h4 : y = p.1
        · rw [if_pos h4, if_neg fun h => h2 (h.symm.trans h4), if_pos h4]
        · rw [if_neg h4, if_neg h4]

/-- Assigning keeps the list of variables in canonical form. -/
theorem varsFrom_assignVar (vs : List (Var × Nat)) : ∀ (lo x v : Nat), varsFrom lo vs = true → lo ≤ x →
    varsFrom lo (assignVar vs x v) = true := by
  induction vs with
  | nil => intro lo x v _ h; simp [assignVar, varsFrom, h]
  | cons p vs ih =>
    intro lo x v h hx
    simp only [varsFrom, Bool.and_eq_true, decide_eq_true_eq] at h
    unfold assignVar
    split_ifs with h1 h2
    · simp only [varsFrom, Bool.and_eq_true, decide_eq_true_eq]
      exact ⟨hx, h1, h.2⟩
    · subst h2
      simp [varsFrom, hx, h.2]
    · simp only [varsFrom, Bool.and_eq_true, decide_eq_true_eq]
      exact ⟨h.1, ih _ _ _ h.2 (Nat.lt_of_le_of_ne (Nat.not_lt.mp h1) (Ne.symm h2))⟩

theorem findLabel_some (p : List Line) : ∀ (l : Label) (k : Nat), findLabel p l = some k →
    ∃ line, p[k]? = some line ∧ line.label = some l := by
  induction p with
  | nil => intro l k h; cases h
  | cons x xs ih =>
    intro l k h
    unfold findLabel at h
    split_ifs at h with h1
    · cases h
      exact ⟨x, rfl, h1⟩
    · cases h2 : findLabel xs l with
      | none => rw [h2] at h; cases h
      | some j => rw [h2] at h; cases h; exact ih _ _ h2

/-- No line before the one found carries the label (log entry 24). -/
theorem findLabel_first (p : List Line) : ∀ (l : Label) (k : Nat), findLabel p l = some k →
    ∀ j line, j < k → p[j]? = some line → line.label ≠ some l := by
  induction p with
  | nil => intro l k h; cases h
  | cons x xs ih =>
    intro l k h j line hj hl
    unfold findLabel at h
    split at h
    · cases h; omega
    · rename_i hx
      obtain ⟨k', hk, rfl⟩ := Option.map_eq_some_iff.mp h
      cases j with
      | zero => cases hl; exact hx
      | succ j => exact ih l k' hk j line (by omega) hl

/-- A branch to a label that a line carries answers a next state that differs only in the host's place. -/
theorem branchIf_of_label {s : State} {l : Label} {k : Nat} (hf : findLabel s.host.prog l = some k) (c : Bool) :
    branchIf c l s = .next (s.setHost { s.host with pc := if c then k else s.host.pc + 1 }) := by
  unfold branchIf goto
  rw [hf]
  cases c <;> rfl

/-! ## Data-memory accesses (R72, R73) -/

/-- While the block is idle no byte is a command's. -/
theorem reach_of_idle {s : State} (h : s.phase = .idle) : reach s = [] := by simp only [reach, h]

theorem exposed_of_idle {s : State} (h : s.phase = .idle) : exposed s = [] := by simp only [exposed, h]

theorem busy_of_idle {s : State} (h : s.phase = .idle) : busy s = false := by simp only [busy, h]

/-- What a note of an access can do. -/
theorem markTouched_cases (hit : Bool) (x : Nat) (s : State) :
    markTouched hit x s = s.setTouched (if hit then x :: s.touched else s.touched) := by
  unfold markTouched
  split_ifs <;> rfl

/-- What a note of the host's own write can do: it takes the byte out of those not seen, and nothing else. -/
theorem markSeen_cases (x : Nat) (s : State) : ∃ h u, markSeen x s = s.setSeen h u ∧
    (h = s.held ∨ h = []) ∧ (busy s = true → h = s.held) ∧
    ∀ y, ((pastWrites (markSeen x s)).any fun r => r.has y) = (((pastWrites s).any fun r => r.has y) && decide (y ≠ x)) := by
  unfold markSeen
  split_ifs with h1 h2
  · refine ⟨s.held, (pastWrites s).flatMap (Range.without x), rfl, .inl rfl, fun _ => rfl, fun y => ?_⟩
    rw [← flatMap_without_has]
    cases hp : s.phase with
    | idle => rw [busy_of_idle hp] at h2; cases h2
    | running op => simp only [pastWrites, setSeen_phase, setSeen_unseen, hp]
  · refine ⟨[], (pastWrites s).flatMap (Range.without x), rfl, .inr rfl, fun h => absurd h h2, fun y => ?_⟩
    rw [← flatMap_without_has]
    cases hp : s.phase with
    | idle => simp only [pastWrites, setSeen_phase, setSeen_unseen, setSeen_held, hp, writtenOf_nil, List.nil_append]
    | running op => simp only [pastWrites, setSeen_phase, setSeen_unseen, hp]
  · refine ⟨s.held, s.unseen, rfl, .inl rfl, fun _ => rfl, fun y => ?_⟩
    by_cases hy : y = x
    · subst hy; simpa using h1
    · simp [hy]

/-- Everything a host read of one byte can do: it fails, or gives a byte and changes only the count of draws and the record of the
accesses to a running command's regions. -/
theorem hostReadByte_cases (x : Nat) (s : State) :
    (∃ f, hostReadByte x s = .fault f) ∨
      (x < memSize s ∧ ∃ b n, hostReadByte x s = .ok b (markTouched (inWrites (reach s) x) x (s.setDraws n))) := by
  unfold hostReadByte
  split_ifs with h1 h2 h3
  · exact .inl ⟨_, rfl⟩
  · exact .inl ⟨_, rfl⟩
  · exact .inr ⟨by omega, _, _, rfl⟩
  · exact .inr ⟨by omega, _, s.draws, rfl⟩

/-- Everything a host write of one byte can do: it fails, or changes that byte and the model's bookkeeping. -/
theorem hostWriteByte_cases (x : Nat) (v : Byte) (s : State) :
    (∃ f, hostWriteByte x v s = .fault f) ∨
      (x < memSize s ∧ ∃ b n h u, hostWriteByte x v s = .ok ()
        (markTouched (inLoans (reach s) x) x
          (((s.setMem (Memory.write s.mem x b)).setDraws n).setSeen h u)) ∧ (h = s.held ∨ h = [])) := by
  unfold hostWriteByte
  split_ifs with h1 h2 h3
  · exact .inl ⟨_, rfl⟩
  · exact .inl ⟨_, rfl⟩
  · exact .inr ⟨by omega, Config.freeByte s.draws, s.draws + 1, s.held, s.unseen, rfl, .inl rfl⟩
  · obtain ⟨h, u, a1, a2, -⟩ := markSeen_cases x (s.setMem (Memory.write s.mem x v))
    exact .inr ⟨by omega, v, s.draws, h, u, by rw [a1]; rfl, a2⟩

/-- A host read, while the block is idle, of a byte that exists, does not fault and that no command wrote unseen gives it and
changes nothing (R72). -/
theorem hostReadByte_idle {x : Nat} {s : State} (hp : s.phase = .idle) (hx : x < memSize s) (hf : memFault s x = false)
    (hu : ((pastWrites s).any fun r => r.has x) = false) : hostReadByte x s = .ok (byteAt s x) s := by
  have hx' : ¬memSize s ≤ x := by omega
  unfold hostReadByte
  rw [if_neg hx', if_neg (by simp [hf]), exposed_of_idle hp, reach_of_idle hp, hu]
  rfl

/-- A host write, while the block is idle, of a byte that exists and does not fault stores it, and the host has then seen it. -/
theorem hostWriteByte_idle {x : Nat} (v : Byte) {s : State} (hp : s.phase = .idle) (hx : x < memSize s)
    (hf : memFault s x = false) : ∃ h u, hostWriteByte x v s = .ok ()
      ((s.setMem (Memory.write s.mem x v)).setSeen h u) ∧
    ∀ y, ((pastWrites ((s.setMem (Memory.write s.mem x v)).setSeen h u)).any fun r => r.has y) =
      (((pastWrites s).any fun r => r.has y) && decide (y ≠ x)) := by
  have hx' : ¬memSize s ≤ x := by omega
  obtain ⟨h, u, a1, -, -, a4⟩ := markSeen_cases x (s.setMem (Memory.write s.mem x v))
  rw [a1] at a4
  refine ⟨h, u, ?_, a4⟩
  unfold hostWriteByte
  rw [if_neg hx', if_neg (by simp [hf]), exposed_of_idle hp, reach_of_idle hp, a1]
  rfl

/-- Reads, while the block is idle, of bytes that exist, do not fault and that no command wrote unseen give them and change
nothing. -/
theorem hostReadBytes_ok (n : Nat) : ∀ (x : Nat) (s : State), s.phase = .idle → x + n ≤ memSize s → NoFault s x n →
    (∀ y, x ≤ y → y < x + n → ((pastWrites s).any fun r => r.has y) = false) →
    hostReadBytes x n s = .ok (bytesFrom s x n) s := by
  induction n with
  | zero => intros; rfl
  | succ n ih =>
    intro x s hp hx hn hu
    have h1 := hostReadByte_idle hp (x := x) (by omega) (hn x (by omega) (by omega)) (hu x (by omega) (by omega))
    simp only [hostReadBytes, h1,
      ih (x + 1) s hp (by omega) (fun y a b => hn y (by omega) (by omega)) fun y a b => hu y (by omega) (by omega)]
    rfl

/-- The bytes of a region depend on the memory alone. -/
theorem bytesFrom_congr {s t : State} (h : s.mem = t.mem) (n : Nat) : ∀ x, bytesFrom s x n = bytesFrom t x n := by
  induction n with
  | zero => exact fun _ => rfl
  | succ n ih => intro x; rw [bytesFrom, bytesFrom, byteAt, byteAt, h, ih]

/-- Writes, while the block is idle, of bytes that exist and do not fault store them, and change nothing else but what the host
has still to see. -/
theorem hostWriteBytes_ok (bs : List Byte) : ∀ (x : Nat) (s : State), s.phase = .idle → x + bs.length ≤ memSize s →
    NoFault s x bs.length → Memory.wf s.mem = true → ∃ m h u,
      hostWriteBytes x bs s = .ok () ((s.setMem m).setSeen h u) ∧
      (∀ y, ¬(x ≤ y ∧ y < x + bs.length) → Memory.read m y = Memory.read s.mem y) ∧
      bytesFrom (s.setMem m) x bs.length = bs ∧ Memory.wf m = true := by
  induction bs with
  | nil => intro x s _ _ _ hw; exact ⟨s.mem, s.held, s.unseen, rfl, fun _ _ => rfl, rfl, hw⟩
  | cons b bs ih =>
    intro x s hp hx hn hw
    simp only [List.length_cons] at hx hn ⊢
    obtain ⟨h, u, h1, -⟩ := hostWriteByte_idle b hp (x := x) (by omega) (hn x (by omega) (by omega))
    obtain ⟨m, h', u', a1, a2, a3, a4⟩ := ih (x + 1) ((s.setMem (Memory.write s.mem x b)).setSeen h u) hp
      (show x + 1 + bs.length ≤ memSize s by omega)
      (fun y a c => hn y (by omega) (by omega)) (Memory.write_wf hw _ _)
    refine ⟨m, h', u', by simp only [hostWriteBytes, h1, a1]; rfl, fun y hy => ?_, ?_, a4⟩
    · rw [a2 y (by omega)]
      exact Memory.read_write_other _ _ (by omega)
    · simp only [bytesFrom]
      rw [bytesFrom_congr (s := ((s.setMem (Memory.write s.mem x b)).setSeen h u).setMem m) (t := s.setMem m) rfl] at a3
      rw [a3]
      congr 1
      show Memory.read m x = b
      rw [a2 x (by omega)]
      exact Memory.read_write_same hw _ _

end Sys2Proof.Machine
end

