-- ==== Sys2Proof/Laws/PerInstr.lean ====
section
/-! SUPPORT. The per-instruction family `CommandWord`: each command's fields pass the three checks of R84, its word is below
2^5, and its word decodes to it (R80 to R86). -/

namespace Sys2Proof

/-- What holds of every command as syntax. -/
def Laws.CommandWord.Statement (i : Instr) : Prop :=
  i.wellFormed = true ∧ i.fields.wellFormed = true ∧ CmdWord.ofWord (encode i) = i.fields ∧ (encode i).toNat < 2 ^ 5 ∧
    decode (encode i) = .ok i

theorem Laws.CommandWord.cinit : Laws.CommandWord.Statement .cinit := by
  unfold Laws.CommandWord.Statement
  decide

theorem Laws.CommandWord.cnext : Laws.CommandWord.Statement .cnext := by
  unfold Laws.CommandWord.Statement
  decide

theorem Laws.CommandWord.decrypt : Laws.CommandWord.Statement .decrypt := by
  unfold Laws.CommandWord.Statement
  decide

theorem Laws.CommandWord.decryptS : Laws.CommandWord.Statement .decryptS := by
  unfold Laws.CommandWord.Statement
  decide

theorem Laws.CommandWord.csum : Laws.CommandWord.Statement .csum := by
  unfold Laws.CommandWord.Statement
  decide

theorem Laws.CommandWord.lzdec : Laws.CommandWord.Statement .lzdec := by
  unfold Laws.CommandWord.Statement
  decide

end Sys2Proof
end

