-- ==== Sys2Proof/Tests/Slice0.lean ====
section
/-! SUPPORT. The model's own tests: ill-formed terms refused, words decoded, one step of each command against spec/95's vectors,
and for every statement with hypotheses a state that meets them. -/

namespace Sys2Proof.Tests

open Sys2Proof Sys2Proof.Machine

/-! ## WellFormed refuses one term for each check -/

theorem test_wf_reserved_bits : (CmdWord.mk 3 0 1).wellFormed = false := by decide
theorem test_wf_reserved_opcode_zero : (CmdWord.mk 0 0 0).wellFormed = false := by decide
theorem test_wf_reserved_opcode_six : (CmdWord.mk 6 0 0).wellFormed = false := by decide
theorem test_wf_seed_bit : (CmdWord.mk 4 1 0).wellFormed = false := by decide
theorem test_wf_seed_bit_of_decrypt : (CmdWord.mk 3 1 0).wellFormed = true := by decide
theorem test_wf_symbol_offset_zero : (Symbol.copy 0 5).wellFormed Literals.source = false := by decide
theorem test_wf_symbol_fields_fit :
    (Symbol.literal 256).wellFormed Literals.source = false ∧ (Symbol.copy 4096 0).wellFormed Literals.source = false ∧
    (Symbol.copy 1 16).wellFormed Literals.source = false := by decide
theorem test_wf_duplicate_label : programWellFormed [⟨some 1, .halt⟩, ⟨some 1, .halt⟩] = false := by decide
theorem test_wf_missing_target : programWellFormed [⟨none, .beq (.val 0) (.val 0) 7⟩] = false := by decide
theorem test_wf_reference_program :
    programWellFormed (refProgram .explicit Config.headerSize) = true ∧ programWellFormed (refProgram .reference Config.headerSize) = true := by decide +kernel

/-! ## Decoding: words written bit by bit from R80 and R82 (`RSV`, `S`, `OP`), and the ILLEGAL words DEC-7 to DEC-17 -/

theorem test_decode_cinit : decode 0b000000000000000000000000000_0_0001#32 = .ok .cinit := by decide
theorem test_decode_cnext : decode 0b000000000000000000000000000_0_0010#32 = .ok .cnext := by decide
theorem test_decode_decrypt : decode 0b000000000000000000000000000_0_0011#32 = .ok .decrypt := by decide
theorem test_decode_decryptS : decode 0b000000000000000000000000000_1_0011#32 = .ok .decryptS := by decide
theorem test_decode_csum : decode 0b000000000000000000000000000_0_0100#32 = .ok .csum := by decide
theorem test_decode_lzdec : decode 0b000000000000000000000000000_0_0101#32 = .ok .lzdec := by decide
theorem test_decode_reserved_opcodes :
    decode 0x0 = .error .reservedOpcode ∧ decode 0x6 = .error .reservedOpcode ∧ decode 0xF = .error .reservedOpcode := by decide
theorem test_decode_seed_bit :
    decode 0x11 = .error .seedBit ∧ decode 0x12 = .error .seedBit ∧ decode 0x14 = .error .seedBit ∧
    decode 0x15 = .error .seedBit := by decide
theorem test_decode_reserved_bits :
    decode 0x23 = .error .reservedBits ∧ decode 0x33 = .error .reservedBits ∧ decode 0x80000003 = .error .reservedBits ∧
    decode 0xFFFFFFFF = .error .reservedBits := by decide
theorem test_decode_short_word : decodeBytes [0x01, 0x00, 0x00] = .error .shortWord := by decide
theorem test_decode_table_word : decodeTableWord 32 0x13 = some .decryptS := by decide

/-- S8-5 and S8-6: the literal 0x41, and the literal 0x42 with the match (1, 0), are these bits. -/
theorem test_symbol_bits :
    (Symbol.literal 0x41).bits Literals.source = [true, false, true, false, false, false, false, false, true] ∧
    (Symbol.copy 1 0).bits Literals.source = [false, false, false, false, false, false, false, false, false, false, false, false, true,
      false, false, false, false] := by decide

/-! ## One step of each command -/

/-- What a field of the next state of a command is, if there is a next state. -/
def after {α : Type} (i : Instr) (s : State) (f : State → α) : Option α :=
  match exec i s with
  | .next t => some (f t)
  | .fault _ => none
  | .refused _ => none

/-- A state with a source and a destination region. -/
def onRegions (src srcLen dst dstLen : Word) (m : List Host.Cell) : State :=
  { State.reset with srcAddr := src, srcLen := srcLen, dstAddr := dst, dstLen := dstLen, mem := m }

/-- K-1 for seed 0x12345678: `T[251]`, `T[5]`, `T[222]`, and `ACC`. -/
theorem test_cinit_table :
    after .cinit { State.reset with seed := 0x12345678 } (fun t => (tabGet t.tab 251, tabGet t.tab 5, tabGet t.tab 222, t.acc)) =
      some (0x04AE9151, 0xAA0D1263, 0x00000001, 0xD779D9D1623BDBDE) := by decide +kernel

/-- CN-2: `STATUS` after `CINIT`. -/
theorem test_cinit_status : after .cinit State.reset statusWord = some 0x00000006 := by decide +kernel

/-- CN-1: `CNEXT` right after reset. -/
theorem test_cnext_not_init : after .cnext State.reset (fun t => (statusWord t, t.result)) = some (0x00000052, 0) := by
  decide +kernel

/-- K-2: `k0` of seed 0x12345678, and the cursors after it. -/
theorem test_cnext_first_word :
    after .cnext (cipherInit 0x12345678 State.reset) (fun t => (t.result, tabGet t.tab 0, tabGet t.tab 1, tabGet t.tab 2)) =
      some (0x09A55CF9, 1, 104, 0x09A55CF9) := by decide +kernel

/-- DE-8: seven zero bytes with seed 0x12345678. -/
theorem test_decrypt_seven_bytes :
    after .decrypt { onRegions 0x1000 7 0 0 [] with seed := 0x12345678 } (fun t => bytesFrom t 0x1000 8) =
      some [0xF9, 0x5C, 0xA5, 0x09, 0x18, 0xA0, 0xEA, 0x00] := by decide +kernel

/-- DE-18: the top four bytes of memory are in range. -/
theorem test_decrypt_top_of_memory :
    after .decrypt { onRegions 0xFFFFFFFC 4 0 0 [] with seed := 0x12345678 } (fun t => (t.err, byteAt t 0xFFFFFFFF)) =
      some (.ok, 0x09) := by decide +kernel

/-- DE-12: the seed from the region, and a tail of two bytes. -/
theorem test_decryptS_tail :
    after .decryptS (onRegions 0x1000 6 0 0 [(0x1000, 0x78), (0x1001, 0x56), (0x1002, 0x34), (0x1003, 0x12)])
        (fun t => bytesFrom t 0x1000 6) = some [0x78, 0x56, 0x34, 0x12, 0x09, 0xA5] := by decide +kernel

/-- DE-17: `RANGE`, not `LENGTH`. -/
theorem test_decryptS_range : after .decryptS (onRegions 0xFFFFFFFE 3 0 0 []) statusWord = some 0x00000022 := by decide +kernel

/-- R180's example, and three trailing bytes that are not read (R181). -/
theorem test_csum_example :
    after .csum (onRegions 0x20 11 0 0 [(0x20, 1), (0x24, 2), (0x28, 9), (0x2A, 9)]) State.result = some 0x00000003 := by
  decide +kernel

/-- R182: the addition wraps: `(0 XOR 0xFFFFFFFF) + 2 = 1`. -/
theorem test_csum_wraps :
    after .csum (onRegions 0x20 8 0 0 [(0x20, 0xFF), (0x21, 0xFF), (0x22, 0xFF), (0x23, 0xFF), (0x24, 2)]) State.result =
      some 0x00000001 := by decide +kernel

/-- S8-6: a literal and a copy of what it wrote, `A1 00 04 00`, give `42 42 42`. -/
theorem test_lzdec_copy :
    after .lzdec (onRegions 0x100 4 0x200 3 [(0x100, 0xA1), (0x102, 0x04)])
        (fun t => (bytesFrom t 0x200 4, t.outCount, t.inPos, t.eos)) = some ([0x42, 0x42, 0x42, 0x00], 3, 4, false) := by
  decide +kernel

/-- The constants are arguments (D41): with offset fields of 3 bits, length fields of 2, a dictionary of 4 bytes, `MIN_MATCH` 1 and
`W_INIT` 2, the bytes `A1 10 00` are the literal 0x42, the match (2, 0), which copies one byte, and the end marker. -/
theorem test_lzdec_other_constants :
    after .lzdec { onRegions 0x100 3 0x200 8 [(0x100, 0xA1), (0x101, 0x10)] with
        params := { Params.default with
          lits := { Literals.source with dictSize := 4, offsetBits := 3, lengthBits := 2, minMatch := 1, wInit := 2 } } }
      (fun t => (bytesFrom t 0x200 3, t.outCount, t.wIndex, t.dict, t.eos)) =
      some ([0x42, 0x42, 0x00], 2, 0, [0, 0, 0x42, 0x42], true) := by decide +kernel

/-- `ADDR_W` is an argument too: where an address has 4 bits, a region that ends at 16 is in range and one that passes it is not
(R65, R224). -/
theorem test_csum_other_address_width :
    let p := { Params.default with lits := { Literals.source with addrW := 4 } }
    after .csum { onRegions 12 4 0 0 [] with params := p } State.err = some .ok ∧
      after .csum { onRegions 13 4 0 0 [] with params := p } State.err = some .range := by decide +kernel

/-- S8-4: the end marker as the first symbol. -/
theorem test_lzdec_end_marker :
    after .lzdec (onRegions 0x100 2 0x200 16 []) (fun t => (statusWord t, t.outCount, t.inPos)) = some (0x0000000A, 0, 2) := by
  decide +kernel

/-- Parameters with one faulting byte. -/
def faultAt (x : Nat) : Params := { Params.default with memFaults := [⟨x, 1⟩] }

/-- B-3: LZ-5 with the write of the first copied byte faulting. -/
theorem test_lzdec_bus :
    after .lzdec { onRegions 0x1000 5 0x2000 3 [(0x1000, 0xA1), (0x1002, 0x04)] with params := faultAt 0x2001 }
        (fun t => (statusWord t, t.outCount, t.inPos, byteAt t 0x2000)) = some (0x00000072, 1, 4, 0x42) := by decide +kernel

/-! ## Races: what R72, R73 and R266 leave to the host -/

/-- What a field of the state after a host access is, if it does not fail. -/
def given {α β : Type} (r : HostRes α) (f : State → β) : Option β :=
  match r with
  | .ok _ t => some (f t)
  | .fault _ => none

/-- What a field of the state after a step is, if there is a next state. -/
def stepped {α : Type} (s : State) (f : State → α) : Option α :=
  match step s with
  | .next t => some (f t)
  | .fault _ => none
  | .refused _ => none

/-- `CSUM` runs while the end of an earlier `DECRYPT` of 0x100 to 0x103 has not been seen: the host's write of a byte there is
no race and is kept, and the byte is no longer unseen. -/
theorem test_write_outside_running_command :
    given (hostWriteByte 0x101 9 { placeCommand 4 (onRegions 0x200 4 0 0 []) with unseen := [⟨0x100, 4⟩] })
        (fun t => (byteAt t 0x101, t.touched, (pastWrites t).any fun r => r.has 0x101)) = some (9, [], false) := by decide +kernel

/-- Nor is the host's read of a byte there: `CSUM` then ends with its exact result. -/
theorem test_read_outside_running_command :
    (given (hostReadByte 0x101 { placeCommand 4 (onRegions 0x200 4 0 0 [(0x200, 5)]) with unseen := [⟨0x100, 4⟩] })
        (fun t => stepped t fun u => (u.result, u.err, u.mem))) = some (some (5, .ok, [(0x200, 5)])) := by decide +kernel

/-- `LZDEC` of the literal 0x41 and the end marker, into 8 bytes. -/
def oneLiteral : State := placeCommand 5 (onRegions 0x100 4 0x200 8 [(0x100, 0xA0), (0x101, 0x80)])

/-- `LZDEC` has used 3 source bytes and 1 destination byte (R68): the host may write the bytes after them while it runs. -/
theorem test_write_beyond_what_lzdec_uses :
    oneLiteral.held = [⟨⟨0x100, 3⟩, false⟩, ⟨⟨0x200, 1⟩, true⟩] ∧
    given (hostWriteBytes 0x103 [7] oneLiteral) (fun t => given (hostWriteBytes 0x201 [9] t) (fun u => stepped u fun v =>
      (v.outCount, v.inPos, statusWord v, byteAt v 0x103, byteAt v 0x200, byteAt v 0x201))) =
      some (some (some (1, 3, 0x0000000A, 7, 0x41, 9))) := by decide +kernel

/-- A write to a byte that it does use is recorded, and is a race. -/
theorem test_write_to_what_lzdec_uses :
    given (hostWriteByte 0x100 7 oneLiteral) (fun t => t.touched) = some [0x100] ∧
    after .lzdec oneLiteral (raced .lzdec { oneLiteral with touched := [0x100] }) = some true ∧
    after .lzdec oneLiteral (raced .lzdec { oneLiteral with touched := [0x103, 0x201] }) = some false := by decide +kernel

/-- An idle host write to a byte that an ended command wrote is kept, though its end was not seen; then it reads back. -/
theorem test_idle_write_of_unseen_byte :
    given (hostWriteByte 0x100 7 { State.reset with held := [⟨⟨0x100, 4⟩, true⟩], polled := false })
        (fun t => (byteAt t 0x100, t.held, hostReadByte 0x100 t = .ok 7 t)) = some (7, [], True) := by
  refine congrArg some (Prod.ext (by decide) (Prod.ext (by decide) ?_))
  exact eq_true rfl

/-- A reset frees the bytes of the abandoned command alone: not those of a command that ended before. -/
theorem test_reset_keeps_earlier_regions :
    let s := { placeCommand 4 (onRegions 0x200 4 0 0 [(0x101, 8)]) with unseen := [⟨0x100, 4⟩] }
    exposed s = [⟨⟨0x200, 4⟩, false⟩] ∧ byteAt (scrambleLoans (exposed s) s) 0x101 = 8 := by decide +kernel

/-- R197: the report of a `BlockError` holds its code. -/
theorem test_block_error_reports_its_code :
    (match hostFatal .blockError (some (.val 7)) State.reset with
      | .next t => (t.host.ended, t.host.notes)
      | .fault _ => (none, [])
      | .refused _ => (none, [])) = (some (.fatal .blockError), [.errorCode 7]) := by decide

/-- Two lines with one label: the first (log entry 24). -/
theorem test_first_of_two_labels : findLabel [⟨none, .halt⟩, ⟨some 3, .halt⟩, ⟨some 3, .halt⟩] 3 = some 1 := by decide

/-! ## Witnesses: for each statement with hypotheses, a state and operands that meet them -/

/-- Memory with no faults has no fault anywhere. -/
theorem noFault_of_none {s : State} (h : s.params.memFaults = []) (x n : Nat) : NoFault s x n := fun y _ _ => by
  simp [memFault, h]

theorem witness_IllegalWordsOnlyComplete :
    ((0x23#32).extractLsb' 5 27 ≠ 0 ∧ (0x10#32).extractLsb' 0 4 = 0 ∧ 6 ≤ ((0x6#32).extractLsb' 0 4).toNat ∧
      (0x11#32).extractLsb' 4 1 = 1 ∧ (0x11#32).extractLsb' 0 4 ≠ 3) ∧
    busy State.reset = false ∧ (placeCommand 0x11 State.reset).phase = .running (decodeOp 0x11) ∧
    (placeCommand 0x11 State.reset).turns = 0 ∧ nextStmt { placeCommand 0x11 State.reset with turns := 1 } = none := by decide

theorem witness_SymbolRoundTrip :
    (Symbol.copy 0xFFF 0xF).wellFormed Literals.source = true ∧ (Symbol.copy 1 0).wellFormed Literals.source = true ∧
    (Symbol.literal 0xFF).wellFormed Literals.source = true ∧
    takeSymbol Literals.source (Symbol.endOfStream.bits Literals.source ++ [true]) = some (.endOfStream, [true]) := by decide

/-- Both clauses: a whole symbol, the last of the source; and a source of one byte, which holds none. -/
theorem witness_CursorReadsTheBitstream :
    (let s := lzStart (onRegions 0x100 2 0x200 1 [(0x100, 0xA0), (0x101, 0x80)])
     maskOk s = true ∧ s.pos.toNat ≤ s.srcLen.toNat ∧ s.params.memFaults = [] ∧ (takeSymbol s.params.lits (remainingBits s)).isSome = true) ∧
    (let s := lzStart (onRegions 0x100 1 0x200 1 [(0x100, 0xA0)])
     maskOk s = true ∧ s.pos.toNat ≤ s.srcLen.toNat ∧ s.params.memFaults = [] ∧ takeSymbol s.params.lits (remainingBits s) = none) := by
  decide +kernel

/-- The cursors at 249 and 102, where both wrap. -/
theorem witness_CnextDrawsOneWord :
    (let s := { State.reset with ksv := true, tab := tabSet (tabSet State.reset.tab 0 249) 1 102 }
     s.ksv = true ∧ CipherSizes s.params.lits ∧ cursorsOk s = true) ∧
    (let s := { State.reset with ksv := true, tab := tabSet State.reset.tab 1 103 }
     s.ksv = true ∧ CipherSizes s.params.lits ∧ cursorsOk s = true) :=
  ⟨⟨rfl, ⟨rfl, rfl, rfl⟩, by decide +kernel⟩, ⟨rfl, ⟨rfl, rfl, rfl⟩, by decide +kernel⟩⟩

/-- `MAP_LEN` has R7's value in the constants of R7. -/
theorem witness_MapIsTheCyclicSuccessor : Literals.source.mapLen = 250 := rfl

theorem witness_CnextBeforeSeeding : State.reset.ksv = false := rfl

theorem witness_KeystreamRecurrence : SourceLiterals State.reset := rfl

/-- The constants of R7 hold after reset. -/
theorem witness_CinitSeedsTheTable : SourceLiterals { State.reset with seed := 0xFFFFFFFF } := rfl

theorem witness_KeystreamDependsOnTheSeedAlone :
    CipherSizes State.reset.params.lits ∧ State.reset.params.lcgReading = (cipherInit 5 State.reset).params.lcgReading ∧
    State.reset.params.lits = (cipherInit 5 State.reset).params.lits := ⟨⟨rfl, rfl, rfl⟩, rfl, rfl⟩

/-- `DECRYPT` of no byte, of the last byte of memory, and with `S = 1` of just the seed. -/
theorem witness_DecryptXorsTheRegion :
    (DecryptReady .decrypt (onRegions 0xFFFFFFFF 0 0 0 []) ∧ DecryptReady .decrypt (onRegions 0xFFFFFFFF 1 0 0 []) ∧
      DecryptReady .decryptS (onRegions 0xFFFFFFFC 4 0 0 [])) ∧
    Memory.wf [] = true ∧ ∀ a n, (SourceLiterals (onRegions a n 0 0 []) ∧ CipherSizes (onRegions a n 0 0 []).params.lits) ∧ ∀ x k, NoFault (onRegions a n 0 0 []) x k :=
  ⟨⟨⟨.inl rfl, by decide⟩, ⟨.inl rfl, by decide⟩, ⟨.inr ⟨rfl, by decide⟩, by decide⟩⟩, rfl,
    fun _ _ => ⟨⟨rfl, rfl, rfl, rfl⟩, fun _ _ => noFault_of_none rfl _ _⟩⟩

theorem witness_DecryptFrame : Instr.decrypt = .decrypt ∨ Instr.decrypt = .decryptS := .inl rfl

theorem witness_DecryptTwiceRestores :
    (Instr.decryptS = .decrypt ∨ Instr.decryptS = .decryptS) ∧ Memory.wf (onRegions 0xFFFFFFF9 7 0 0 [(0xFFFFFFF9, 1)]).mem = true ∧
    CipherSizes (onRegions 0xFFFFFFF9 7 0 0 [(0xFFFFFFF9, 1)]).params.lits :=
  ⟨.inr rfl, by decide, rfl, rfl, rfl⟩

/-- The last byte of the seed faults. -/
theorem witness_DecryptSeedFault :
    let s := { onRegions 0x1000 4 0 0 [] with params := faultAt 0x1003 }
    4 ≤ s.srcLen.toNat ∧ SrcInRange s ∧ s.srcAddr.toNat ≤ 0x1003 ∧
    0x1003 < s.srcAddr.toNat + 4 ∧ memFault s 0x1003 = true := by decide

/-- A fault in the last byte of the last word, and one in the first byte of the tail. -/
theorem witness_DecryptBusKeepsPartialEffects :
    (let s := { onRegions 0x1000 11 0 0 [] with params := faultAt 0x1007 }
     DecryptReady .decrypt s ∧ Memory.wf s.mem = true ∧ 7 < decryptLen .decrypt s ∧ NoFault s 0x1000 (decryptBase .decrypt s - 0x1000 + 7) ∧
      memFault s (decryptBase .decrypt s + 7) = true ∧ SourceLiterals s ∧ CipherSizes s.params.lits) ∧
    (let s := { onRegions 0x1000 11 0 0 [] with params := faultAt 0x1008 }
     DecryptReady .decryptS s ∧ Memory.wf s.mem = true ∧ 4 < decryptLen .decryptS s ∧
      NoFault s 0x1000 (decryptBase .decryptS s - 0x1000 + 4) ∧ memFault s (decryptBase .decryptS s + 4) = true ∧
      SourceLiterals s ∧ CipherSizes s.params.lits) := by
  refine ⟨⟨⟨.inl rfl, by decide⟩, rfl, by decide, fun y h1 h2 => ?_, by decide, rfl, rfl, rfl, rfl⟩,
    ⟨⟨.inr ⟨rfl, by decide⟩, by decide⟩, rfl, by decide, fun y h1 h2 => ?_, by decide, rfl, rfl, rfl, rfl⟩⟩
  · have : y < 0x1007 := h2
    simp [memFault, faultAt, Range.has]
    omega
  · have : y < 0x1008 := h2
    simp [memFault, faultAt, Range.has]
    omega

/-- A region that ends at 2^32 with no fault; the same with its last full word's last byte faulting; and one byte more. -/
theorem witness_CsumFoldsTheWords :
    (SrcInRange (onRegions 0xFFFFFFF8 8 0 0 []) ∧
      NoFault (onRegions 0xFFFFFFF8 8 0 0 []) 0xFFFFFFF8 8) ∧
    (let s := { onRegions 0x1000 10 0 0 [] with params := faultAt 0x1007 }
     SrcInRange s ∧
      ∃ y, s.srcAddr.toNat ≤ y ∧ y < s.srcAddr.toNat + 4 * (s.srcLen.toNat / 4) ∧ memFault s y = true) ∧
    ¬SrcInRange (onRegions 0xFFFFFFF8 9 0 0 []) :=
  ⟨⟨by decide, noFault_of_none rfl _ _⟩, ⟨by decide, 0x1007, by decide⟩, by decide⟩

/-- Another trailing byte that also faults, and a region of three bytes of which one faults. -/
theorem witness_CsumIgnoresTrailingBytes :
    (∀ x, 0x1000 ≤ x → x < 0x1000 + 4 * (7 / 4) →
      Memory.read [(0x1000, 3), (0x1004, 9)] x = byteAt (onRegions 0x1000 7 0 0 [(0x1000, 3)]) x ∧
      ([⟨0x1004, 1⟩] : List Range).any (fun r => r.has x) = memFault (onRegions 0x1000 7 0 0 [(0x1000, 3)]) x) ∧
    (let s := { onRegions 0x1000 3 0 0 [] with params := faultAt 0x1002 }
     s.srcLen.toNat < 4 ∧ SrcInRange s) := by
  refine ⟨fun x h1 h2 => ⟨?_, ?_⟩, by decide⟩
  · have : x ≠ 0x1004 := by omega
    simp [Memory.read, byteAt, onRegions, this]
  · rw [show memFault (onRegions 0x1000 7 0 0 [(0x1000, 3)]) x = false from noFault_of_none rfl x 1 x (by omega) (by omega)]
    simp [Range.has]
    omega

/-- Regions that share their last and first byte, and regions that only touch. -/
theorem witness_LzdecRefusesOverlap :
    (let s := onRegions 0x100 0x10 0x10F 1 []
     SrcInRange s ∧ DstInRange s ∧
      (0 < s.srcLen.toNat ∧ 0 < s.dstLen.toNat ∧ s.srcAddr.toNat < s.dstAddr.toNat + s.dstLen.toNat ∧
        s.dstAddr.toNat < s.srcAddr.toNat + s.srcLen.toNat)) ∧
    (let s := onRegions 0x100 0x10 0x110 1 []
     SrcInRange s ∧ DstInRange s ∧
      ¬(0 < s.srcLen.toNat ∧ 0 < s.dstLen.toNat ∧ s.srcAddr.toNat < s.dstAddr.toNat + s.dstLen.toNat ∧
        s.dstAddr.toNat < s.srcAddr.toNat + s.srcLen.toNat)) := by decide

theorem witness_LzdecWithNoCapacity :
    let s := onRegions 0x100 0 0x100 0 []
    SrcInRange s ∧ s.dstLen = 0 := by decide

theorem witness_LzdecAlwaysStops :
    precheck .lzdec (onRegions 0x100 4 0xFFFFFFFF 1 []) = none ∧ (onRegions 0x100 4 0xFFFFFFFF 1 []).dstLen ≠ 0 ∧
    SourceLiterals (onRegions 0x100 4 0xFFFFFFFF 1 []) := by decide

theorem witness_LzdecStaysInBounds : precheck .lzdec (onRegions 0x100 0 0x200 0 []) = none := by decide

/-- No fault; a fault in a source byte; and, as in B-3, a fault in a destination byte. -/
theorem witness_LzdecRefinesTheListDecompressor :
    let s := onRegions 0x1000 5 0x2000 3 [(0x1000, 0xA1), (0x1002, 0x04)]
    (precheck .lzdec s = none ∧ Memory.wf s.mem = true ∧ (unpackSource s).stop = some (.ok, false)) ∧
    (let u := { s with params := faultAt 0x1002 }
     precheck .lzdec u = none ∧ sourceGood u = 2 ∧ (unpackSource u).stop = some (.bus, false) ∧ (unpackSource u).out = [0x42]) ∧
    (let u := { s with params := faultAt 0x2001 }
     precheck .lzdec u = none ∧ (sinkOf u).good = 1 ∧ (unpackSource u).stop = some (.bus, false) ∧ (unpackSource u).out = [0x42]) := by
  decide +kernel

theorem witness_LzdecStartsFresh : precheck .lzdec (onRegions 0x100 4 0x104 3 []) = none := by decide

/-- One byte past the top of memory: of a source, and of a destination. -/
theorem witness_RangeIsRefused :
    (Instr.csum ∈ [Instr.decrypt, .decryptS, .csum, .lzdec] ∧
      ¬SrcInRange (onRegions 0xFFFFFFFF 2 0 0 [])) ∧
    ¬DstInRange (onRegions 0 0 0xFFFFFFFF 2 []) := by decide

theorem witness_LengthIsRefused :
    (onRegions 0xFFFFFFFD 3 0 0 []).srcLen.toNat < 4 ∧
    SrcInRange (onRegions 0xFFFFFFFD 3 0 0 []) := by decide

/-- Each code of the order of R231, and a command that passes. -/
theorem witness_PrechecksComeFirst :
    precheck .lzdec (onRegions 0xFFFFFFFF 2 0xFFFFFFFF 2 []) = some .range ∧
    precheck .lzdec (onRegions 0 0 0xFFFFFFFF 2 []) = some .range ∧ precheck .decryptS (onRegions 0 3 0 0 []) = some .length ∧
    precheck .lzdec (onRegions 0 2 1 1 []) = some .overlap ∧ precheck .cnext State.reset = some .notInit ∧
    precheck .csum (onRegions 0xFFFFFFFF 1 0 0 []) = none := by decide

/-- Two memories that differ just outside the region that `CSUM` reads. -/
theorem witness_CommandsReadOnlyTheirRegions :
    Memory.wf (onRegions 0x1000 4 0 0 [(0x1000, 3)]).mem = true ∧ Memory.wf [(0x1000, 3), (0x1004, 9)] = true ∧
    ∀ t, ∀ l ∈ usedBy .csum (onRegions 0x1000 4 0 0 [(0x1000, 3)]) t, ∀ x, l.region.has x = true →
      Memory.read [(0x1000, 3), (0x1004, 9)] x = byteAt (onRegions 0x1000 4 0 0 [(0x1000, 3)]) x := by
  refine ⟨by decide, by decide, fun t l hl x hx => ?_⟩
  have e : usedBy .csum (onRegions 0x1000 4 0 0 [(0x1000, 3)]) t = [⟨⟨0x1000, 4⟩, false⟩] := rfl
  rw [e, List.mem_singleton] at hl
  subst hl
  have := has_true.mp hx
  have : x ≠ 0x1004 := by omega
  simp [Memory.read, byteAt, onRegions, this]

/-- Another word in slot 252 of a seeded table is hidden. -/
theorem sameToHost_slot (s : State) : SameToHost s { s with tab := tabSet s.tab 252 9 } :=
  ⟨rfl, fun _ i hi => tabGet_tabSet_other (i := 252) (j := i) s.tab (by omega) 9⟩

/-- After reset another accumulator and another table change nothing for the host; nor does another word in slot 252 of a
seeded table. -/
theorem witness_HiddenStateStaysHidden :
    (CipherSizes State.reset.params.lits ∧ SameToHost State.reset { State.reset with acc := 7, tab := tabSet State.reset.tab 5 9 }) ∧
    CipherSizes (cipherInit 1 State.reset).params.lits ∧
    SameToHost (cipherInit 1 State.reset) { cipherInit 1 State.reset with tab := tabSet (cipherInit 1 State.reset).tab 252 9 } :=
  ⟨⟨⟨rfl, rfl, rfl⟩, rfl, fun h => by cases h⟩, ⟨rfl, rfl, rfl⟩, sameToHost_slot _⟩

theorem witness_BusyWritesAreIgnored : (placeCommand 1 State.reset).phase = .running (some .cinit) := by decide

theorem witness_ReservedOffsets : 0x28 ≤ 0x28 ∧ 0x28 ≤ 0xFC ∧ 0x28 ≤ 0xFC ∧ 0xFC ≤ 0xFC := by decide

theorem witness_OtherAccessesAreIgnored : ((2 : Nat) ≠ 4 ∨ 0x08 % 4 ≠ 0) ∧ ((4 : Nat) ≠ 4 ∨ 0x09 % 4 ≠ 0) := by decide

theorem witness_ReadOnlyRegisters : HReg.inPos ∈ [HReg.status, .result, .outCount, .inPos] := by decide

theorem witness_OperandRegistersHold : busy State.reset = false := rfl

theorem witness_CmdWriteStartsTheCommand : busy State.reset = false := rfl

theorem witness_StatusRead :
    (statusOk State.reset = true ∧ State.reset.phase = .idle) ∧
    (statusOk (placeCommand 1 State.reset) = true ∧ (placeCommand 1 State.reset).phase = .running (some .cinit)) := by decide

theorem witness_ResultReads : State.reset.phase = .idle ∧ State.reset.polled = true := ⟨rfl, rfl⟩

/-- A host with one statement left, while a command runs and one turn is left. -/
def waiting : State :=
  { placeCommand 1 State.reset with turns := 1, host := { HostState.empty with prog := [⟨none, .halt⟩] } }

theorem witness_StepRunsTheDecodedCommand :
    ((placeCommand 1 State.reset).phase = .running (some .cinit) ∧ (placeCommand 1 State.reset).turns = 0 ∧
      (placeCommand 1 State.reset).touched = []) ∧
    (let s := { placeCommand 1 State.reset with turns := 1 }
     s.phase = .running (some .cinit) ∧ nextStmt s = none ∧ s.touched = []) ∧
    decodeTableWord 32 0x13 = some .decryptS ∧ State.reset.phase = .idle ∧
    (waiting.phase = .running (some .cinit) ∧ waiting.turns = 0 + 1 ∧ nextStmt waiting ≠ none) := by decide

/-- A `CSUM` that the host has raced with, and an `LZDEC` whose regions it has touched outside the bytes used. -/
theorem witness_RacesStayInside :
    (let s := { placeCommand 4 (onRegions 0x200 4 0 0 []) with touched := [0x201] }
     s.phase = .running (some .csum) ∧ s.turns = 0 ∧ Memory.wf s.mem = true) ∧
    (let s := { oneLiteral with touched := [0x103, 0x201] }
     s.phase = .running (some .lzdec) ∧ s.turns = 0 ∧ Memory.wf s.mem = true ∧
      after .lzdec s (fun u => s.touched.all fun x => !inLoans (usedBy .lzdec s u) x) = some true) := by decide +kernel

theorem witness_StepsKeepTheParameters : step State.reset = .next State.reset := rfl

theorem witness_CursorsStayApart :
    let s := { State.reset with ksv := true, tab := tabSet (tabSet State.reset.tab 0 249) 1 102 }
    SourceLiterals s ∧ s.ksv = true ∧ (tabGet s.tab 0).toNat < 250 ∧ (tabGet s.tab 1).toNat = ((tabGet s.tab 0).toNat + 103) % 250 := by
  decide +kernel

/-- Reset, and a started `CINIT`, whose step answers a next state. -/
theorem witness_StepsKeepTheInvariant :
    (inv State.reset = true ∧ step State.reset = .next State.reset) ∧
    inv (placeCommand 1 State.reset) = true ∧ ∃ t, step (placeCommand 1 State.reset) = .next t :=
  ⟨⟨by decide +kernel, rfl⟩, by decide +kernel, _, rfl⟩

/-- A reset statement on the host's turn. -/
theorem witness_ResetStatement : nextStmt { State.reset with host := { HostState.empty with prog := [⟨none, .reset⟩] } } = some .reset := rfl

/-- An idle block, and one that runs a command with bytes 0x10 to 0x1F. -/
theorem witness_ResetEvent :
    State.reset.phase = .idle ∧
    exposed (placeCommand 3 (onRegions 0x10 0x10 0 0 [])) = [⟨⟨0x10, 0x10⟩, true⟩] := by decide +kernel

/-- The last byte of memory, a byte that an ended command wrote unseen, and the byte just past those of a running one. -/
theorem witness_HostAccessOutsideRegions :
    (0xFFFFFFFF < memSize State.reset ∧ memFault State.reset 0xFFFFFFFF = false ∧ Memory.wf State.reset.mem = true ∧
      exposed State.reset = [] ∧ pastWrites State.reset = []) ∧
    (let s := { State.reset with held := [⟨⟨0x100, 4⟩, true⟩], polled := false }
     s.phase = .idle ∧ pastWrites s = [⟨0x100, 4⟩]) ∧
    (let s := placeCommand 3 (onRegions 0x10 0x10 0 0 [])
     memFault s 0x20 = false ∧ (∀ l ∈ exposed s, l.region.has 0x20 = false) ∧ pastWrites s = [] ∧ Memory.wf s.mem = true) := by
  decide +kernel

/-- An idle state whose host is about to run a statement. -/
def about (st : Stmt) : State := { State.reset with host := { HostState.empty with prog := [⟨some 3, st⟩] } }

/-- Addresses that are sums, at the top of memory. -/
def topAddr : Expr := .add (.val 0xFFFFFFF0) (.val 0xE)

/-- Each statement at the top of memory. -/
theorem witness_HostMemoryStatements :
    (∀ st, (about st).phase = .idle ∧ pastWrites (about st) = [] ∧ Memory.wf (about st).mem = true ∧
      (evalHost topAddr (about st)).1 = 0xFFFFFFFE ∧ NoFault (about st) 0xFFFFFFFE 2 ∧ 0xFFFFFFFE + 2 ≤ memSize (about st)) ∧
    nextStmt (about (.memset topAddr [1, 2])) = some (.memset topAddr [1, 2]) ∧ ([1, 2] : List Byte).length = 2 ∧
    nextStmt (about (.memfill topAddr (.val 2) 9)) = some (.memfill topAddr (.val 2) 9) ∧
    nextStmt (about (.memrd topAddr (.val 2) 4)) = some (.memrd topAddr (.val 2) 4) :=
  ⟨fun _ => ⟨rfl, rfl, rfl, rfl, noFault_of_none rfl _ _,
    (show 0xFFFFFFFE + 2 ≤ 2 ^ 32 by decide)⟩, rfl, rfl, rfl, rfl⟩

/-- A copy onto a region that overlaps its source. -/
theorem witness_HostCopiesBytes :
    let s := about (.memcpy (.val 0x101) (.val 0x100) (.val 4))
    s.phase = .idle ∧ pastWrites s = [] ∧ Memory.wf s.mem = true ∧ 0x100 + 4 ≤ memSize s ∧ 0x101 + 4 ≤ memSize s ∧ NoFault s 0x100 4 ∧
    NoFault s 0x101 4 ∧ nextStmt s = some (.memcpy (.val 0x101) (.val 0x100) (.val 4)) :=
  ⟨rfl, rfl, rfl, by decide, by decide, noFault_of_none rfl _ _, noFault_of_none rfl _ _, rfl⟩

theorem witness_HostBranches :
    (about (.beq (.val 1) (.val 1) 3)).phase = .idle ∧ findLabel (about (.beq (.val 1) (.val 1) 3)).host.prog 3 = some 0 ∧
    nextStmt (about (.beq (.val 1) (.val 1) 3)) = some (.beq (.val 1) (.val 1) 3) ∧
    nextStmt (about (.bne (.val 1) (.val 1) 3)) = some (.bne (.val 1) (.val 1) 3) ∧
    nextStmt (about (.bltu (.val 1) (.val 1) 3)) = some (.bltu (.val 1) (.val 1) 3) := by decide

/-- The host's turn while the block is idle, and its last while a command runs. -/
theorem hostMoves_idle (st : Stmt) : HostMoves (about st) (about st) := .inl ⟨rfl, rfl⟩

theorem hostMoves_running (st : Stmt) : HostMoves { placeCommand 1 (about st) with turns := 1 } { placeCommand 1 (about st) with turns := 0 } :=
  .inr ⟨some .cinit, 0, rfl, rfl, rfl⟩

/-- `RD` of the last register, with a variable and without. -/
theorem witness_HostRegisterReads :
    nextStmt (about (.rd .inPos none)) = some (.rd .inPos none) ∧ nextStmt (about (.rd .inPos (some 4))) = some (.rd .inPos (some 4)) ∧
    nextStmt { placeCommand 1 (about (.rd .status (some 4))) with turns := 1 } = some (.rd .status (some 4)) := ⟨rfl, rfl, rfl⟩

/-- The idle clause, and a running command while which the host gets one turn. -/
theorem witness_HostRegisterWrites :
    (about (.cmd .lzdec)).phase = .idle ∧ nextStmt (about (.cmd .lzdec)) = some (.cmd .lzdec) ∧
    nextStmt (about (.wr .srcLen topAddr)) = some (.wr .srcLen topAddr) ∧
    (evalHost topAddr (about (.wr .srcLen topAddr))).1 < 2 ^ 32 ∧
    (let s := { placeCommand 1 (about (.cmd .lzdec)) with turns := 1 }
     s.phase = .running (some .cinit) ∧ s.turns = 0 + 1 ∧ nextStmt s = some (.cmd .lzdec)) ∧
    (let s := { placeCommand 1 (about (.wr .srcLen topAddr)) with turns := 1 }
     s.phase = .running (some .cinit) ∧ s.turns = 0 + 1 ∧ nextStmt s = some (.wr .srcLen topAddr)) := by decide

/-- A variable that is assigned, a difference that is not below zero, and a `LET`. -/
theorem witness_HostExpressions :
    lookupVar (assignVar [] 4 9) 4 = some 9 ∧ (evalHost (.val 2) State.reset).1 ≤ (evalHost (.val 2) State.reset).1 ∧
    (about (.assign 4 topAddr)).phase = .idle ∧ nextStmt (about (.assign 4 topAddr)) = some (.assign 4 topAddr) := by decide

/-- The reference program at `s1ok` with a `Compression` field of 2. -/
def atDispatch (align : KsAlign) (pc : Nat) (comp : Nat) : State :=
  { State.reset with host := { HostState.empty with prog := refProgram align Config.headerSize, pc := pc, vars := [(varComp, comp)] } }

theorem witness_ContainerKinds :
    3 ≤ 3 ∧ (findLabel (refProgram .explicit Config.headerSize) lblS1ok).isSome = true ∧
    (findLabel (refProgram .reference Config.headerSize) lblS1ok).isSome = true ∧ lookupVar (atDispatch .explicit 0 3).host.vars varComp = some 3 ∧
    (∀ pc, (atDispatch .explicit pc 2).phase = .idle ∧ (atDispatch .explicit pc 2).host.ended = none) := by
  refine ⟨by decide, by decide, by decide, by decide, fun _ => ⟨rfl, rfl⟩⟩

/-! ## Placing a word for the next step -/

/-- The word of a row is the instruction that the very next step runs from reset. -/
theorem test_fetch_word :
    step (State.reset.withFetchWord 32 0x1) = exec .cinit (State.reset.withFetchWord 32 0x1) ∧
    step (State.reset.withFetchWord 32 0x13) = exec .decryptS (State.reset.withFetchWord 32 0x13) ∧
    step (State.reset.withFetchWord 32 0x5) = exec .lzdec (State.reset.withFetchWord 32 0x5) := ⟨rfl, rfl, rfl⟩

end Sys2Proof.Tests
end

section
/-! PROOF. The scope's statement on the parameters (R7): which operations leave them alone, and with it that every step does. -/

namespace Sys2Proof.Machine

/-! ## Commands and their start keep the parameters -/

theorem exec_params {i : Instr} {s t : State} (h : exec i s = .next t) : t.params = s.params := by
  obtain ⟨u, hu, frame⟩ := exec_frame i s
  cases hu.symm.trans h
  rw [frame.shape]

@[simp] theorem settleRace_params (i : Instr) (s t : State) : (settleRace i s t).params = t.params := by
  obtain ⟨m, n, r, o, p, h, -⟩ := settleRace_shape i s t
  rw [h]

@[simp] theorem startCommand_params (v : Word) (s : State) : (startCommand v s).params = s.params := rfl

/-! ## The register window and a reset keep the parameters -/

@[simp] theorem windowWrite_params (off width : Nat) (v : Word) (s : State) :
    (windowWrite off width v s).params = s.params := by
  rcases windowWrite_cases off width v s with h | ⟨-, h | ⟨a, b, c, d, e, h⟩⟩ <;> rw [h]
  exact startCommand_params v s

@[simp] theorem windowRead_params (off width : Nat) (s : State) : (windowRead off width s).2.params = s.params := by
  rcases windowRead_cases off width s with ⟨w, n, h⟩ | ⟨-, h⟩ <;> rw [h]
  exact setDraws_params s n

@[simp] theorem resetBlock_params (s : State) : (resetBlock s).params = s.params := rfl

@[simp] theorem platformReset_params (s : State) : (platformReset s).params = s.params := by
  rcases platformReset_cases s with ⟨-, h⟩ | ⟨m, n, h, -⟩ <;> rw [h] <;> rfl

/-! ## The host's operations keep the parameters -/

@[simp] theorem evalHost_params (e : Expr) (s : State) : (evalHost e s).2.params = s.params := rfl

@[simp] theorem evalWord_params (e : Expr) (s : State) : (evalWord e s).2.params = s.params := by
  obtain ⟨n, h⟩ := evalWord_shape e s
  rw [h, setDraws_params]

@[simp] theorem advance_params (s : State) : (advance s).params = s.params := rfl

@[simp] theorem setVar_params (x : Var) (v : Nat) (s : State) : (setVar x v s).params = s.params := rfl

@[simp] theorem keepIn_params (keep : Option Var) (w : Word) (s : State) : (keepIn keep w s).params = s.params := by
  cases keep <;> rfl

@[simp] theorem markTouched_params (hit : Bool) (x : Nat) (s : State) : (markTouched hit x s).params = s.params := by
  rw [markTouched_cases, setTouched_params]

theorem hostReadByte_params {x : Nat} {b : Byte} {s t : State} (h : hostReadByte x s = .ok b t) : t.params = s.params := by
  rcases hostReadByte_cases x s with ⟨f, hf⟩ | ⟨-, c, n, hr⟩
  · cases hf.symm.trans h
  · cases hr.symm.trans h
    simp

theorem hostWriteByte_params {x : Nat} {v : Byte} {s t : State} (h : hostWriteByte x v s = .ok () t) :
    t.params = s.params := by
  rcases hostWriteByte_cases x v s with ⟨f, hf⟩ | ⟨-, b, n, l, u, hw, -⟩
  · cases hf.symm.trans h
  · cases hw.symm.trans h
    simp

theorem hostReadBytes_params (n : Nat) : ∀ {x : Nat} {bs : List Byte} {s t : State},
    hostReadBytes x n s = .ok bs t → t.params = s.params := by
  induction n with
  | zero => intro x bs s t h; cases h; rfl
  | succ n ih =>
    intro x bs s t h
    rw [hostReadBytes] at h
    cases h1 : hostReadByte x s with
    | fault f => simp [h1] at h
    | ok b s1 =>
      cases h2 : hostReadBytes (x + 1) n s1 with
      | fault f => simp [h1, h2] at h
      | ok cs s2 =>
        simp only [h1, h2] at h
        cases h
        exact (ih h2).trans (hostReadByte_params h1)

theorem hostWriteBytes_params (bs : List Byte) : ∀ {x : Nat} {s t : State},
    hostWriteBytes x bs s = .ok () t → t.params = s.params := by
  induction bs with
  | nil => intro x s t h; cases h; rfl
  | cons b bs ih =>
    intro x s t h
    rw [hostWriteBytes] at h
    cases h1 : hostWriteByte x b s with
    | fault f => simp [h1] at h
    | ok a s1 =>
      simp only [h1] at h
      exact (ih h).trans (hostWriteByte_params h1)

/-! ## Outcomes that keep the parameters -/

/-- An outcome that answers no next state but one with these parameters. -/
def KeepsParams (p : Params) (o : Host.Outcome State Fault Refusal) : Prop := ∀ t, o = .next t → t.params = p

@[simp] theorem keepsParams_next {p : Params} {t : State} : KeepsParams p (.next t) ↔ t.params = p :=
  ⟨fun h => h t rfl, fun h _ e => by cases e; exact h⟩

@[simp] theorem keepsParams_fault (p : Params) (f : Fault) : KeepsParams p (.fault f) := fun _ h => nomatch h

@[simp] theorem keepsParams_refused (p : Params) (r : Refusal) : KeepsParams p (.refused r) := fun _ h => nomatch h

theorem branchIf_keepsParams (c : Bool) (l : Label) (s : State) : KeepsParams s.params (branchIf c l s) := by
  unfold branchIf goto
  split
  · split <;> simp
  · simp

theorem afterWrite_keepsParams (x : Nat) (bs : List Byte) (s : State) :
    KeepsParams s.params (afterWrite (hostWriteBytes x bs s)) := by
  cases h : hostWriteBytes x bs s with
  | fault f => exact keepsParams_fault _ f
  | ok a t =>
    have ht : t.params = s.params := hostWriteBytes_params bs h
    exact keepsParams_next.mpr ht

theorem hostMemrd_keepsParams (addr n : Expr) (x : Var) (s : State) : KeepsParams s.params (hostMemrd addr n x s) := by
  unfold hostMemrd
  dsimp only
  split
  · exact keepsParams_fault _ _
  · rename_i h
    simpa using hostReadBytes_params _ h

theorem hostMemcpy_keepsParams (dst src n : Expr) (s : State) : KeepsParams s.params (hostMemcpy dst src n s) := by
  unfold hostMemcpy
  dsimp only
  split
  · exact keepsParams_fault _ _
  · rename_i bs t h
    have ht : t.params = s.params := by simpa using hostReadBytes_params _ h
    exact ht ▸ afterWrite_keepsParams _ bs t

theorem hostFatal_keepsParams (f : Fatal) (code : Option Expr) (s : State) :
    KeepsParams s.params (hostFatal f code s) := by
  cases code <;> simp [hostFatal]

theorem hostBusWrite_keepsParams (addr : Expr) (width : Nat) (e : Expr) (s : State) :
    KeepsParams s.params (hostBusWrite addr width e s) := by
  unfold hostBusWrite
  dsimp only
  split <;> simp

theorem hostBusRead_keepsParams (addr : Expr) (width : Nat) (keep : Option Var) (s : State) :
    KeepsParams s.params (hostBusRead addr width keep s) := by
  unfold hostBusRead
  dsimp only
  split <;> simp

/-- No statement of the host program, the reset included, changes a parameter (R92, R260). -/
theorem hostStmt_keepsParams (st : Stmt) (s : State) : KeepsParams s.params (hostStmt st s) := by
  cases st with
  | wr r e => simp [hostStmt, hostWr]
  | rd r keep => simp [hostStmt, hostRd]
  | cmd m => simp [hostStmt, hostCmd]
  | memset addr bytes => exact afterWrite_keepsParams _ bytes _
  | memrd addr n x => exact hostMemrd_keepsParams addr n x s
  | memcpy dst src n => exact hostMemcpy_keepsParams dst src n s
  | memfill addr n b => exact afterWrite_keepsParams _ _ _
  | assign x e => simp [hostStmt, hostAssign]
  | beq a b l => exact branchIf_keepsParams _ l _
  | bne a b l => exact branchIf_keepsParams _ l _
  | bltu a b l => exact branchIf_keepsParams _ l _
  | note n => simp [hostStmt, hostNote]
  | fatal f code => exact hostFatal_keepsParams f code s
  | halt => simp [hostStmt, hostHalt]
  | busWrite addr width e => exact hostBusWrite_keepsParams addr width e s
  | busRead addr width keep => exact hostBusRead_keepsParams addr width keep s
  | reset => simp [hostStmt, hostReset]

theorem hostTurn_keepsParams (s : State) : KeepsParams s.params (hostTurn s) := by
  unfold hostTurn
  split
  · simp
  · exact hostStmt_keepsParams _ s

/-- The transition of a running command changes no parameter, whether or not the host has raced with it (R73, R269). -/
theorem runCommand_keepsParams (op : Option Instr) (s : State) : KeepsParams s.params (runCommand op s) := by
  cases op with
  | none => simp [runCommand]
  | some i =>
    obtain ⟨u, hu, -, ⟨-, hrun⟩ | ⟨-, t, m, n, -, ht, -, hrun, -⟩⟩ := runCommand_cases i s <;> rw [hrun]
    · simpa using exec_params hu
    · simpa using exec_params ht

theorem step_keepsParams (s : State) : KeepsParams s.params (step s) := by
  unfold step systemStep
  split
  · exact hostTurn_keepsParams s
  · split
    · exact runCommand_keepsParams _ s
    · exact hostTurn_keepsParams { s with turns := s.turns - 1 }

/-- Settles O48: commands, their races, the host's statements and a reset each keep the parameters; the values after reset are those
of `Params.default`. -/
theorem stepsKeepTheParameters : Obligations.StepsKeepTheParameters :=
  ⟨step_keepsParams, rfl, rfl, rfl, fun _ => rfl⟩

end Sys2Proof.Machine
end

section
/-! PROOF. Hidden state stays hidden (R40, R48, R49). Two runs of one command are followed side by side: `DECRYPT` by the part of
the table below slot 252, which its seeding makes equal, and `LZDEC` by the cursor, the dictionary and `W`, which its start makes
equal, and `RACK`, which a byte is loaded into before a bit of it is read. -/

namespace Sys2Proof.Machine

/-! ## Two runs of a command's part -/

/-- A part of a command and then another one, unless the first ends the command (R9). -/
def Res.bind {α β : Type} (r : Res α) (k : α → State → Res β) : Res β :=
  match r with
  | .ok a s => k a s
  | .stop c s => .stop c s

/-- Two runs of one part end alike: both go on with one value or both stop with one code, in states that are related. -/
inductive ResRel (R : State → State → Prop) {α : Type} : Res α → Res α → Prop
  | ok (a : α) {s t : State} (h : R s t) : ResRel R (.ok a s) (.ok a t)
  | stop (c : ErrCode) {s t : State} (h : R s t) : ResRel R (.stop c s) (.stop c t)

theorem ResRel.bind {R : State → State → Prop} {α β : Type} {r r' : Res α} (h : ResRel R r r') {k : α → State → Res β}
    (hk : ∀ a s t, R s t → ResRel R (k a s) (k a t)) : ResRel R (r.bind k) (r'.bind k) := by
  cases h with
  | ok a h => exact hk a _ _ h
  | stop c h => exact .stop c h

/-! ## What two states that are the same to the host share -/

theorem SameToHost.ksv {s t : State} (h : SameToHost s t) : t.ksv = s.ksv := by rw [h.1]

theorem SameToHost.seed {s t : State} (h : SameToHost s t) : t.seed = s.seed := by rw [h.1]

theorem SameToHost.srcAddr {s t : State} (h : SameToHost s t) : t.srcAddr = s.srcAddr := by rw [h.1]

theorem SameToHost.srcLen {s t : State} (h : SameToHost s t) : t.srcLen = s.srcLen := by rw [h.1]

theorem SameToHost.dstAddr {s t : State} (h : SameToHost s t) : t.dstAddr = s.dstAddr := by rw [h.1]

theorem SameToHost.dstLen {s t : State} (h : SameToHost s t) : t.dstLen = s.dstLen := by rw [h.1]

theorem SameToHost.outCount {s t : State} (h : SameToHost s t) : t.outCount = s.outCount := by rw [h.1]

theorem SameToHost.mem {s t : State} (h : SameToHost s t) : t.mem = s.mem := by rw [h.1]

theorem SameToHost.params {s t : State} (h : SameToHost s t) : t.params = s.params := by rw [h.1]

theorem SameToHost.precheck {s t : State} (h : SameToHost s t) (i : Instr) : precheck i t = precheck i s := by
  rw [h.1]
  cases i <;> rfl

theorem SameToHost.setMem {s t : State} (h : SameToHost s t) (m : List Host.Cell) : SameToHost (s.setMem m) (t.setMem m) :=
  ⟨congrArg (State.setMem · m) h.1, h.2⟩

theorem SameToHost.complete {s t : State} (h : SameToHost s t) (c : ErrCode) : SameToHost (complete c s) (complete c t) :=
  ⟨congrArg (Machine.complete c) h.1, h.2⟩

theorem SameToHost.setResult {s t : State} (h : SameToHost s t) (v : Word) :
    SameToHost { s with result := v } { t with result := v } :=
  ⟨congrArg (fun u : State => { u with result := v }) h.1, h.2⟩

/-! ## Memory accesses see the memory and the parameters alone -/

section
variable {s t : State} (hm : t.mem = s.mem) (hp : t.params = s.params)
include hp

theorem memFault_congr (x : Nat) : memFault t x = memFault s x := by rw [memFault, memFault, hp]

include hm

theorem readByte_congr (x : Nat) : readByte x t = readByte x s := by
  rw [readByte, readByte, memFault_congr hp, hm]

theorem memRead_congr (n : Nat) : ∀ x, memRead x n t = memRead x n s := by
  induction n with
  | zero => exact fun _ => rfl
  | succ n ih => exact fun x => by rw [memRead, memRead, readByte_congr hm hp, ih]

theorem readWord_congr (x : Nat) : readWord x t = readWord x s := by
  rw [readWord, readWord, memRead_congr hm hp]

theorem csumLoop_congr (n : Nat) : ∀ i x acc, csumLoop n i x acc t = csumLoop n i x acc s := by
  induction n with
  | zero => exact fun _ _ _ => rfl
  | succ n ih =>
    intro i x acc
    rw [csumLoop, csumLoop, readWord_congr hm hp]
    cases readWord x s with
    | none => rfl
    | some w => exact ih _ _ _

end

/-- A byte write succeeds in both states, with one memory, or in neither. -/
theorem SameToHost.writeByte {s t : State} (h : SameToHost s t) (x : Nat) (v : Byte) :
    (writeByte x v s = none ∧ writeByte x v t = none) ∨
      ∃ m, writeByte x v s = some (s.setMem m) ∧ writeByte x v t = some (t.setMem m) := by
  have hf := memFault_congr h.params x
  rcases writeByte_cases s x v with ⟨hs, hw⟩ | ⟨hs, hw⟩
  · exact .inl ⟨hw, writeByte_of_fault v (hf.trans hs)⟩
  · exact .inr ⟨_, hw, by rw [writeByte_of_ok v (hf.trans hs), h.mem]⟩

/-! ## The cipher -/

/-- A draw depends on the table below slot 252 alone, the word drawn and what it leaves there. -/
theorem keyStep_low {l : Literals} (hl : CipherSizes l) {t u : List Word} (h : ∀ i, i < 252 → tabGet u i = tabGet t i) :
    (keyStep l u).1 = (keyStep l t).1 ∧ ∀ i, i < 252 → tabGet (keyStep l u).2 i = tabGet (keyStep l t).2 i := by
  have ha := cursorIndex_lt hl (tabGet t 0)
  have hb := cursorIndex_lt hl (tabGet t 1)
  have hw : (keyStep l u).1 = (keyStep l t).1 := by
    rw [keyStep_word hl, keyStep_word hl, h 0 (by omega), h 1 (by omega), h _ (by omega), h _ (by omega)]
  refine ⟨hw, fun i hi => ?_⟩
  rw [keyStep_tab hl, keyStep_tab hl, h 0 (by omega), h 1 (by omega), hw, h i hi]

/-- Two states that are the same to the host and past the seeding of the cipher. -/
structure SameSeeded (s t : State) : Prop where
  same : SameToHost s t
  seeded : s.ksv = true
  sizes : CipherSizes s.params.lits

theorem SameSeeded.low {s t : State} (h : SameSeeded s t) : ∀ i, i < 252 → tabGet t.tab i = tabGet s.tab i :=
  h.same.2 h.seeded

theorem SameSeeded.setMem {s t : State} (h : SameSeeded s t) (m : List Host.Cell) : SameSeeded (s.setMem m) (t.setMem m) :=
  ⟨h.same.setMem m, h.seeded, h.sizes⟩

theorem SameSeeded.cipherNext {s t : State} (h : SameSeeded s t) :
    (cipherNext t).1 = (cipherNext s).1 ∧ SameSeeded (cipherNext s).2 (cipherNext t).2 := by
  obtain ⟨hw, ht⟩ := keyStep_low h.sizes h.low
  rw [cipherNext_eq, cipherNext_eq, h.same.params]
  exact ⟨hw, ⟨congrArg (State.setTab · _) h.same.1, fun _ => ht⟩, h.seeded, h.sizes⟩

/-- Seeding gives both states tables that are the same below slot 252, whatever they were. -/
theorem SameToHost.seeded {s t : State} (h : SameToHost s t) (hl : CipherSizes s.params.lits) (a b : Nat) {u v : List Word}
    (hu : ∀ i, i < 252 → tabGet v i = tabGet u i) :
    SameSeeded { s with acc := a, tab := u, ksv := true } { t with acc := b, tab := v, ksv := true } :=
  ⟨⟨congrArg (fun r : State => { r with acc := b, tab := v, ksv := true }) h.1, fun _ => hu⟩, rfl, hl⟩

theorem cipherInit_sameSeeded {s t : State} (h : SameToHost s t) (hl : CipherSizes s.params.lits) (seed : Word) :
    SameSeeded (cipherInit seed s) (cipherInit seed t) := by
  refine h.seeded hl _ _ fun i hi => ?_
  rw [h.params]
  exact seedTable_low hl seed _ _ hi

theorem decryptSetup_sameSeeded {s t : State} (h : SameToHost s t) (hl : CipherSizes s.params.lits) (seed : Word) :
    SameSeeded (decryptSetup seed s) (decryptSetup seed t) := by
  rw [decryptSetup_eq, decryptSetup_eq]
  refine h.seeded hl _ _ fun i hi => ?_
  rw [decryptTable, decryptTable, h.params]
  exact seedTable_low hl seed _ _ hi

theorem memWrite_sameSeeded (n : Nat) : ∀ (x v : Nat) {s t : State}, SameSeeded s t →
    ResRel SameSeeded (memWrite x n v s) (memWrite x n v t) := by
  induction n with
  | zero => exact fun _ _ _ _ h => .ok () h
  | succ n ih =>
    intro x v s t h
    rcases h.same.writeByte x (BitVec.ofNat 8 v) with ⟨hs, ht⟩ | ⟨m, hs, ht⟩ <;> simp only [memWrite, hs, ht]
    · exact .stop .bus h
    · exact ih _ _ (h.setMem m)

/-- A pass of the word loop whose word is read (R111). -/
theorem decryptWords_succ {x : Nat} {s : State} {w : Word} (hr : readWord x s = some w) (n : Nat) :
    decryptWords (n + 1) x s =
      (memWrite x 4 (w ^^^ (cipherNext s).1).toNat (cipherNext s).2).bind fun _ s1 => decryptWords n (x + 4) s1 := by
  simp only [decryptWords, hr]
  cases memWrite x 4 (w ^^^ (cipherNext s).1).toNat (cipherNext s).2 <;> rfl

theorem decryptWords_sameSeeded (n : Nat) : ∀ (x : Nat) {s t : State}, SameSeeded s t →
    ResRel SameSeeded (decryptWords n x s) (decryptWords n x t) := by
  induction n with
  | zero => exact fun _ _ _ h => .ok () h
  | succ n ih =>
    intro x s t h
    have hc := readWord_congr h.same.mem h.same.params x
    cases hr : readWord x s with
    | none =>
      simp only [decryptWords, hc, hr]
      exact .stop .bus h
    | some w =>
      obtain ⟨hk, h1⟩ := h.cipherNext
      rw [decryptWords_succ hr, decryptWords_succ (hc.trans hr), hk]
      exact (memWrite_sameSeeded 4 x _ h1).bind fun _ _ _ => ih (x + 4)

theorem decryptTailBytes_sameSeeded (n : Nat) : ∀ (j x : Nat) (k : Word) {s t : State}, SameSeeded s t →
    ResRel SameSeeded (decryptTailBytes n j x k s) (decryptTailBytes n j x k t) := by
  induction n with
  | zero => exact fun _ _ _ _ _ h => .ok () h
  | succ n ih =>
    intro j x k s t h
    have hc := readByte_congr h.same.mem h.same.params x
    cases hr : readByte x s with
    | none =>
      simp only [decryptTailBytes, hc, hr]
      exact .stop .bus h
    | some b =>
      rcases h.same.writeByte x (b ^^^ tailByte s.params.tailOrder k j) with ⟨hs, ht⟩ | ⟨m, hs, ht⟩ <;>
        simp only [decryptTailBytes, hc, hr, h.same.params, hs, ht]
      · exact .stop .bus h
      · exact ih _ _ k (h.setMem m)

theorem decryptTail_sameSeeded (n x : Nat) {s t : State} (h : SameSeeded s t) :
    ResRel SameSeeded (decryptTail n x s) (decryptTail n x t) := by
  unfold decryptTail
  split
  · exact .ok () h
  · obtain ⟨hk, h1⟩ := h.cipherNext
    dsimp only
    rw [hk]
    exact decryptTailBytes_sameSeeded n 0 x _ h1

/-- The end of `DECRYPT`'s body (R221). -/
def decryptEnd (r : Res Unit) : State :=
  match r with
  | .stop c s => complete c s
  | .ok _ s => complete .ok s

theorem decryptBody_eq (seed : Word) (base n : Nat) (s : State) :
    decryptBody seed base n s = decryptEnd ((decryptWords (n / 4) base (decryptSetup seed s)).bind fun _ s1 =>
      decryptTail (n % 4) (base + 4 * (n / 4)) s1) := by
  unfold decryptBody
  cases decryptWords (n / 4) base (decryptSetup seed s) with
  | stop c s1 => rfl
  | ok a s1 =>
    dsimp only [Res.bind]
    cases decryptTail (n % 4) (base + 4 * (n / 4)) s1 <;> rfl

theorem decryptEnd_sameToHost {r r' : Res Unit} (h : ResRel SameSeeded r r') :
    SameToHost (decryptEnd r) (decryptEnd r') := by
  cases h with
  | ok a h => exact h.same.complete .ok
  | stop c h => exact h.same.complete c

theorem decryptBody_sameToHost {s t : State} (h : SameToHost s t) (hl : CipherSizes s.params.lits) (seed : Word)
    (base n : Nat) : SameToHost (decryptBody seed base n s) (decryptBody seed base n t) := by
  rw [decryptBody_eq, decryptBody_eq]
  exact decryptEnd_sameToHost ((decryptWords_sameSeeded _ _ (decryptSetup_sameSeeded h hl seed)).bind fun _ _ _ =>
    decryptTail_sameSeeded _ _)

/-! ## The decompressor -/

/-- Two states in the course of an `LZDEC` that are the same to the host, and of whose decompressor only `RACK` may differ, and that
only before a byte is loaded into it. -/
structure SameUnpacking (s t : State) : Prop where
  shape : t = { s with tab := t.tab, acc := t.acc, rack := t.rack }
  low : s.ksv = true → ∀ i, i < 252 → tabGet t.tab i = tabGet s.tab i
  rack : s.mask ≠ 0x80 → t.rack = s.rack

theorem SameUnpacking.dict {s t : State} (h : SameUnpacking s t) : t.dict = s.dict := by rw [h.shape]

theorem SameUnpacking.wIndex {s t : State} (h : SameUnpacking s t) : t.wIndex = s.wIndex := by rw [h.shape]

theorem SameUnpacking.pos {s t : State} (h : SameUnpacking s t) : t.pos = s.pos := by rw [h.shape]

theorem SameUnpacking.mask {s t : State} (h : SameUnpacking s t) : t.mask = s.mask := by rw [h.shape]

theorem SameUnpacking.same {s t : State} (h : SameUnpacking s t) : SameToHost s t := by
  refine ⟨?_, h.low⟩
  rw [h.dict, h.wIndex, h.pos, h.mask]
  exact h.shape

theorem SameUnpacking.setCursor {s t : State} (h : SameUnpacking s t) (p : Word) (m r : Byte) :
    SameUnpacking (s.setCursor p m r) (t.setCursor p m r) :=
  ⟨congrArg (State.setCursor · p m r) h.shape, h.low, fun _ => rfl⟩

/-- A load stops in both states or gives both one cursor. -/
theorem SameUnpacking.cursorLoad {s t : State} (h : SameUnpacking s t) :
    (∃ c, cursorLoad s = .stop c s ∧ cursorLoad t = .stop c t) ∨
      ∃ p r, cursorLoad s = .ok () (s.setCursor p s.mask r) ∧ cursorLoad t = .ok () (t.setCursor p s.mask r) := by
  unfold Machine.cursorLoad
  rw [h.mask, h.pos, h.same.srcLen, h.same.srcAddr, readByte_congr h.same.mem h.same.params]
  split
  · split
    · exact .inl ⟨_, rfl, rfl⟩
    · cases readByte (s.srcAddr.toNat + s.pos.toNat) s with
      | none => exact .inl ⟨_, rfl, rfl⟩
      | some b => exact .inr ⟨_, b, rfl, rfl⟩
  · rename_i hm
    refine .inr ⟨s.pos, s.rack, rfl, ?_⟩
    rw [← h.pos, ← h.mask, ← h.rack hm]
    rfl

theorem readBit_sameUnpacking {s t : State} (h : SameUnpacking s t) : ResRel SameUnpacking (readBit s) (readBit t) := by
  rcases h.cursorLoad with ⟨c, hs, ht⟩ | ⟨p, r, hs, ht⟩ <;> simp only [readBit, hs, ht]
  · exact .stop c h
  · exact .ok _ (h.setCursor p _ r)

theorem readBits_succ (n v : Nat) (s : State) :
    readBits (n + 1) v s = (readBit s).bind fun b s1 => readBits n (2 * v + b.toNat) s1 := by
  rw [readBits]
  cases readBit s <;> rfl

theorem readBits_sameUnpacking (n : Nat) : ∀ (v : Nat) {s t : State}, SameUnpacking s t →
    ResRel SameUnpacking (readBits n v s) (readBits n v t) := by
  induction n with
  | zero => exact fun v _ _ h => .ok v h
  | succ n ih =>
    intro v s t h
    rw [readBits_succ, readBits_succ]
    exact (readBit_sameUnpacking h).bind fun b _ _ => ih (2 * v + b.toNat)

/-- The rest of a symbol after its decision bit (R89 to R91). -/
def symbolRest (l : Literals) (d : Nat) (s : State) : Res Symbol :=
  if d = 1 then (readBits l.literalBits 0 s).bind fun v s1 => .ok (Symbol.literal v) s1
  else
    (readBits l.offsetBits 0 s).bind fun off s1 =>
      if off = 0 then .ok Symbol.endOfStream s1
      else (readBits l.lengthBits 0 s1).bind fun len s2 => .ok (Symbol.copy off len) s2

theorem readSymbol_eq (s : State) : readSymbol s = (readBits 1 0 s).bind (symbolRest s.params.lits) := by
  unfold readSymbol
  cases readBits 1 0 s with
  | stop c s1 => rfl
  | ok d s1 =>
    show _ = symbolRest s.params.lits d s1
    unfold symbolRest
    dsimp only
    split
    · cases readBits s.params.lits.literalBits 0 s1 <;> rfl
    · cases readBits s.params.lits.offsetBits 0 s1 with
      | stop c s2 => rfl
      | ok off s2 =>
        show (if off = 0 then _ else _) = if off = 0 then _ else _
        split
        · rfl
        · cases readBits s.params.lits.lengthBits 0 s2 <;> rfl

theorem symbolRest_sameUnpacking (l : Literals) (d : Nat) {s t : State} (h : SameUnpacking s t) :
    ResRel SameUnpacking (symbolRest l d s) (symbolRest l d t) := by
  unfold symbolRest
  split
  · exact (readBits_sameUnpacking _ 0 h).bind fun v _ _ h1 => .ok (Symbol.literal v) h1
  · refine (readBits_sameUnpacking _ 0 h).bind fun off _ _ h1 => ?_
    split
    · exact .ok Symbol.endOfStream h1
    · exact (readBits_sameUnpacking _ 0 h1).bind fun len _ _ h2 => .ok (Symbol.copy off len) h2

theorem readSymbol_sameUnpacking {s t : State} (h : SameUnpacking s t) :
    ResRel SameUnpacking (readSymbol s) (readSymbol t) := by
  rw [readSymbol_eq, readSymbol_eq, h.same.params]
  exact (readBits_sameUnpacking 1 0 h).bind fun d _ _ => symbolRest_sameUnpacking _ d

theorem emitted_sameUnpacking {s t : State} (h : SameUnpacking s t) (c : Byte) :
    SameUnpacking (emitted c s) (emitted c t) :=
  ⟨congrArg (emitted c) h.shape, h.low, h.rack⟩

/-- `Emit` as one expression: where it faults, where it fills the output, and else (R145, R149, R230). -/
theorem emit_eq (c : Byte) (s : State) : emit c s =
    if memFault s (s.dstAddr.toNat + s.outCount.toNat) then .stop .bus s
    else if s.outCount + 1 = s.dstLen then .stop .ok (emitted c s) else .ok () (emitted c s) := by
  rcases emit_cases c s with ⟨hf, he⟩ | ⟨hf, hd, he⟩ | ⟨hf, hd, he⟩
  · rw [he, if_pos hf]
  · rw [he, if_neg (by simp [hf]), if_pos hd]
  · rw [he, if_neg (by simp [hf]), if_neg hd]

theorem emit_sameUnpacking {s t : State} (h : SameUnpacking s t) (c : Byte) : ResRel SameUnpacking (emit c s) (emit c t) := by
  rw [emit_eq, emit_eq, h.same.dstAddr, h.same.outCount, h.same.dstLen, memFault_congr h.same.params]
  split
  · exact .stop .bus h
  · split
    · exact .stop .ok (emitted_sameUnpacking h c)
    · exact .ok () (emitted_sameUnpacking h c)

theorem copyMatch_succ (n off : Nat) (s : State) : copyMatch (n + 1) off s =
    (emit (dictGet s.dict (off % s.params.lits.dictSize)) s).bind fun _ s1 => copyMatch n (off + 1) s1 := by
  rw [copyMatch]
  cases emit (dictGet s.dict (off % s.params.lits.dictSize)) s <;> rfl

theorem copyMatch_sameUnpacking (n : Nat) : ∀ (off : Nat) {s t : State}, SameUnpacking s t →
    ResRel SameUnpacking (copyMatch n off s) (copyMatch n off t) := by
  induction n with
  | zero => exact fun _ _ _ h => .ok () h
  | succ n ih =>
    intro off s t h
    rw [copyMatch_succ, copyMatch_succ, h.dict, h.same.params]
    exact (emit_sameUnpacking h _).bind fun _ _ _ => ih (off + 1)

theorem applySymbol_sameUnpacking (sym : Symbol) {s t : State} (h : SameUnpacking s t) :
    ResRel SameUnpacking (applySymbol sym s) (applySymbol sym t) := by
  cases sym with
  | literal c => exact emit_sameUnpacking h _
  | copy off len =>
    rw [applySymbol, applySymbol, h.same.params]
    exact copyMatch_sameUnpacking _ off h
  | endOfStream =>
    exact .stop .ok ⟨congrArg (fun r : State => { r with eos := true }) h.shape, h.low, h.rack⟩

theorem lzPass_eq (s : State) : lzPass s = (readSymbol s).bind applySymbol := by
  rw [lzPass]
  cases readSymbol s <;> rfl

theorem lzLoop_succ (n : Nat) (s : State) : lzLoop (n + 1) s = (lzPass s).bind fun _ s1 => lzLoop n s1 := by
  rw [lzLoop]
  cases lzPass s <;> rfl

theorem lzLoop_sameUnpacking (n : Nat) : ∀ {s t : State}, SameUnpacking s t →
    ResRel SameUnpacking (lzLoop n s) (lzLoop n t) := by
  induction n with
  | zero => exact fun h => .ok () h
  | succ n ih =>
    intro s t h
    rw [lzLoop_succ, lzLoop_succ, lzPass_eq, lzPass_eq]
    exact ((readSymbol_sameUnpacking h).bind fun sym _ _ => applySymbol_sameUnpacking sym).bind fun _ _ _ => ih

/-- The start of `LZDEC` makes the dictionary, `W` and the cursor but for `RACK` the same (R141). -/
theorem lzStart_sameUnpacking {s t : State} (h : SameToHost s t) : SameUnpacking (lzStart s) (lzStart t) :=
  ⟨congrArg lzStart h.1, h.2, fun hm => absurd rfl hm⟩

theorem lzStop_sameToHost {s t : State} (h : SameUnpacking s t) (c : ErrCode) : SameToHost (lzStop c s) (lzStop c t) :=
  SameUnpacking.same ⟨congrArg (lzStop c) h.shape, h.low, h.rack⟩

/-! ## The commands -/

theorem exec_lzdec_sameToHost {s s' : State} (h : SameToHost s s') (hp : precheck .lzdec s = none) :
    ∃ t t', exec .lzdec s = .next t ∧ exec .lzdec s' = .next t' ∧ SameToHost t t' := by
  obtain ⟨c, t, he, -, -, -, ht⟩ := exec_lzdec_cases hp
  obtain ⟨c', t', he', -, -, -, ht'⟩ := exec_lzdec_cases ((h.precheck .lzdec).trans hp)
  refine ⟨_, _, he, he', ?_⟩
  rw [h.dstLen] at ht'
  rcases ht with ⟨hd, rfl, rfl⟩ | ⟨hd, hl, -⟩ <;> rcases ht' with ⟨hd', rfl, rfl⟩ | ⟨hd', hl', -⟩
  · exact lzStop_sameToHost (lzStart_sameUnpacking h) .ok
  · exact absurd hd hd'
  · exact absurd hd' hd
  · have hr := lzLoop_sameUnpacking (lzPassBound s) (lzStart_sameUnpacking h)
    have hb : lzPassBound s' = lzPassBound s := by rw [lzPassBound, lzPassBound, h.srcLen, h.params]
    rw [hl, ← hb, hl'] at hr
    cases hr with
    | stop c hu => exact lzStop_sameToHost hu c

theorem exec_decryptS_sameToHost {s s' : State} (h : SameToHost s s') (hl : CipherSizes s.params.lits)
    (hp : precheck .decryptS s = none) :
    ∃ t t', exec .decryptS s = .next t ∧ exec .decryptS s' = .next t' ∧ SameToHost t t' := by
  have hp' := (h.precheck .decryptS).trans hp
  have hr' := readWord_congr h.mem h.params s.srcAddr.toNat
  cases hr : readWord s.srcAddr.toNat s with
  | none =>
    exact ⟨complete .bus s, complete .bus s', by simp only [exec, execDecryptS, hp, hr, raiseError_eq],
      by simp only [exec, execDecryptS, hp', h.srcAddr, hr', hr, raiseError_eq], h.complete .bus⟩
  | some w =>
    refine ⟨_, _, ?_, ?_, decryptBody_sameToHost h hl w (s.srcAddr.toNat + 4) (s.srcLen.toNat - 4)⟩
    · simp only [exec, execDecryptS, hp, hr]
    · simp only [exec, execDecryptS, hp', h.srcAddr, h.srcLen, hr', hr]

theorem exec_csum_sameToHost {s s' : State} (h : SameToHost s s') (hp : precheck .csum s = none) :
    ∃ t t', exec .csum s = .next t ∧ exec .csum s' = .next t' ∧ SameToHost t t' := by
  have hc := csumLoop_congr h.mem h.params (s.srcLen.toNat / 4) 0 s.srcAddr.toNat 0
  rcases exec_csum_cases hp with ⟨v, hv, he⟩ | ⟨hv, he⟩ <;>
    rcases exec_csum_cases ((h.precheck .csum).trans hp) with ⟨v', hv', he'⟩ | ⟨hv', he'⟩ <;>
    rw [h.srcLen, h.srcAddr, hc, hv] at hv'
  · cases hv'
    exact ⟨_, _, he, he', (h.setResult v).complete .ok⟩
  · cases hv'
  · cases hv'
  · exact ⟨_, _, he, he', h.complete .bus⟩

theorem exec_cnext_sameToHost {s s' : State} (h : SameToHost s s') (hl : CipherSizes s.params.lits)
    (hk : s.ksv = true) : ∃ t t', exec .cnext s = .next t ∧ exec .cnext s' = .next t' ∧ SameToHost t t' := by
  obtain ⟨hw, hn⟩ := SameSeeded.cipherNext ⟨h, hk, hl⟩
  refine ⟨_, _, exec_cnext hk, exec_cnext (h.ksv.trans hk), ?_⟩
  rw [show (keyStep s'.params.lits s'.tab).1 = _ from hw]
  exact (hn.same.setResult _).complete .ok

/-- Settles O37: a command whose pre-check fails changes no hidden state; past it, each command keeps the two runs the same to the
host, `DECRYPT` and `CINIT` by seeding both tables, `CNEXT` because they were seeded. -/
theorem hiddenStateStaysHidden : Obligations.HiddenStateStaysHidden := by
  intro i s s' hl h
  cases hp : precheck i s with
  | some c => exact ⟨_, _, exec_of_precheck hp, exec_of_precheck ((h.precheck i).trans hp), h.complete c⟩
  | none =>
    cases i with
    | cinit =>
      exact ⟨_, _, exec_cinit s, exec_cinit s', h.seed ▸ (cipherInit_sameSeeded h hl s.seed).same.complete .ok⟩
    | cnext =>
      have hk : s.ksv = true := by simpa [precheck] using hp
      exact exec_cnext_sameToHost h hl hk
    | decrypt =>
      refine ⟨_, _, exec_decrypt hp, exec_decrypt ((h.precheck .decrypt).trans hp), ?_⟩
      rw [h.seed, h.srcAddr, h.srcLen]
      exact decryptBody_sameToHost h hl _ _ _
    | decryptS => exact exec_decryptS_sameToHost h hl hp
    | csum => exact exec_csum_sameToHost h hp
    | lzdec => exact exec_lzdec_sameToHost h hp

end Sys2Proof.Machine
end

section
/-! PROOF. The invariant of every step (R22, R36 to R38, R41, R44 to R47, R60): its parts in numbers, which updates of the state keep
it, and with them that commands, races, the host's statements and a reset do. -/

namespace Sys2Proof.Machine

/-! ## The parts of the invariant -/

theorem memOk_iff {s : State} : memOk s = true ↔ Memory.wf s.mem = true ∧ Memory.below (memSize s) s.mem = true := by
  rw [memOk, Bool.and_eq_true]

theorem cursorsOk_iff {s : State} : cursorsOk s = true ↔ (s.ksv = true → CursorPair s.tab) := by
  cases h : s.ksv <;> simp [cursorsOk, CursorPair, h]

theorem loansOk_iff {s : State} :
    loansOk s = true ↔ (∀ l ∈ s.held, l.region.inRange (memSize s) = true) ∧ ∀ x ∈ s.touched, x < memSize s := by
  simp only [loansOk, Bool.and_eq_true, List.all_eq_true, decide_eq_true_eq]

theorem statusOk_idle {s : State} (hp : s.phase = .idle) :
    statusOk s = true ↔ s.touched = [] ∧ (s.eos = true → s.done = true ∧ s.err = .ok) ∧ (s.done = false → s.err = .ok) := by
  cases he : s.eos <;> cases hd : s.done <;> simp [statusOk, hp, he, hd]

theorem statusOk_running {s : State} {op : Option Instr} (hp : s.phase = .running op) :
    statusOk s = true ↔
      s.done = false ∧ s.eos = false ∧ s.err = .ok ∧ s.polled = false ∧ op = decodeOp s.cmd := by
  simp only [statusOk, hp, Bool.and_eq_true, Bool.not_eq_true', decide_eq_true_eq, and_assoc]

/-- The invariant with its parts named. -/
structure Inv (s : State) : Prop where
  lits : SourceLiterals s
  sizes : sizesOk s = true
  mem : memOk s = true
  cursors : cursorsOk s = true
  mask : maskOk s = true
  status : statusOk s = true
  loans : loansOk s = true
  vars : varsOk s = true

theorem inv_iff {s : State} : inv s = true ↔ Inv s := by
  simp only [inv, Bool.and_eq_true, decide_eq_true_eq, and_assoc]
  exact ⟨fun ⟨h1, h2, h3, h4, h5, h6, h7, h8⟩ => ⟨h1, h2, h3, h4, h5, h6, h7, h8⟩,
    fun h => ⟨h.lits, h.sizes, h.mem, h.cursors, h.mask, h.status, h.loans, h.vars⟩⟩

/-! ## Updates of the state that keep the invariant -/

/-- An update of what the invariant does not speak of. -/
theorem Inv.of_eq {s t : State} (h : Inv s) (e : inv t = inv s) : Inv t := inv_iff.mp (e.trans (inv_iff.mpr h))

theorem Inv.setDraws {s : State} (h : Inv s) (n : Nat) : Inv (s.setDraws n) := h.of_eq rfl

theorem Inv.setMem {s : State} (h : Inv s) {m : List Host.Cell} (hw : Memory.wf m = true)
    (hb : Memory.below (memSize s) m = true) : Inv (s.setMem m) :=
  { h with mem := memOk_iff.mpr ⟨hw, hb⟩ }

theorem Inv.writeMem {s : State} (h : Inv s) {x : Nat} (hx : x < memSize s) (b : Byte) :
    Inv (s.setMem (Memory.write s.mem x b)) := by
  obtain ⟨hw, hb⟩ := memOk_iff.mp h.mem
  exact h.setMem (Memory.write_wf hw x b) (Memory.write_below hb hx b)

theorem Inv.setSeen {s : State} (h : Inv s) {ls : List Loan} (hl : ∀ l ∈ ls, l.region.inRange (memSize s) = true)
    (u : List Range) : Inv (s.setSeen ls u) :=
  { h with loans := loansOk_iff.mpr ⟨hl, (loansOk_iff.mp h.loans).2⟩ }

theorem Inv.held_inRange {s : State} (h : Inv s) : ∀ l ∈ s.held, l.region.inRange (memSize s) = true :=
  (loansOk_iff.mp h.loans).1

/-- Accesses are noted only while a command runs. -/
theorem Inv.touch {s : State} (h : Inv s) {op : Option Instr} (hp : s.phase = .running op) {x : Nat} (hx : x < memSize s) :
    Inv (s.setTouched (x :: s.touched)) :=
  { h with
    status := (statusOk_running (s := s.setTouched (x :: s.touched)) hp).mpr ((statusOk_running hp).mp h.status)
    loans := loansOk_iff.mpr ⟨h.held_inRange, List.forall_mem_cons.mpr ⟨hx, (loansOk_iff.mp h.loans).2⟩⟩ }

theorem Inv.setVar {s : State} (h : Inv s) (x : Var) (v : Nat) : Inv (setVar x v s) :=
  { h with vars := varsFrom_assignVar _ 0 x v h.vars (Nat.zero_le x) }

theorem Inv.advance {s : State} (h : Inv s) : Inv (advance s) := h.of_eq rfl

theorem Inv.evalHost {s : State} (h : Inv s) (e : Expr) : Inv (evalHost e s).2 := h.of_eq rfl

theorem Inv.evalWord {s : State} (h : Inv s) (e : Expr) : Inv (evalWord e s).2 := by
  obtain ⟨n, hn⟩ := evalWord_shape e s
  exact hn ▸ h.setDraws n

theorem Inv.keepIn {s : State} (h : Inv s) (keep : Option Var) (w : Word) : Inv (keepIn keep w s) := by
  cases keep with
  | none => exact h
  | some x => exact h.setVar x _

/-! ## Commands and races -/

theorem CommandFrame.params {i : Instr} {s t : State} (f : CommandFrame i s t) : t.params = s.params := by rw [f.shape]

theorem CommandFrame.memSize {i : Instr} {s t : State} (f : CommandFrame i s t) : memSize t = memSize s := by
  rw [Machine.memSize, Machine.memSize, f.params]

/-- The state after a command, no access of the host waiting any more, meets the invariant. -/
theorem CommandFrame.inv {i : Instr} {s t : State} (f : CommandFrame i s t) (h : Inv s) (he : s.eos = false) :
    Inv (t.setTouched []) := by
  have hp : t.phase = .idle := by rw [f.shape]
  have hd : t.done = true := by rw [f.shape]
  have hh : t.held = s.held := by rw [f.shape]
  have hv : t.host = s.host := by rw [f.shape]
  obtain ⟨hw, hb⟩ := memOk_iff.mp h.mem
  exact {
    lits := (congrArg Params.lits f.params).trans h.lits
    sizes := f.sizes h.lits h.sizes
    mem := memOk_iff.mpr ⟨f.wf hw, f.memSize ▸ f.below hb⟩
    cursors := cursorsOk_iff.mpr (f.cursors h.lits (cursorsOk_iff.mp h.cursors))
    mask := f.mask h.mask
    status := (statusOk_idle (s := t.setTouched []) hp).mpr
      ⟨rfl, fun e => ⟨hd, f.eos he e⟩, fun e => absurd (hd.symm.trans e) nofun⟩
    loans := loansOk_iff.mpr ⟨fun l hl => f.memSize ▸ h.held_inRange l (hh ▸ hl), nofun⟩
    vars := (congrArg (fun v : HostState => varsFrom 0 v.vars) hv).trans h.vars }

/-- The end of a race that ran over free bytes at the touched addresses (R73). -/
theorem settleRace_inv {i : Instr} {s t : State} {m : List Host.Cell} {n : Nat} (h : Inv s) (he : s.eos = false)
    (hw : Memory.wf m = true) (hb : Memory.below (memSize s) m = true)
    (f : CommandFrame i ((s.setMem m).setDraws n) t) : Inv (settleRace i s t) := by
  have ht := f.inv ((h.setMem hw hb).setDraws n) he
  have hs : memSize t = memSize s := f.memSize
  have hu := f.used
  rw [usedBy_setMem] at hu
  obtain ⟨tw, tb⟩ := memOk_iff.mp ht.mem
  obtain ⟨m', n', r, o, p, e, -, hw', hb'⟩ := settleRace_shape i s t
  have hm := ht.setMem (hw' tw).1 (hb' _ tb fun x hx => hs ▸ (loansOk_iff.mp h.loans).2 x hx)
  have hl := hm.setSeen (ls := usedBy i s t) (fun l hl => hs ▸ hu l hl) t.unseen
  rw [e]
  exact hl.of_eq rfl

/-- An outcome that answers no next state but one that meets the invariant. -/
def KeepsInv (o : Host.Outcome State Fault Refusal) : Prop := ∀ t, o = .next t → Inv t

theorem keepsInv_next {t : State} (h : Inv t) : KeepsInv (.next t) := fun _ e => by cases e; exact h

theorem keepsInv_fault (f : Fault) : KeepsInv (.fault f) := fun _ e => nomatch e

theorem keepsInv_refused (r : Refusal) : KeepsInv (.refused r) := fun _ e => nomatch e

/-- The transition of a running command (R269), an illegal word's (R223) and that of a race included. -/
theorem runCommand_keepsInv {s : State} (h : Inv s) {op : Option Instr} (hp : s.phase = .running op) :
    KeepsInv (runCommand op s) := by
  obtain ⟨-, he, -⟩ := (statusOk_running hp).mp h.status
  cases op with
  | none =>
    refine keepsInv_next { h with status := ?_, loans := loansOk_iff.mpr ⟨h.held_inRange, nofun⟩ }
    exact (statusOk_idle rfl).mpr ⟨rfl, fun e => absurd (he.symm.trans e) nofun, nofun⟩
  | some i =>
    obtain ⟨u, -, f, ⟨-, hr⟩ | ⟨-, t, m, n, -, -, g, hr, -, hw, hb⟩⟩ := runCommand_cases i s <;> rw [hr]
    · exact keepsInv_next (f.inv h he)
    · obtain ⟨sw, sb⟩ := memOk_iff.mp h.mem
      exact keepsInv_next (settleRace_inv h he (hw sw) (hb _ sb (loansOk_iff.mp h.loans).2) g)

/-! ## The register window and a reset -/

/-- The start of a command (R220) records as its bytes some inside the address space. -/
theorem startCommand_inv {s : State} (h : Inv s) (v : Word) : Inv (startCommand v s) :=
  { h with
    status := (statusOk_running (op := decodeOp v) rfl).mpr ⟨rfl, rfl, rfl, rfl, rfl⟩
    loans := loansOk_iff.mpr ⟨heldBy_inRange (decodeOp v) _, nofun⟩ }

theorem windowWrite_inv {s : State} (h : Inv s) (off width : Nat) (v : Word) : Inv (windowWrite off width v s) := by
  rcases windowWrite_cases off width v s with e | ⟨-, e | ⟨a, b, c, d, f, e⟩⟩ <;> rw [e]
  · exact h
  · exact startCommand_inv h v
  · exact h.of_eq rfl

theorem windowRead_inv {s : State} (h : Inv s) (off width : Nat) : Inv (windowRead off width s).2 := by
  rcases windowRead_cases off width s with ⟨w, n, e⟩ | ⟨hp, e⟩ <;> rw [e]
  · exact h.setDraws n
  · exact { h with
      status := by simpa only [statusOk, hp] using h.status
      loans := loansOk_iff.mpr ⟨nofun, (loansOk_iff.mp h.loans).2⟩ }

theorem freeMask_maskOk {s : State} {n : Nat} (h : s.mask = freeMask n) : maskOk s = true := by
  obtain ⟨k, hk, e⟩ := freeMask_cases n
  rw [maskOk, h, e]
  interval_cases k <;> decide

/-- A reset gives the hidden registers free values of their sizes (R49, R261). -/
theorem resetBlock_inv {s : State} (h : Inv s) : Inv (resetBlock s) where
  lits := h.lits
  sizes := by
    have hd : 0 < s.params.lits.dictSize := by rw [h.lits]; decide
    refine sizesOk_iff.mpr ⟨?_, Nat.mod_lt _ (Nat.two_pow_pos _), ?_, Nat.mod_lt _ hd⟩
    · exact (List.length_map _).trans List.length_range
    · exact (List.length_map _).trans List.length_range
  mem := h.mem
  cursors := rfl
  mask := freeMask_maskOk rfl
  status := rfl
  loans := rfl
  vars := h.vars

theorem platformReset_inv {s : State} (h : Inv s) : Inv (platformReset s) := by
  rcases platformReset_cases s with ⟨-, e⟩ | ⟨m, n, e, -, hw, hb⟩ <;> rw [e]
  · exact resetBlock_inv h
  · obtain ⟨sw, sb⟩ := memOk_iff.mp h.mem
    refine resetBlock_inv ((h.setMem (hw sw) (hb _ sb fun l hl => ?_)).setDraws n)
    rcases exposed_cases s with he | he | he <;> rw [he] at hl
    · exact absurd hl List.not_mem_nil
    · exact h.held_inRange l hl
    · exact reach_inRange s l hl

/-! ## The host's memory accesses -/

theorem markTouched_inv {s : State} (h : Inv s) {hit : Bool} {x : Nat} (hx : x < memSize s)
    (hr : hit = true → s.phase ≠ .idle) : Inv (markTouched hit x s) := by
  rw [markTouched_cases]
  cases hit with
  | false => exact h.of_eq rfl
  | true =>
    cases hp : s.phase with
    | idle => exact absurd hp (hr rfl)
    | running op => exact h.touch hp hx

theorem phase_of_inWrites_reach {s : State} {x : Nat} (h : inWrites (reach s) x = true) : s.phase ≠ .idle := fun hp => by
  rw [reach_of_idle hp] at h
  cases h

theorem phase_of_inLoans_reach {s : State} {x : Nat} (h : inLoans (reach s) x = true) : s.phase ≠ .idle := fun hp => by
  rw [reach_of_idle hp] at h
  cases h

theorem hostReadByte_inv {x : Nat} {b : Byte} {s t : State} (h : Inv s) (ht : hostReadByte x s = .ok b t) : Inv t := by
  rcases hostReadByte_cases x s with ⟨f, e⟩ | ⟨hx, c, n, e⟩ <;> cases e.symm.trans ht
  exact markTouched_inv (h.setDraws n) hx phase_of_inWrites_reach

theorem hostWriteByte_inv {x : Nat} {v : Byte} {s t : State} (h : Inv s) (ht : hostWriteByte x v s = .ok () t) : Inv t := by
  rcases hostWriteByte_cases x v s with ⟨f, e⟩ | ⟨hx, b, n, ls, u, e, hl⟩ <;> cases e.symm.trans ht
  refine markTouched_inv (((h.writeMem hx b).setDraws n).setSeen ?_ u) hx phase_of_inLoans_reach
  rcases hl with rfl | rfl
  · exact h.held_inRange
  · nofun

theorem hostReadBytes_inv (n : Nat) : ∀ {x : Nat} {bs : List Byte} {s t : State}, Inv s →
    hostReadBytes x n s = .ok bs t → Inv t := by
  induction n with
  | zero => intro x bs s t h e; cases e; exact h
  | succ n ih =>
    intro x bs s t h e
    rw [hostReadBytes] at e
    cases h1 : hostReadByte x s with
    | fault f => simp [h1] at e
    | ok b s1 =>
      cases h2 : hostReadBytes (x + 1) n s1 with
      | fault f => simp [h1, h2] at e
      | ok cs s2 =>
        simp only [h1, h2] at e
        cases e
        exact ih (hostReadByte_inv h h1) h2

theorem hostWriteBytes_inv (bs : List Byte) : ∀ {x : Nat} {s t : State}, Inv s →
    hostWriteBytes x bs s = .ok () t → Inv t := by
  induction bs with
  | nil => intro x s t h e; cases e; exact h
  | cons b bs ih =>
    intro x s t h e
    rw [hostWriteBytes] at e
    cases h1 : hostWriteByte x b s with
    | fault f => simp [h1] at e
    | ok a s1 =>
      simp only [h1] at e
      exact ih (hostWriteByte_inv h h1) e

/-! ## The host's statements -/

section
variable {s : State} (h : Inv s)
include h

theorem branchIf_keepsInv (c : Bool) (l : Label) : KeepsInv (branchIf c l s) := by
  unfold branchIf goto
  split
  · split
    · exact keepsInv_refused _
    · exact keepsInv_next (h.of_eq rfl)
  · exact keepsInv_next h.advance

theorem afterWrite_keepsInv (x : Nat) (bs : List Byte) : KeepsInv (afterWrite (hostWriteBytes x bs s)) := by
  cases e : hostWriteBytes x bs s with
  | fault f => exact keepsInv_fault f
  | ok a t => exact keepsInv_next (hostWriteBytes_inv bs h e).advance

theorem hostMemrd_keepsInv (addr n : Expr) (x : Var) : KeepsInv (hostMemrd addr n x s) := by
  unfold hostMemrd
  dsimp only
  split
  · exact keepsInv_fault _
  · rename_i e
    exact keepsInv_next ((hostReadBytes_inv _ ((h.evalHost addr).evalHost n) e).setVar x _).advance

theorem hostMemcpy_keepsInv (dst src n : Expr) : KeepsInv (hostMemcpy dst src n s) := by
  unfold hostMemcpy
  dsimp only
  split
  · exact keepsInv_fault _
  · rename_i e
    exact afterWrite_keepsInv (hostReadBytes_inv _ (((h.evalHost dst).evalHost src).evalHost n) e) _ _

theorem hostFatal_keepsInv (f : Fatal) (code : Option Expr) : KeepsInv (hostFatal f code s) := by
  cases code <;> exact keepsInv_next (h.of_eq rfl)

theorem hostBusWrite_keepsInv (addr : Expr) (width : Nat) (e : Expr) : KeepsInv (hostBusWrite addr width e s) := by
  unfold hostBusWrite
  dsimp only
  split
  · exact keepsInv_refused _
  · exact keepsInv_next (windowWrite_inv ((h.evalHost addr).evalWord e) _ width _).advance

theorem hostBusRead_keepsInv (addr : Expr) (width : Nat) (keep : Option Var) : KeepsInv (hostBusRead addr width keep s) := by
  unfold hostBusRead
  dsimp only
  split
  · exact keepsInv_refused _
  · exact keepsInv_next ((windowRead_inv (h.evalHost addr) _ width).keepIn keep _).advance

/-- Every statement of the host program (R92), the reset included (R260). -/
theorem hostStmt_keepsInv (st : Stmt) : KeepsInv (hostStmt st s) := by
  cases st with
  | wr r e => exact keepsInv_next (windowWrite_inv (h.evalWord e) _ 4 _).advance
  | rd r keep => exact keepsInv_next ((windowRead_inv h _ 4).keepIn keep _).advance
  | cmd m => exact keepsInv_next (windowWrite_inv h _ 4 _).advance
  | memset addr bytes => exact afterWrite_keepsInv (h.evalHost addr) _ bytes
  | memrd addr n x => exact hostMemrd_keepsInv h addr n x
  | memcpy dst src n => exact hostMemcpy_keepsInv h dst src n
  | memfill addr n b => exact afterWrite_keepsInv ((h.evalHost addr).evalHost n) _ _
  | assign x e => exact keepsInv_next ((h.evalHost e).setVar x _).advance
  | beq a b l => exact branchIf_keepsInv ((h.evalHost a).evalHost b) _ l
  | bne a b l => exact branchIf_keepsInv ((h.evalHost a).evalHost b) _ l
  | bltu a b l => exact branchIf_keepsInv ((h.evalHost a).evalHost b) _ l
  | note n => exact keepsInv_next (h.of_eq rfl)
  | fatal f code => exact hostFatal_keepsInv h f code
  | halt => exact keepsInv_next (h.of_eq rfl)
  | busWrite addr width e => exact hostBusWrite_keepsInv h addr width e
  | busRead addr width keep => exact hostBusRead_keepsInv h addr width keep
  | reset => exact keepsInv_next (platformReset_inv h).advance

theorem hostTurn_keepsInv : KeepsInv (hostTurn s) := by
  unfold hostTurn
  split
  · exact keepsInv_next h
  · exact hostStmt_keepsInv h _

theorem step_keepsInv : KeepsInv (step s) := by
  unfold step systemStep
  split
  · exact hostTurn_keepsInv h
  · rename_i op hp
    split
    · exact runCommand_keepsInv h hp
    · exact hostTurn_keepsInv (h.of_eq rfl)

end

/-- Settles O50: a step is the host's next statement or the running command's transition, and each keeps the invariant. -/
theorem stepsKeepTheInvariant : Obligations.StepsKeepTheInvariant :=
  fun _ t h e => inv_iff.mpr (step_keepsInv (inv_iff.mp h) t e)

/-- Settles O51: after reset the tables are of R7's sizes, memory is empty and the block idle. -/
theorem resetMeetsTheInvariant : Obligations.ResetMeetsTheInvariant :=
  inv_iff.mpr {
    lits := rfl
    sizes := sizesOk_iff.mpr ⟨List.length_replicate, by decide, List.length_replicate, by decide⟩
    mem := rfl
    cursors := rfl
    mask := rfl
    status := rfl
    loans := rfl
    vars := rfl }

end Sys2Proof.Machine
end

section
/-! PROOF. What every command leaves alone and what it writes: the operands (R35), the result registers (R28 to R30), `KSV` (R43) and
the cursors (R38, R42, R44). -/

namespace Sys2Proof.Machine

/-- Settles O6: `mapAt` is the successor modulo `MAP_LEN`, which is 250 here. -/
theorem mapIsTheCyclicSuccessor : Obligations.MapIsTheCyclicSuccessor := by
  refine ⟨rfl, fun l hl => ?_⟩
  have hmap : ∀ i, mapAt l i = (i + 1) % 250 := fun i => by rw [mapAt, hl]
  exact ⟨fun i hi => by rw [hmap, Nat.mod_eq_of_lt (by omega)], hmap 249, fun i _ => hmap i⟩

/-- Settles O32: the shape of the state after a command names no operand, parameter or field of the host as written. -/
theorem commandsKeepTheOperands : Obligations.CommandsKeepTheOperands := by
  intro i s
  obtain ⟨t, h, f⟩ := exec_frame i s
  refine ⟨t, h, ?_⟩
  rw [f.shape]
  exact ⟨rfl, rfl, rfl, rfl, rfl, rfl, rfl, rfl, rfl, rfl, rfl, rfl, rfl, rfl, rfl⟩

/-- Settles O49: `CipherInit` sets the cursors to 0 and 103, and every command keeps their distance. -/
theorem cursorsStayApart : Obligations.CursorsStayApart := by
  refine ⟨fun seed s hs => seedTable_cursorPair hs seed s.tab, fun i s hs hc => ?_⟩
  obtain ⟨t, h, f⟩ := exec_frame i s
  exact ⟨t, h, f.cursors hs hc⟩

/-! ## The result registers -/

/-- The result registers are as they were (R28 to R30). -/
def KeepsResults (s t : State) : Prop := t.result = s.result ∧ t.outCount = s.outCount ∧ t.inPos = s.inPos

/-- The body of `DECRYPT` sets `KSV` and writes no result register. -/
theorem decryptBody_results (seed : Word) (base n : Nat) (s : State) :
    KeepsResults s (decryptBody seed base n s) ∧ (decryptBody seed base n s).ksv = true := by
  obtain ⟨m, k, c, a, u, -, -, h, -⟩ := decryptBody_shape seed base n s
  rw [h]
  exact ⟨⟨rfl, rfl, rfl⟩, rfl⟩

/-- `LZDEC` writes neither `RESULT` nor `KSV`. -/
theorem exec_lzdec_keeps {s : State} (h : precheck .lzdec s = none) :
    ∃ t, exec .lzdec s = .next t ∧ t.result = s.result ∧ t.ksv = s.ksv := by
  obtain ⟨c, t, he, f, -⟩ := exec_lzdec_cases h
  refine ⟨_, he, ?_⟩
  rw [f.shape]
  exact ⟨rfl, rfl⟩

/-- A command either writes no result register, or is a `CNEXT` or `CSUM` that ends with `OK` and writes `RESULT` alone, or is an `LZDEC`
past its pre-checks, which does not write `RESULT`. -/
theorem exec_results (i : Instr) (s : State) : ∃ t, exec i s = .next t ∧
    (KeepsResults s t ∨
      ((i = .cnext ∨ i = .csum) ∧ t.err = .ok ∧ t.outCount = s.outCount ∧ t.inPos = s.inPos) ∨
      (i = .lzdec ∧ precheck .lzdec s = none ∧ t.result = s.result)) := by
  cases hp : precheck i s with
  | some c => exact ⟨_, exec_of_precheck hp, .inl ⟨rfl, rfl, rfl⟩⟩
  | none =>
    cases i with
    | cinit => exact ⟨_, exec_cinit s, .inl ⟨rfl, rfl, rfl⟩⟩
    | cnext =>
      have hk : s.ksv = true := by simpa [precheck] using hp
      exact ⟨_, exec_cnext hk, .inr (.inl ⟨.inl rfl, rfl, rfl, rfl⟩)⟩
    | decrypt => exact ⟨_, exec_decrypt hp, .inl (decryptBody_results _ _ _ s).1⟩
    | decryptS =>
      rcases exec_decryptS_cases hp with ⟨-, he⟩ | ⟨-, he⟩
      · exact ⟨_, he, .inl ⟨rfl, rfl, rfl⟩⟩
      · exact ⟨_, he, .inl (decryptBody_results _ _ _ s).1⟩
    | csum =>
      rcases exec_csum_cases hp with ⟨v, -, he⟩ | ⟨-, he⟩
      · exact ⟨_, he, .inr (.inl ⟨.inr rfl, rfl, rfl, rfl⟩)⟩
      · exact ⟨_, he, .inl ⟨rfl, rfl, rfl⟩⟩
    | lzdec =>
      obtain ⟨t, he, hr, -⟩ := exec_lzdec_keeps hp
      exact ⟨t, he, .inr (.inr ⟨rfl, hp, hr⟩)⟩

/-- Settles O33: by what a command can do to the result registers. -/
theorem resultRegistersHaveOneWriter : Obligations.ResultRegistersHaveOneWriter := by
  intro i s
  obtain ⟨t, he, ⟨hr, ho, hn⟩ | ⟨hi, hk, ho, hn⟩ | ⟨hi, hp, hr⟩⟩ := exec_results i s
  · exact ⟨t, he, fun h => absurd hr h, fun h => (h.elim (· ho) (· hn)).elim⟩
  · exact ⟨t, he, fun _ => ⟨hi, hk⟩, fun h => (h.elim (· ho) (· hn)).elim⟩
  · exact ⟨t, he, fun h => absurd hr h, fun _ => ⟨hi, hp⟩⟩

/-! ## `KSV` -/

theorem decryptReady_decrypt {s : State} : DecryptReady .decrypt s ↔ precheck .decrypt s = none := by
  simp [DecryptReady, precheck_decrypt_none]

theorem decryptReady_decryptS {s : State} : DecryptReady .decryptS s ↔ precheck .decryptS s = none := by
  simp [DecryptReady, precheck_decryptS_none, and_comm]

/-- The commands that seed the cipher: `CINIT`, and `DECRYPT` past its pre-checks and its seed read (R43). -/
def SeedsCipher (i : Instr) (s : State) : Prop :=
  i = .cinit ∨ (i = .decrypt ∧ DecryptReady i s) ∨ (i = .decryptS ∧ DecryptReady i s ∧ NoFault s s.srcAddr.toNat 4)

theorem exec_ksv_of_seeds {i : Instr} {s : State} (h : SeedsCipher i s) : ∃ t, exec i s = .next t ∧ t.ksv = true := by
  rcases h with rfl | ⟨rfl, hr⟩ | ⟨rfl, hr, hf⟩
  · exact ⟨_, exec_cinit s, rfl⟩
  · exact ⟨_, exec_decrypt (decryptReady_decrypt.mp hr), (decryptBody_results _ _ _ s).2⟩
  · rcases exec_decryptS_cases (decryptReady_decryptS.mp hr) with ⟨⟨y, h1, h2, hy⟩, -⟩ | ⟨-, he⟩
    · exact absurd ((hf y h1 h2).symm.trans hy) nofun
    · exact ⟨_, he, (decryptBody_results _ _ _ s).2⟩

theorem exec_ksv_of_not_seeds {i : Instr} {s : State} (h : ¬SeedsCipher i s) :
    ∃ t, exec i s = .next t ∧ t.ksv = s.ksv := by
  cases hp : precheck i s with
  | some c => exact ⟨_, exec_of_precheck hp, rfl⟩
  | none =>
    cases i with
    | cinit => exact absurd (.inl rfl) h
    | cnext =>
      have hk : s.ksv = true := by simpa [precheck] using hp
      exact ⟨_, exec_cnext hk, rfl⟩
    | decrypt => exact absurd (.inr (.inl ⟨rfl, decryptReady_decrypt.mpr hp⟩)) h
    | decryptS =>
      rcases exec_decryptS_cases hp with ⟨-, he⟩ | ⟨hf, -⟩
      · exact ⟨_, he, rfl⟩
      · exact absurd (.inr (.inr ⟨rfl, decryptReady_decryptS.mpr hp, hf⟩)) h
    | csum =>
      rcases exec_csum_cases hp with ⟨v, -, he⟩ | ⟨-, he⟩
      · exact ⟨_, he, rfl⟩
      · exact ⟨_, he, rfl⟩
    | lzdec =>
      obtain ⟨t, he, -, hk⟩ := exec_lzdec_keeps hp
      exact ⟨t, he, hk⟩

theorem exec_cnext_unseeded {s : State} (h : s.ksv = false) : exec .cnext s = .next (complete .notInit s) :=
  exec_of_precheck (by simp [precheck, h])

/-- Settles O34: a command that seeds the cipher sets `KSV`, any other leaves it. -/
theorem ksvIsSetBySeedingOnly : Obligations.KsvIsSetBySeedingOnly := by
  refine ⟨rfl, fun i s => ?_⟩
  have hn : ∀ t, exec i s = .next t → i = .cnext → s.ksv = false → t.err = .notInit := by
    rintro t he rfl hk
    cases he.symm.trans (exec_cnext_unseeded hk)
    rfl
  by_cases hs : SeedsCipher i s
  · obtain ⟨t, he, hk⟩ := exec_ksv_of_seeds hs
    exact ⟨t, he, ⟨fun _ => .inr hs, fun _ => hk⟩, hn t he⟩
  · obtain ⟨t, he, hk⟩ := exec_ksv_of_not_seeds hs
    exact ⟨t, he, ⟨fun h => .inl (hk.symm.trans h), fun h => hk.trans (h.resolve_right hs)⟩, hn t he⟩

end Sys2Proof.Machine
end

section
/-! PROOF. The register window (R21 to R33, R220, R265): what an access at each offset reads and writes, and the `STATUS` word. -/

namespace Sys2Proof.Machine

/-! ## Accesses at the offset of a register and elsewhere -/

theorem windowRead_regOffset (r : HReg) (s : State) : windowRead (regOffset r) 4 s = readReg r s := by cases r <;> rfl

theorem windowWrite_of_busy {s : State} (h : busy s = true) (off width : Nat) (v : Word) :
    windowWrite off width v s = s := if_pos h

theorem windowWrite_regOffset (r : HReg) (v : Word) {s : State} (h : busy s = false) :
    windowWrite (regOffset r) 4 v s = writeReg r v s := by
  rw [windowWrite, h]
  cases r <;> rfl

/-- No register stands at the offset, or the access is not one of 32 bits at a multiple of 4. -/
theorem window_of_none {off width : Nat} (h : accessOk off width = true → regAt off = none) (v : Word) (s : State) :
    windowRead off width s = (0, s) ∧ windowWrite off width v s = s := by
  unfold windowRead windowWrite
  cases ha : accessOk off width with
  | false => simp
  | true => simp [h ha]

theorem regAt_reserved {off : Nat} (h : 0x28 ≤ off) : regAt off = none := by
  unfold regAt
  repeat rw [if_neg (by omega)]

/-- Settles O39: no register stands at these offsets. -/
theorem reservedOffsets : Obligations.ReservedOffsets :=
  fun s _ _ v h _ => window_of_none (fun _ => regAt_reserved h) v s

theorem accessOk_eq_false {off width : Nat} (h : width ≠ 4 ∨ off % 4 ≠ 0) : accessOk off width = false := by
  rcases h with h | h <;> simp [accessOk, h]

/-- Settles O40: the window accepts only the other accesses. -/
theorem otherAccessesAreIgnored : Obligations.OtherAccessesAreIgnored :=
  fun s _ _ v h => window_of_none (fun ha => absurd ((accessOk_eq_false h).symm.trans ha) nofun) v s

/-- Settles O41: of an idle block these registers ignore a write, and a busy block ignores every write. -/
theorem readOnlyRegisters : Obligations.ReadOnlyRegisters := by
  intro r s v hr
  cases hb : busy s with
  | true => exact windowWrite_of_busy hb _ _ _
  | false =>
    rw [windowWrite_regOffset r v hb]
    simp only [List.mem_cons, List.not_mem_nil, or_false] at hr
    rcases hr with rfl | rfl | rfl | rfl <;> rfl

/-- A register that the host may write reads back what an idle block was given. -/
theorem readBack {r : HReg} (hr : r ∈ [HReg.cmd, .seed, .srcAddr, .srcLen, .dstAddr, .dstLen]) (v : Word) {s : State}
    (h : busy s = false) : (windowRead (regOffset r) 4 (windowWrite (regOffset r) 4 v s)).1 = v := by
  rw [windowRead_regOffset, windowWrite_regOffset r v h]
  simp only [List.mem_cons, List.not_mem_nil, or_false] at hr
  rcases hr with rfl | rfl | rfl | rfl | rfl | rfl <;> rfl

/-- Settles O42: by the write and the read at each operand register's offset. -/
theorem operandRegistersHold : Obligations.OperandRegistersHold := fun _ v h =>
  ⟨windowWrite_regOffset .seed v h, readBack (r := .seed) (by decide) v h,
    windowWrite_regOffset .srcAddr v h, readBack (r := .srcAddr) (by decide) v h,
    windowWrite_regOffset .srcLen v h, readBack (r := .srcLen) (by decide) v h,
    windowWrite_regOffset .dstAddr v h, readBack (r := .dstAddr) (by decide) v h,
    windowWrite_regOffset .dstLen v h, readBack (r := .dstLen) (by decide) v h⟩

/-- Settles O43: the write is `startCommand`. -/
theorem cmdWriteStartsTheCommand : Obligations.CmdWriteStartsTheCommand := by
  intro s v h
  have hw : windowWrite 0x00 4 v s = startCommand v s := windowWrite_regOffset .cmd v h
  exact ⟨_, rfl, by rw [hw]; rfl, by rw [hw]; rfl, readBack (r := .cmd) (by decide) v h⟩

/-! ## The result registers -/

theorem readResult_shape (v : Word) (s : State) : ∃ w n, readResult v s = (w, s.setDraws n) := by
  unfold readResult
  split
  · exact ⟨v, s.draws, rfl⟩
  · exact ⟨_, _, rfl⟩

theorem readResult_of_polled {s : State} (h : s.polled = true) (v : Word) : readResult v s = (v, s) := if_pos h

theorem readStatus_idle {s : State} (h : s.phase = .idle) :
    readStatus s = (statusWord s, { s with polled := true, held := [], unseen := [] }) := by
  simp only [readStatus, h]

/-- Settles O45: a `STATUS` read of an idle block notes the poll, after which the three registers read as they stand. -/
theorem resultReads : Obligations.ResultReads := by
  have hresult := windowRead_regOffset .result
  have hcount := windowRead_regOffset .outCount
  have hpos := windowRead_regOffset .inPos
  refine fun s => ⟨fun hi => ?_, fun hp => ⟨?_, ?_, ?_⟩, fun off ho => ?_⟩
  · rw [show windowRead 0x04 4 s = readStatus s from windowRead_regOffset .status s, readStatus_idle hi]
  · exact (hresult s).trans (readResult_of_polled hp _)
  · exact (hcount s).trans (readResult_of_polled hp _)
  · exact (hpos s).trans (readResult_of_polled hp _)
  · simp only [List.mem_cons, List.not_mem_nil, or_false] at ho
    rcases ho with rfl | rfl | rfl
    · exact hresult s ▸ readResult_shape _ s
    · exact hcount s ▸ readResult_shape _ s
    · exact hpos s ▸ readResult_shape _ s

/-! ## The `STATUS` word -/

theorem phase_cases (s : State) : s.phase = .idle ∨ ∃ op, s.phase = .running op := by
  cases s.phase with
  | idle => exact .inl rfl
  | running op => exact .inr ⟨op, rfl⟩

/-- The fields of the `STATUS` word (R22), whatever the eight bits of its fields are. -/
theorem statusWord_fields (s : State) :
    (statusWord s).extractLsb' 8 24 = 0 ∧ (statusWord s).getLsbD 0 = busy s ∧ (statusWord s).getLsbD 1 = s.done ∧
      (statusWord s).getLsbD 2 = s.ksv ∧ (statusWord s).getLsbD 3 = s.eos ∧ (statusWord s).extractLsb' 4 4 = s.err.code := by
  unfold statusWord
  generalize s.err.code = code, s.eos = eos, s.ksv = ksv, s.done = done, busy s = bsy
  revert code eos ksv done bsy
  decide

/-- A `STATUS` read of a busy block gives the word with `KSV` as it was before the command or as it will be after it. -/
theorem readStatus_running {s : State} {op : Option Instr} (h : s.phase = .running op) :
    ∃ k n, readStatus s = (statusWord { s with ksv := k }, s.setDraws n) ∧ (k = s.ksv ∨ k = ksvAfter op s) := by
  unfold readStatus
  split
  · rename_i hi
    cases hi.symm.trans h
  · rename_i op' ho
    cases ho.symm.trans h
    split
    · exact ⟨s.ksv, s.draws, rfl, .inl rfl⟩
    · rename_i hk
      refine ⟨Config.freeBit s.draws, s.draws + 1, rfl, ?_⟩
      by_cases he : Config.freeBit s.draws = s.ksv
      · exact .inl he
      · exact .inr ((Bool.eq_not_of_ne he).trans (Bool.eq_not_of_ne hk).symm)

/-- Settles O44: the read gives the `STATUS` word, whose fields are the state's; while a command runs all but `KSV` are known. -/
theorem statusRead : Obligations.StatusRead := by
  refine ⟨⟨rfl, rfl, rfl, rfl, rfl, rfl, rfl, rfl⟩, fun s hs => ?_⟩
  have hr : windowRead 0x04 4 s = readStatus s := windowRead_regOffset .status s
  rcases phase_cases s with hp | ⟨op, hp⟩
  · obtain ⟨hz, hb, hf⟩ := statusWord_fields s
    exact ⟨_, _, hr.trans (readStatus_idle hp), hz, fun _ => ⟨hb.trans (busy_of_idle hp), hf⟩,
      fun op ho => absurd (hp.symm.trans ho) nofun, rfl⟩
  · obtain ⟨k, n, hk, hv⟩ := readStatus_running hp
    obtain ⟨hd, he, hc, -⟩ := (statusOk_running hp).mp hs
    obtain ⟨hz, hb, h1, h2, h3, h4⟩ := statusWord_fields { s with ksv := k }
    have hbusy : busy s = true := by simp only [busy, hp]
    refine ⟨_, _, hr.trans hk, hz, fun hi => absurd (hp.symm.trans hi) nofun, fun op' ho => ?_, rfl⟩
    cases hp.symm.trans ho
    exact ⟨hb.trans hbusy, h1.trans hd, h3.trans he, h4.trans (congrArg ErrCode.code hc), hv.imp h2.trans h2.trans⟩

/-- Settles O52: the values of `State.reset`; with no program a step of the idle block is no statement. -/
theorem resetValues : Obligations.ResetValues :=
  ⟨rfl, rfl, rfl, rfl, rfl, rfl, rfl, rfl, rfl, rfl, rfl, step_idle rfl⟩

end Sys2Proof.Machine
end

section
/-! PROOF. What a command reads (R68, R266). A run is followed beside a second one over another memory, which agrees with the first
on a set of bytes that holds every byte that the first run reads. For `LZDEC` that set grows with the cursor, so there a part of the
run is followed only as far as the bytes that it has loaded at its end (`Lockstep`). -/

namespace Sys2Proof.Machine

/-! ## Two states over memories that agree on a set of bytes -/

/-- The second state is the first over another memory, and the two memories, both in canonical form, agree on the bytes in `A`. -/
inductive SameOn (A : Nat → Prop) : State → State → Prop
  | mk (s : State) (m : List Host.Cell) (hs : Memory.wf s.mem = true) (hm : Memory.wf m = true)
      (h : ∀ x, A x → Memory.read m x = Memory.read s.mem x) : SameOn A s (s.setMem m)

section
variable {A : Nat → Prop} {s t : State}

/-- An update that neither reads nor writes memory. -/
theorem SameOn.update (h : SameOn A s t) (g : State → State) (hg : ∀ s m, g (s.setMem m) = (g s).setMem m)
    (hm : ∀ s, (g s).mem = s.mem) : SameOn A (g s) (g t) := by
  cases h with
  | mk m hs hw h =>
    rw [hg]
    exact .mk (g s) m (hm s ▸ hs) hw fun x hx => by rw [hm]; exact h x hx

theorem SameOn.complete (h : SameOn A s t) (c : ErrCode) : SameOn A (complete c s) (complete c t) :=
  h.update (Machine.complete c) (fun _ _ => rfl) fun _ => rfl

/-- What does not depend on memory is the same in both states. -/
theorem SameOn.field {γ : Type} (h : SameOn A s t) (p : State → γ) (hp : ∀ s m, p (s.setMem m) = p s) : p t = p s := by
  cases h with
  | mk m => exact hp s m

theorem SameOn.params (h : SameOn A s t) : t.params = s.params := h.field State.params fun _ _ => rfl

theorem SameOn.srcAddr (h : SameOn A s t) : t.srcAddr = s.srcAddr := h.field State.srcAddr fun _ _ => rfl

theorem SameOn.srcLen (h : SameOn A s t) : t.srcLen = s.srcLen := h.field State.srcLen fun _ _ => rfl

theorem SameOn.dstAddr (h : SameOn A s t) : t.dstAddr = s.dstAddr := h.field State.dstAddr fun _ _ => rfl

theorem SameOn.dstLen (h : SameOn A s t) : t.dstLen = s.dstLen := h.field State.dstLen fun _ _ => rfl

theorem SameOn.outCount (h : SameOn A s t) : t.outCount = s.outCount := h.field State.outCount fun _ _ => rfl

theorem SameOn.pos (h : SameOn A s t) : t.pos = s.pos := h.field State.pos fun _ _ => rfl

theorem SameOn.mask (h : SameOn A s t) : t.mask = s.mask := h.field State.mask fun _ _ => rfl

theorem SameOn.readByte (h : SameOn A s t) {x : Nat} (hx : A x) : readByte x t = readByte x s := by
  cases h with
  | mk m hs hw h => rw [Machine.readByte, Machine.readByte, memFault_setMem, setMem_mem, h x hx]

theorem SameOn.memRead (h : SameOn A s t) (n : Nat) : ∀ x, (∀ y, x ≤ y → y < x + n → A y) →
    memRead x n t = memRead x n s := by
  induction n with
  | zero => exact fun _ _ => rfl
  | succ n ih =>
    intro x hx
    rw [Machine.memRead, Machine.memRead, h.readByte (hx x (by omega) (by omega)),
      ih (x + 1) fun y h1 h2 => hx y (by omega) (by omega)]

theorem SameOn.readWord (h : SameOn A s t) {x : Nat} (hx : ∀ y, x ≤ y → y < x + 4 → A y) : readWord x t = readWord x s := by
  rw [Machine.readWord, Machine.readWord, h.memRead 4 x hx]

theorem SameOn.csumLoop (h : SameOn A s t) (n : Nat) : ∀ i x acc, (∀ y, x ≤ y → y < x + 4 * n → A y) →
    csumLoop n i x acc t = csumLoop n i x acc s := by
  induction n with
  | zero => exact fun _ _ _ _ => rfl
  | succ n ih =>
    intro i x acc hx
    rw [Machine.csumLoop, Machine.csumLoop, h.readWord fun y h1 h2 => hx y h1 (by omega)]
    cases Machine.readWord x s with
    | none => rfl
    | some w => exact ih _ _ _ fun y h1 h2 => hx y (by omega) (by omega)

/-- One byte written to both memories leaves them in agreement on the set, whether the byte is in it or not. -/
theorem Memory.write_agree {m n : List Host.Cell} (hm : Memory.wf m = true) (hn : Memory.wf n = true)
    (h : ∀ y, A y → Memory.read n y = Memory.read m y) (x : Nat) (v : Byte) :
    ∀ y, A y → Memory.read (Memory.write n x v) y = Memory.read (Memory.write m x v) y :=
  fun y hy => by rw [Memory.read_write hm, Memory.read_write hn, h y hy]

theorem SameOn.writeMem (h : SameOn A s t) (x : Nat) (v : Byte) :
    SameOn A (s.setMem (Memory.write s.mem x v)) (t.setMem (Memory.write t.mem x v)) := by
  cases h with
  | mk m hs hm h =>
    exact .mk (s.setMem (Memory.write s.mem x v)) _ (Memory.write_wf hs x v) (Memory.write_wf hm x v)
      (Memory.write_agree hs hm h x v)

/-- A byte write fails in both states or writes the same byte in both. -/
theorem SameOn.writeByte (h : SameOn A s t) (x : Nat) (v : Byte) :
    (writeByte x v s = none ∧ writeByte x v t = none) ∨
      ∃ s' t', writeByte x v s = some s' ∧ writeByte x v t = some t' ∧ SameOn A s' t' := by
  have hf := memFault_congr h.params x
  rcases writeByte_cases s x v with ⟨hs, hw⟩ | ⟨hs, hw⟩
  · exact .inl ⟨hw, writeByte_of_fault v (hf.trans hs)⟩
  · exact .inr ⟨_, _, hw, writeByte_of_ok v (hf.trans hs), h.writeMem x v⟩

end

/-! ## `DECRYPT` -/

section
variable {A : Nat → Prop}

theorem memWrite_sameOn (n : Nat) : ∀ (x v : Nat) {s t : State}, SameOn A s t →
    ResRel (SameOn A) (memWrite x n v s) (memWrite x n v t) := by
  induction n with
  | zero => exact fun _ _ _ _ h => .ok () h
  | succ n ih =>
    intro x v s t h
    rcases h.writeByte x (BitVec.ofNat 8 v) with ⟨hs, ht⟩ | ⟨s', t', hs, ht, h'⟩ <;> simp only [memWrite, hs, ht]
    · exact .stop .bus h
    · exact ih _ _ h'

theorem SameOn.cipherNext {s t : State} (h : SameOn A s t) :
    (cipherNext t).1 = (cipherNext s).1 ∧ SameOn A (cipherNext s).2 (cipherNext t).2 :=
  ⟨h.field (fun s => (Machine.cipherNext s).1) fun _ _ => rfl, h.update (fun s => (Machine.cipherNext s).2) (fun _ _ => rfl) fun _ => rfl⟩

theorem decryptWords_sameOn (n : Nat) : ∀ (x : Nat) {s t : State}, SameOn A s t → (∀ y, x ≤ y → y < x + 4 * n → A y) →
    ResRel (SameOn A) (decryptWords n x s) (decryptWords n x t) := by
  induction n with
  | zero => exact fun _ _ _ h _ => .ok () h
  | succ n ih =>
    intro x s t h hx
    have hc := h.readWord (x := x) fun y h1 h2 => hx y h1 (by omega)
    cases hr : readWord x s with
    | none =>
      simp only [decryptWords, hc, hr]
      exact .stop .bus h
    | some w =>
      obtain ⟨hk, h1⟩ := h.cipherNext
      rw [decryptWords_succ hr, decryptWords_succ (hc.trans hr), hk]
      exact (memWrite_sameOn 4 x _ h1).bind fun _ _ _ h2 => ih (x + 4) h2 fun y a b => hx y (by omega) (by omega)

theorem decryptTailBytes_sameOn (n : Nat) : ∀ (j x : Nat) (k : Word) {s t : State}, SameOn A s t →
    (∀ y, x ≤ y → y < x + n → A y) → ResRel (SameOn A) (decryptTailBytes n j x k s) (decryptTailBytes n j x k t) := by
  induction n with
  | zero => exact fun _ _ _ _ _ h _ => .ok () h
  | succ n ih =>
    intro j x k s t h hx
    have hc := h.readByte (hx x (by omega) (by omega))
    cases hr : readByte x s with
    | none =>
      simp only [decryptTailBytes, hc, hr]
      exact .stop .bus h
    | some b =>
      rcases h.writeByte x (b ^^^ tailByte s.params.tailOrder k j) with ⟨hs, ht⟩ | ⟨s', t', hs, ht, h'⟩ <;>
        simp only [decryptTailBytes, hc, hr, h.params, hs, ht]
      · exact .stop .bus h
      · exact ih _ _ k h' fun y a b => hx y (by omega) (by omega)

theorem decryptTail_sameOn (n x : Nat) {s t : State} (h : SameOn A s t) (hx : ∀ y, x ≤ y → y < x + n → A y) :
    ResRel (SameOn A) (decryptTail n x s) (decryptTail n x t) := by
  unfold decryptTail
  split
  · exact .ok () h
  · obtain ⟨hk, h1⟩ := h.cipherNext
    dsimp only
    rw [hk]
    exact decryptTailBytes_sameOn n 0 x _ h1 hx

theorem decryptEnd_sameOn {r r' : Res Unit} (h : ResRel (SameOn A) r r') : SameOn A (decryptEnd r) (decryptEnd r') := by
  cases h with
  | ok a h => exact h.complete .ok
  | stop c h => exact h.complete c

theorem decryptBody_sameOn (seed : Word) {base n : Nat} {s t : State} (h : SameOn A s t)
    (hx : ∀ y, base ≤ y → y < base + n → A y) : SameOn A (decryptBody seed base n s) (decryptBody seed base n t) := by
  have h0 : SameOn A (decryptSetup seed s) (decryptSetup seed t) := h.update (decryptSetup seed) (fun _ _ => rfl) fun _ => rfl
  rw [decryptBody_eq, decryptBody_eq]
  exact decryptEnd_sameOn ((decryptWords_sameOn (n / 4) base h0 fun y a b => hx y a (by omega)).bind fun _ _ _ h1 =>
    decryptTail_sameOn (n % 4) (base + 4 * (n / 4)) h1 fun y a b => hx y (by omega) (by omega))

end

/-! ## The decompressor -/

/-- The state that a part of a command ends in, whether it goes on or stops. -/
def Res.state {α : Type} : Res α → State
  | .ok _ s => s
  | .stop _ s => s

/-- From the first state to the second the source stays where it is and the cursor does not go back. -/
def Advances (s t : State) : Prop := t.srcAddr = s.srcAddr ∧ s.pos.toNat ≤ t.pos.toNat

theorem Advances.trans {s t u : State} (h : Advances s t) (k : Advances t u) : Advances s u :=
  ⟨k.1.trans h.1, h.2.trans k.2⟩

/-- The set holds the source bytes that the cursor has loaded (R143). -/
def Loaded (A : Nat → Prop) (s : State) : Prop := ∀ k, k < s.pos.toNat → A (s.srcAddr.toNat + k)

theorem Advances.loaded {A : Nat → Prop} {s t : State} (h : Advances s t) (ht : Loaded A t) : Loaded A s :=
  fun k hk => h.1 ▸ ht k (hk.trans_le h.2)

/-- A part of `LZDEC` moves the cursor forwards only, and two runs of it over memories that agree on the bytes that the first has
loaded at its end, and on whatever else is in the set, end alike. -/
structure Lockstep (A : Nat → Prop) {α : Type} (f : State → Res α) : Prop where
  advances : ∀ s, Advances s (f s).state
  related : ∀ {s t}, SameOn A s t → Loaded A (f s).state → ResRel (SameOn A) (f s) (f t)

section
variable {A : Nat → Prop} {α β γ : Type}

theorem Lockstep.ok (a : α) : Lockstep A (Res.ok a) := ⟨fun _ => ⟨rfl, Nat.le_refl _⟩, fun h _ => .ok a h⟩

theorem Lockstep.bind {f : State → Res α} {k : α → State → Res β} (hf : Lockstep A f) (hk : ∀ a, Lockstep A (k a)) :
    Lockstep A fun s => (f s).bind k where
  advances s := by
    have h := hf.advances s
    cases hs : f s with
    | ok a s1 => rw [hs] at h; exact h.trans ((hk a).advances s1)
    | stop c s1 => rw [hs] at h; exact h
  related {s t} h hl := by
    have hr := hf.related h
    generalize f s = r at hl hr ⊢
    generalize f t = r' at hr ⊢
    cases r with
    | ok a s1 =>
      cases hr (((hk a).advances s1).loaded hl) with
      | ok a h1 => exact (hk a).related h1 hl
    | stop c s1 =>
      cases hr hl with
      | stop c h1 => exact .stop c h1

/-- A part that depends on a register besides may read it in either state. -/
theorem Lockstep.reading (p : State → γ) (hp : ∀ s m, p (s.setMem m) = p s) {g : γ → State → Res α}
    (h : ∀ c, Lockstep A (g c)) : Lockstep A fun s => g (p s) s where
  advances s := (h (p s)).advances s
  related {s t} hst hl := by
    rw [hst.field p hp]
    exact (h (p s)).related hst hl

theorem cursorLoad_lockstep : Lockstep A cursorLoad where
  advances s := by
    rcases cursorLoad_cases s with ⟨-, -, e⟩ | ⟨-, -, -, e⟩ | ⟨-, hp, e⟩ | ⟨-, e⟩ <;> rw [e]
    · exact ⟨rfl, Nat.le_refl _⟩
    · exact ⟨rfl, Nat.le_refl _⟩
    · exact ⟨rfl, by rw [Res.state, setCursor_pos, succ_toNat_of_lt hp]; omega⟩
    · exact ⟨rfl, Nat.le_refl _⟩
  related {s t} h hl := by
    rw [cursorLoad.eq_def t, h.mask, h.srcLen, h.pos, h.srcAddr]
    by_cases hm : s.mask = 0x80
    · by_cases hp : s.srcLen.toNat ≤ s.pos.toNat
      · simp only [cursorLoad, if_pos hm, if_pos hp]
        exact .stop .truncated h
      · rcases readByte_cases s (s.srcAddr.toNat + s.pos.toNat) with ⟨hf, hr⟩ | ⟨-, hr⟩ <;>
          simp only [cursorLoad, if_pos hm, if_neg hp, hr] at hl ⊢
        · rw [readByte_of_fault ((memFault_congr h.params _).trans hf)]
          exact .stop .bus h
        · have hx : A (s.srcAddr.toNat + s.pos.toNat) := hl s.pos.toNat (by
            rw [Res.state, setCursor_pos, succ_toNat_of_lt (Nat.not_le.mp hp)]
            exact Nat.lt_succ_self _)
          rw [h.readByte hx, hr]
          exact .ok () (h.update (State.setCursor · (s.pos + 1) s.mask _) (fun _ _ => rfl) fun _ => rfl)
    · simp only [cursorLoad, if_neg hm]
      exact .ok () h

theorem readBit_eq (s : State) : readBit s = (cursorLoad s).bind fun _ s1 =>
    .ok (decide (s1.rack &&& s1.mask ≠ 0)) (s1.setCursor s1.pos (nextMask s1.mask) s1.rack) := by
  rw [readBit]
  cases cursorLoad s <;> rfl

theorem readBit_lockstep : Lockstep A readBit := by
  rw [funext readBit_eq]
  refine cursorLoad_lockstep.bind fun _ => ⟨fun _ => ⟨rfl, Nat.le_refl _⟩, fun {s t} h _ => ?_⟩
  rw [h.field (fun s => decide (s.rack &&& s.mask ≠ 0)) fun _ _ => rfl]
  exact .ok _ (h.update (fun s => s.setCursor s.pos (nextMask s.mask) s.rack) (fun _ _ => rfl) fun _ => rfl)

theorem readBits_lockstep (n : Nat) : ∀ v, Lockstep A (readBits n v) := by
  induction n with
  | zero => exact fun v => .ok v
  | succ n ih =>
    intro v
    rw [funext (readBits_succ n v)]
    exact readBit_lockstep.bind fun b => ih (2 * v + b.toNat)

theorem symbolRest_lockstep (l : Literals) (d : Nat) : Lockstep A (symbolRest l d) := by
  unfold symbolRest
  split
  · exact (readBits_lockstep _ 0).bind fun v => .ok (Symbol.literal v)
  · refine (readBits_lockstep _ 0).bind fun off => ?_
    split
    · exact .ok Symbol.endOfStream
    · exact (readBits_lockstep _ 0).bind fun len => .ok (Symbol.copy off len)

theorem readSymbol_lockstep : Lockstep A readSymbol := by
  rw [funext readSymbol_eq]
  exact .reading (fun s => s.params.lits) (fun _ _ => rfl) fun l => (readBits_lockstep 1 0).bind (symbolRest_lockstep l)

theorem emitted_sameOn {s t : State} (h : SameOn A s t) (c : Byte) : SameOn A (emitted c s) (emitted c t) := by
  cases h with
  | mk m hs hm h => exact .mk (emitted c s) _ (Memory.write_wf hs _ c) (Memory.write_wf hm _ c) (Memory.write_agree hs hm h _ c)

theorem emit_lockstep (c : Byte) : Lockstep A (emit c) where
  advances s := by
    rcases emit_cases c s with ⟨-, e⟩ | ⟨-, -, e⟩ | ⟨-, -, e⟩ <;> rw [e] <;> exact ⟨rfl, Nat.le_refl _⟩
  related {s t} h _ := by
    rw [emit_eq, emit_eq, h.dstAddr, h.outCount, h.dstLen, memFault_congr h.params]
    split
    · exact .stop .bus h
    · split
      · exact .stop .ok (emitted_sameOn h c)
      · exact .ok () (emitted_sameOn h c)

theorem copyMatch_lockstep (n : Nat) : ∀ off, Lockstep A (copyMatch n off) := by
  induction n with
  | zero => exact fun _ => .ok ()
  | succ n ih =>
    intro off
    rw [funext (copyMatch_succ n off)]
    exact .reading (fun s => dictGet s.dict (off % s.params.lits.dictSize)) (fun _ _ => rfl) fun c =>
      (emit_lockstep c).bind fun _ => ih (off + 1)

theorem applySymbol_lockstep (sym : Symbol) : Lockstep A (applySymbol sym) := by
  cases sym with
  | literal c => exact emit_lockstep _
  | copy off len =>
    exact .reading (fun s => len + s.params.lits.minMatch) (fun _ _ => rfl) fun n => copyMatch_lockstep n off
  | endOfStream =>
    exact ⟨fun _ => ⟨rfl, Nat.le_refl _⟩, fun h _ =>
      .stop .ok (h.update (fun s => { s with eos := true }) (fun _ _ => rfl) fun _ => rfl)⟩

theorem lzLoop_lockstep (n : Nat) : Lockstep A (lzLoop n) := by
  induction n with
  | zero => exact .ok ()
  | succ n ih =>
    have hp : Lockstep A lzPass := by
      rw [funext lzPass_eq]
      exact readSymbol_lockstep.bind applySymbol_lockstep
    rw [funext (lzLoop_succ n)]
    exact hp.bind fun _ => ih

end

/-! ## The commands -/

/-- A byte that a command, started in the first state and ended in the second, reads or writes (R68). -/
def UsesByte (i : Instr) (s t : State) (x : Nat) : Prop := ∃ l ∈ usedBy i s t, l.region.has x = true

theorem usesByte_of_mem {i : Instr} {s t : State} {b n : Nat} {w : Bool} (h : ⟨⟨b, n⟩, w⟩ ∈ usedBy i s t) :
    ∀ y, b ≤ y → y < b + n → UsesByte i s t y :=
  fun _ h1 h2 => ⟨_, h, has_true.mpr ⟨h1, h2⟩⟩

theorem SameOn.precheck {A : Nat → Prop} {s t : State} (h : SameOn A s t) (i : Instr) : precheck i t = precheck i s :=
  h.field (Machine.precheck i) fun _ _ => by cases i <;> rfl

theorem usedBy_decrypt {s : State} (h : precheck .decrypt s = none) (t : State) :
    usedBy .decrypt s t = [⟨⟨s.srcAddr.toNat, s.srcLen.toNat⟩, true⟩] := by
  simp only [usedBy, loansOf, h, srcRegion]

theorem usedBy_decryptS {s : State} (h : precheck .decryptS s = none) (t : State) : usedBy .decryptS s t =
    [⟨⟨s.srcAddr.toNat, 4⟩, false⟩, ⟨⟨s.srcAddr.toNat + 4, s.srcLen.toNat - 4⟩, true⟩] := by
  simp only [usedBy, loansOf, h]

theorem usedBy_csum {s : State} (h : precheck .csum s = none) (t : State) :
    usedBy .csum s t = [⟨⟨s.srcAddr.toNat, 4 * (s.srcLen.toNat / 4)⟩, false⟩] := by
  simp only [usedBy, loansOf, h]

theorem usedBy_lzdec {s : State} (h : precheck .lzdec s = none) (t : State) : usedBy .lzdec s t =
    [⟨⟨s.srcAddr.toNat, t.inPos.toNat⟩, false⟩, ⟨⟨s.dstAddr.toNat, t.outCount.toNat⟩, true⟩] := by
  simp only [usedBy, h]

section
variable {A : Nat → Prop} {s s' : State} (h : SameOn A s s')
include h

theorem exec_decryptS_sameOn (hp : precheck .decryptS s = none)
    (hseed : ∀ y, s.srcAddr.toNat ≤ y → y < s.srcAddr.toNat + 4 → A y)
    (hx : ∀ y, s.srcAddr.toNat + 4 ≤ y → y < s.srcAddr.toNat + 4 + (s.srcLen.toNat - 4) → A y) :
    ∃ t t', exec .decryptS s = .next t ∧ exec .decryptS s' = .next t' ∧ SameOn A t t' := by
  have hp' := (h.precheck .decryptS).trans hp
  have hr' := h.readWord hseed
  cases hr : readWord s.srcAddr.toNat s with
  | none =>
    exact ⟨complete .bus s, complete .bus s', by simp only [exec, execDecryptS, hp, hr, raiseError_eq],
      by simp only [exec, execDecryptS, hp', h.srcAddr, hr', hr, raiseError_eq], h.complete .bus⟩
  | some w =>
    exact ⟨_, _, by simp only [exec, execDecryptS, hp, hr],
      by simp only [exec, execDecryptS, hp', h.srcAddr, h.srcLen, hr', hr], decryptBody_sameOn w h hx⟩

theorem exec_csum_sameOn (hp : precheck .csum s = none)
    (hx : ∀ y, s.srcAddr.toNat ≤ y → y < s.srcAddr.toNat + 4 * (s.srcLen.toNat / 4) → A y) :
    ∃ t t', exec .csum s = .next t ∧ exec .csum s' = .next t' ∧ SameOn A t t' := by
  have hp' := (h.precheck .csum).trans hp
  have hc := h.csumLoop (s.srcLen.toNat / 4) 0 s.srcAddr.toNat 0 hx
  rcases exec_csum_cases hp with ⟨v, hv, he⟩ | ⟨hv, he⟩ <;>
    rcases exec_csum_cases hp' with ⟨v', hv', he'⟩ | ⟨hv', he'⟩ <;>
    rw [h.srcLen, h.srcAddr, hc, hv] at hv'
  · cases hv'
    exact ⟨_, _, he, he', (h.update (fun s => { s with result := v }) (fun _ _ => rfl) fun _ => rfl).complete .ok⟩
  · cases hv'
  · cases hv'
  · exact ⟨_, _, he, he', h.complete .bus⟩

/-- `LZDEC`, on a set that holds the bytes that it has loaded at its end. -/
theorem exec_lzdec_sameOn (hp : precheck .lzdec s = none) {t : State} (he : exec .lzdec s = .next t)
    (hx : ∀ y, s.srcAddr.toNat ≤ y → y < s.srcAddr.toNat + t.inPos.toNat → A y) :
    ∃ t', exec .lzdec s' = .next t' ∧ SameOn A t t' := by
  have hp' := (h.precheck .lzdec).trans hp
  have h0 := h.update lzStart (fun _ _ => rfl) fun _ => rfl
  have hstop : ∀ c {u v}, SameOn A u v → SameOn A (lzStop c u) (lzStop c v) := fun c _ _ k =>
    k.update (lzStop c) (fun _ _ => rfl) fun _ => rfl
  obtain ⟨c, u, hu, f, -, -, ⟨hd, rfl, rfl⟩ | ⟨hd, hl, -⟩⟩ := exec_lzdec_cases hp <;> cases hu.symm.trans he
  · exact ⟨_, by simp only [exec, execLzdec, hp', h.dstLen, if_pos hd], hstop .ok h0⟩
  · have hr := (lzLoop_lockstep (A := A) (lzPassBound s)).related h0
    rw [hl] at hr
    have hb : lzPassBound s' = lzPassBound s := h.field lzPassBound fun _ _ => rfl
    have hlo : Loaded A u := fun k hk => by
      rw [f.srcAddr]
      exact hx _ (Nat.le_add_right _ _) (Nat.add_lt_add_left hk _)
    generalize hv : lzLoop (lzPassBound s) (lzStart s') = r at hr
    cases hr hlo with
    | stop c k => exact ⟨_, by simp only [exec, execLzdec, hp', h.dstLen, if_neg hd, hb, hv], hstop c k⟩

end

/-- A command over a memory that agrees on the bytes that it uses ends in the same state over a memory that agrees on them. -/
theorem exec_sameOn (i : Instr) {s t s' : State} (he : exec i s = .next t) (h : SameOn (UsesByte i s t) s s') :
    ∃ t', exec i s' = .next t' ∧ SameOn (UsesByte i s t) t t' := by
  have key : (∃ u u', exec i s = .next u ∧ exec i s' = .next u' ∧ SameOn (UsesByte i s t) u u') →
      ∃ t', exec i s' = .next t' ∧ SameOn (UsesByte i s t) t t' := by
    rintro ⟨u, u', hu, hu', k⟩
    cases hu.symm.trans he
    exact ⟨u', hu', k⟩
  cases hp : precheck i s with
  | some c => exact key ⟨_, _, exec_of_precheck hp, exec_of_precheck ((h.precheck i).trans hp), h.complete c⟩
  | none =>
    have hp' := (h.precheck i).trans hp
    cases i with
    | cinit => exact key ⟨_, _, rfl, rfl, (h.update (fun s => cipherInit s.seed s) (fun _ _ => rfl) fun _ => rfl).complete .ok⟩
    | cnext =>
      have hk : s.ksv = true := by simpa [precheck] using hp
      have hn := h.update (fun s => { s with tab := (keyStep s.params.lits s.tab).2, result := (keyStep s.params.lits s.tab).1 })
        (fun _ _ => rfl) fun _ => rfl
      exact key ⟨_, _, exec_cnext hk, exec_cnext ((h.field State.ksv fun _ _ => rfl).trans hk), hn.complete .ok⟩
    | decrypt =>
      have hb := decryptBody_sameOn s.seed h (usesByte_of_mem (by rw [usedBy_decrypt hp]; exact List.mem_cons_self))
      refine key ⟨_, _, exec_decrypt hp, exec_decrypt hp', ?_⟩
      rw [h.field State.seed fun _ _ => rfl, h.srcAddr, h.srcLen]
      exact hb
    | decryptS =>
      exact key (exec_decryptS_sameOn h hp (usesByte_of_mem (by rw [usedBy_decryptS hp]; exact List.mem_cons_self))
        (usesByte_of_mem (by rw [usedBy_decryptS hp]; exact List.mem_cons_of_mem _ List.mem_cons_self)))
    | csum => exact key (exec_csum_sameOn h hp (usesByte_of_mem (by rw [usedBy_csum hp]; exact List.mem_cons_self)))
    | lzdec =>
      exact exec_lzdec_sameOn h hp he (usesByte_of_mem (by rw [usedBy_lzdec hp]; exact List.mem_cons_self))

/-- Settles O36: the two memories stay in agreement on the bytes used, and all that the command reads is among them. -/
theorem commandsReadOnlyTheirRegions : Obligations.CommandsReadOnlyTheirRegions := by
  intro i s hs
  obtain ⟨t, he, -⟩ := exec_frame i s
  refine ⟨t, he, fun m hm hx => ?_⟩
  obtain ⟨t', he', h⟩ := exec_sameOn i he (.mk s m hs hm fun x ⟨l, hl, hlx⟩ => hx l hl x hlx)
  cases h with
  | mk m' _ _ ha => exact ⟨_, he', rfl, fun l hl x hlx => ha x ⟨l, hl, hlx⟩⟩

end Sys2Proof.Machine
end

section
/-! PROOF. Which bytes a command, a race and the host change (R66, R68, R72, R73, R266). -/

namespace Sys2Proof.Machine

/-- Settles O35: the memory part of a command's frame. -/
theorem commandsWriteOnlyTheirRegions : Obligations.CommandsWriteOnlyTheirRegions := by
  intro i s
  obtain ⟨t, he, f⟩ := exec_frame i s
  exact ⟨t, he, f.mem⟩

/-! ## Races -/

/-- There is no race exactly when the host has accessed no byte that the command used (R73). -/
theorem raced_eq_false {i : Instr} {s u : State} :
    raced i s u = false ↔ ∀ x ∈ s.touched, ∀ l ∈ usedBy i s u, l.region.has x = false := by
  simp only [raced, List.any_eq_false, Bool.not_eq_true, inLoans_eq_false]

/-- What the end of a race leaves, after a run over free bytes at the accessed addresses: the bytes that the host has not accessed and
that run does not write, and those accessed that it does not use. -/
theorem settleRace_leaves {i : Instr} {s v : State} {m : List Host.Cell} {n : Nat}
    (hm : ∀ x, x ∉ s.touched → Memory.read m x = Memory.read s.mem x) (hw : Memory.wf m = true)
    (f : CommandFrame i ((s.setMem m).setDraws n) v) :
    (∀ x, x ∉ s.touched → (∀ l ∈ usedBy i s v, l.writes = true → l.region.has x = false) →
      byteAt (settleRace i s v) x = byteAt s x) ∧
    (∀ x ∈ s.touched, (∀ l ∈ usedBy i s v, l.region.has x = false) → byteAt (settleRace i s v) x = byteAt s x) := by
  obtain ⟨m', n', r, o, p, e, hout, hin, -⟩ := settleRace_shape i s v
  rw [e]
  have hf := f.mem
  rw [usedBy_setMem] at hf
  exact ⟨fun x hx hu => (hout x hx).trans ((hf x hu).trans (hm x hx)),
    fun x hx hu => (hin (f.wf hw)).2 x hx (inLoans_eq_false.mpr hu)⟩

/-- Settles O47: a running command's transition is the command's end, or, where the host has raced with it, the settlement of a run
over free bytes. -/
theorem racesStayInside : Obligations.RacesStayInside := by
  intro s i hp ht hw
  obtain ⟨u, hu, -, ⟨hr, hs⟩ | ⟨hr, v, m, n, hm, hv, f, hs, hout, hwf, -⟩⟩ := runCommand_cases i s <;>
    rw [← step_running hp ht] at hs
  · refine ⟨u, hu, fun _ => hs, fun ⟨x, hx, l, hl, hlx⟩ => ?_⟩
    exact absurd ((raced_eq_false.mp hr x hx l hl).symm.trans hlx) nofun
  · refine ⟨u, hu, fun hno => absurd ((raced_eq_false.mpr hno).symm.trans hr) nofun, fun _ => ?_⟩
    obtain ⟨hc, hd⟩ := settleRace_leaves hout (hwf hw) f
    obtain ⟨m', n', r, o, p, e, -⟩ := settleRace_shape i s v
    refine ⟨_, v, hs, hm ▸ hv, hc, hd, ?_⟩
    rw [e, f.shape]
    exact ⟨rfl, rfl, rfl, rfl, rfl, rfl, rfl, rfl, rfl, rfl, rfl⟩

/-! ## The host's accesses -/

section
variable {s : State} {x : Nat} (hx : x < memSize s) (hf : memFault s x = false)
include hx hf

/-- A host read outside the bytes that the running command writes and those that ended commands wrote unseen is exact (R72). -/
theorem hostReadByte_outside (hw : inWrites (exposed s) x = false) (hu : ((pastWrites s).any fun r => r.has x) = false) :
    hostReadByte x s = .ok (byteAt s x) (markTouched (inWrites (reach s) x) x s) := by
  simp only [hostReadByte, if_neg (Nat.not_le.mpr hx), hf, hw, hu]
  rfl

/-- A host write outside the running command's bytes is exact (R72). -/
theorem hostWriteByte_outside (v : Byte) (hl : inLoans (exposed s) x = false) :
    hostWriteByte x v s = .ok () (markTouched (inLoans (reach s) x) x (markSeen x (s.setMem (Memory.write s.mem x v)))) := by
  simp only [hostWriteByte, if_neg (Nat.not_le.mpr hx), hf, hl]
  rfl

end

/-- Settles O54: outside the bytes of commands a host access is the read or write of one byte, and the notes that the model makes of
it touch no register. -/
theorem hostAccessOutsideRegions : Obligations.HostAccessOutsideRegions := by
  refine fun s x v hx hf hwf => ⟨fun hw hu => ?_, fun hl => ?_, fun hp => ?_⟩
  · have hu' : ((pastWrites s).any fun r => r.has x) = false := by
      simpa only [List.any_eq_false, Bool.not_eq_true] using hu
    refine ⟨_, hostReadByte_outside hx hf (inWrites_eq_false.mpr hw) hu', ?_, fun hp => ?_⟩
    · rw [markTouched_cases]
      rfl
    · rw [reach_of_idle hp]
      rfl
  · obtain ⟨h, u, hs, -⟩ := markSeen_cases x (s.setMem (Memory.write s.mem x v))
    refine ⟨_, hostWriteByte_outside hx hf v (inLoans_eq_false.mpr hl), ?_⟩
    rw [markTouched_cases, hs]
    refine ⟨rfl, Memory.read_write_same hwf x v, fun y hy => Memory.read_write_other _ _ ?_⟩
    have := has_false hy
    omega
  · obtain ⟨h, u, hw, hseen⟩ := hostWriteByte_idle v hp hx hf
    refine ⟨_, hw, ?_⟩
    have hr := hostReadByte_idle (s := (s.setMem (Memory.write s.mem x v)).setSeen h u) hp hx hf ((hseen x).trans (by simp))
    rw [hr]
    exact congrArg (HostRes.ok · _) (Memory.read_write_same hwf x v)

end Sys2Proof.Machine
end

section
/-! PROOF. Command words (R80 to R86): the words that decode are those of the commands, and a word's four bytes decode as it does. -/

namespace Sys2Proof

theorem decode_encode (i : Instr) : decode (encode i) = .ok i := by
  cases i <;> decide

theorem CmdWord.eq_fields {c : CmdWord} {i : Instr} (hr : c.rsv = 0) (ho : c.op = i.fields.op) (hs : c.s = i.fields.s) :
    c = i.fields := by
  have hi : i.fields.rsv = 0 := by cases i <;> rfl
  obtain ⟨op, s, rsv⟩ := c
  exact (CmdWord.mk.injEq ..).mpr ⟨ho, hs, hr.trans hi.symm⟩

/-- The test of `v[4]` passes for the fields of the command alone, where the opcode is the command's and its `S` is 0. -/
theorem eq_fields_of_requireNoSeedBit {c : CmdWord} {i j : Instr} (hr : c.rsv = 0) (ho : c.op = i.fields.op)
    (hi : i.fields.s = 0) (h : requireNoSeedBit c i = .ok j) : c = j.fields := by
  unfold requireNoSeedBit at h
  split_ifs at h with hs
  cases h
  exact CmdWord.eq_fields hr ho (hs.trans hi.symm)

/-- The fields that decode to a command are the fields of that command. -/
theorem eq_fields_of_decodeFields {c : CmdWord} {i : Instr} (h : decodeFields c = .ok i) : c = i.fields := by
  unfold decodeFields at h
  split_ifs at h with hr h1 h2 h3 hs h4 h5 <;> rw [not_not] at hr
  · exact eq_fields_of_requireNoSeedBit (i := .cinit) hr h1 rfl h
  · exact eq_fields_of_requireNoSeedBit (i := .cnext) hr h2 rfl h
  · cases h
    exact CmdWord.eq_fields hr h3 hs
  · cases h
    exact CmdWord.eq_fields hr h3 ((BitVec.eq_zero_or_eq_one c.s).resolve_left hs)
  · exact eq_fields_of_requireNoSeedBit (i := .csum) hr h4 rfl h
  · exact eq_fields_of_requireNoSeedBit (i := .lzdec) hr h5 rfl h

theorem CmdWord.toWord_ofWord (v : Word) : (CmdWord.ofWord v).toWord = v := by
  show v.extractLsb' 5 27 ++ v.extractLsb' 4 1 ++ v.extractLsb' 0 4 = v
  rw [BitVec.extractLsb'_append_extractLsb'_eq_extractLsb' (show 5 = 4 + 1 from rfl),
    BitVec.extractLsb'_append_extractLsb'_eq_extractLsb' (show 4 = 0 + 4 from rfl)]
  exact BitVec.extractLsb'_eq_self

theorem decode_eq_ok_iff {v : Word} {i : Instr} : decode v = .ok i ↔ v = encode i := by
  refine ⟨fun h => ?_, fun h => h ▸ decode_encode i⟩
  rw [← CmdWord.toWord_ofWord v, eq_fields_of_decodeFields h, encode]

/-- A word of which the four bytes are given is the number that they hold (R32, R62). -/
theorem wordOfBytes_eq_ofNat_leNat (b0 b1 b2 b3 : Byte) : wordOfBytes b0 b1 b2 b3 = BitVec.ofNat 32 (leNat [b0, b1, b2, b3]) := by
  apply BitVec.eq_of_toNat_eq
  rw [BitVec.toNat_ofNat, Machine.wordOfBytes_toNat]
  simp only [leNat]
  omega

/-- The low bytes of a number hold it modulo `2^(8n)`. -/
theorem leNat_leBytes (n : Nat) : ∀ v, leNat (leBytes n v) = v % 256 ^ n := by
  induction n with
  | zero => exact fun v => (Nat.mod_one v).symm
  | succ n ih => exact fun v => by rw [leBytes, leNat, ih, Nat.pow_succ', Nat.mod_mul, BitVec.toNat_ofNat]

/-- The four bytes of a number decode as the word that they hold does, whatever follows (R85). -/
theorem decodeBytes_leBytes (v : Nat) (rest : List Byte) :
    decodeBytes (leBytes 4 v ++ rest) = (decode (BitVec.ofNat 32 (leNat (leBytes 4 v)))).map (·, rest) := by
  simp only [leBytes, List.cons_append, List.nil_append, decodeBytes, wordOfBytes_eq_ofNat_leNat]
  generalize decode _ = d
  cases d <;> rfl

/-- A word laid out as four bytes decodes as the word. -/
theorem decodeBytes_leBytes_toNat (v : Word) (rest : List Byte) :
    decodeBytes (leBytes 4 v.toNat ++ rest) = (decode v).map (·, rest) := by
  rw [decodeBytes_leBytes, leNat_leBytes, Nat.mod_eq_of_lt (show v.toNat < 256 ^ 4 from v.isLt), BitVec.ofNat_toNat,
    BitVec.setWidth_eq]

/-- Settles O1: the words are those of `encode`. -/
theorem commandWordsDecode : Obligations.CommandWordsDecode :=
  ⟨decode_encode .cinit, decode_encode .cnext, decode_encode .decrypt, decode_encode .decryptS, decode_encode .csum,
    decode_encode .lzdec⟩

/-- The words that R82 lists are those of the six commands. -/
theorem mem_commandWords {v : Word} :
    v ∈ [0x00000001#32, 0x00000002#32, 0x00000003#32, 0x00000013#32, 0x00000004#32, 0x00000005#32] ↔ ∃ i, v = encode i := by
  refine ⟨fun h => ?_, fun ⟨i, h⟩ => by rw [h]; cases i <;> decide⟩
  simp only [List.mem_cons, List.not_mem_nil, or_false] at h
  rcases h with rfl | rfl | rfl | rfl | rfl | rfl
  · exact ⟨.cinit, rfl⟩
  · exact ⟨.cnext, rfl⟩
  · exact ⟨.decrypt, rfl⟩
  · exact ⟨.decryptS, rfl⟩
  · exact ⟨.csum, rfl⟩
  · exact ⟨.lzdec, rfl⟩

/-- Settles O2: a word decodes to a command exactly when it is the command's word, and there are six of those. -/
theorem decodeEncodeAgree : Obligations.DecodeEncodeAgree := by
  refine ⟨⟨rfl, rfl, rfl, rfl, rfl, rfl⟩, fun v i => decode_eq_ok_iff, fun v => ?_, fun i rest => ?_⟩
  · rw [mem_commandWords]
    simp only [← decode_eq_ok_iff]
    cases decode v <;> simp
  · rw [decodeBytes_leBytes_toNat, decode_encode]
    rfl

end Sys2Proof
end

section
/-! PROOF. The symbols of the bitstream over lists of bits (R87 to R91): a field is read from its own bits alone, and with it a
symbol. -/

namespace Sys2Proof

/-- A field is read exactly from its own bits, most significant first, above those already read (R87). -/
theorem takeBits_eq_some_iff (n : Nat) : ∀ {v w : Nat} {bs rest : List Bool},
    takeBits n v bs = some (w, rest) ↔ w / 2 ^ n = v ∧ bs = bitsMsb n w ++ rest := by
  induction n with
  | zero => intro v w bs rest; simp [takeBits, bitsMsb, eq_comm]
  | succ n ih =>
    intro v w bs rest
    cases bs with
    | nil => simp [takeBits, bitsMsb]
    | cons b bs =>
      have hw : w / 2 ^ n = 2 * (w / 2 ^ (n + 1)) + (w.testBit n).toNat := by
        rw [Nat.toNat_testBit, Nat.pow_succ, ← Nat.div_div_eq_div_mul]
        omega
      rw [takeBits, ih, hw, bitsMsb, List.cons_append, List.cons.injEq, ← and_assoc]
      refine and_congr_left fun _ => ?_
      cases b <;> cases w.testBit n <;> simp <;> omega

/-- A field on its own, nothing having been read before it. -/
theorem takeField_eq_some_iff {n w : Nat} {bs rest : List Bool} :
    takeBits n 0 bs = some (w, rest) ↔ w < 2 ^ n ∧ bs = bitsMsb n w ++ rest := by
  rw [takeBits_eq_some_iff, Nat.div_eq_zero_iff_lt (Nat.two_pow_pos n)]

/-- The rest of a symbol after its decision bit, over a list of bits (R89 to R91). -/
def takeRest (l : Literals) (d : Nat) (bs : List Bool) : Option (Symbol × List Bool) :=
  if d = 1 then (takeBits l.literalBits 0 bs).bind fun p => some (.literal p.1, p.2)
  else
    (takeBits l.offsetBits 0 bs).bind fun p =>
      if p.1 = 0 then some (.endOfStream, p.2)
      else (takeBits l.lengthBits 0 p.2).bind fun q => some (.copy p.1 q.1, q.2)

theorem takeSymbol_eq (l : Literals) (bs : List Bool) :
    takeSymbol l bs = (takeBits 1 0 bs).bind fun p => takeRest l p.1 p.2 := by
  cases bs with
  | nil => rfl
  | cons b bs =>
    cases b with
    | true =>
      cases h : takeBits l.literalBits 0 bs <;> simp [takeSymbol, takeRest, takeBits, h]
    | false =>
      rcases h : takeBits l.offsetBits 0 bs with _ | ⟨off, bs2⟩
      · simp [takeSymbol, takeRest, takeBits, h]
      · cases h2 : takeBits l.lengthBits 0 bs2 <;> simp [takeSymbol, takeRest, takeBits, h, h2]

theorem takeSymbol_true_cons (l : Literals) (bs : List Bool) :
    takeSymbol l (true :: bs) = (takeBits l.literalBits 0 bs).bind fun p => some (.literal p.1, p.2) := takeSymbol_eq l _

theorem takeSymbol_false_cons (l : Literals) (bs : List Bool) :
    takeSymbol l (false :: bs) = (takeBits l.offsetBits 0 bs).bind fun p =>
      if p.1 = 0 then some (.endOfStream, p.2)
      else (takeBits l.lengthBits 0 p.2).bind fun q => some (.copy p.1 q.1, q.2) := takeSymbol_eq l _

/-- A well-formed symbol is read back from its bits, whatever follows them. -/
theorem takeSymbol_bits {l : Literals} {y : Symbol} (h : y.wellFormed l = true) (rest : List Bool) :
    takeSymbol l (y.bits l ++ rest) = some (y, rest) := by
  have field {n w : Nat} (hw : w < 2 ^ n) (bs : List Bool) : takeBits n 0 (bitsMsb n w ++ bs) = some (w, bs) :=
    takeField_eq_some_iff.mpr ⟨hw, rfl⟩
  cases y with
  | literal c =>
    have hc := of_decide_eq_true h
    simp [Symbol.bits, takeSymbol_true_cons, field hc]
  | copy off len =>
    simp only [Symbol.wellFormed, Bool.and_eq_true, bne_iff_ne, decide_eq_true_eq] at h
    obtain ⟨⟨h0, ho⟩, hl⟩ := h
    simp [Symbol.bits, takeSymbol_false_cons, field ho, field hl, h0]
  | endOfStream => simp [Symbol.bits, takeSymbol_false_cons, field (Nat.two_pow_pos l.offsetBits)]

/-- What is read is the bits of a well-formed symbol: a literal after a 1, and after a 0 the end marker or a match. -/
theorem bits_of_takeSymbol {l : Literals} {y : Symbol} {bs rest : List Bool} (h : takeSymbol l bs = some (y, rest)) :
    y.wellFormed l = true ∧ bs = y.bits l ++ rest := by
  cases bs with
  | nil => cases h
  | cons b bs =>
    cases b with
    | true =>
      rw [takeSymbol_true_cons] at h
      obtain ⟨⟨c, r⟩, h1, e⟩ := Option.bind_eq_some_iff.mp h
      cases e
      obtain ⟨hc, rfl⟩ := takeField_eq_some_iff.mp h1
      exact ⟨decide_eq_true hc, rfl⟩
    | false =>
      rw [takeSymbol_false_cons] at h
      obtain ⟨⟨off, r⟩, h1, e⟩ := Option.bind_eq_some_iff.mp h
      obtain ⟨ho, rfl⟩ := takeField_eq_some_iff.mp h1
      dsimp only at e
      split at e
      · rename_i h0
        cases e
        exact ⟨rfl, by rw [h0]; rfl⟩
      · rename_i h0
        obtain ⟨⟨len, r'⟩, h2, e⟩ := Option.bind_eq_some_iff.mp e
        cases e
        obtain ⟨hl, rfl⟩ := takeField_eq_some_iff.mp h2
        exact ⟨by simp [Symbol.wellFormed, h0, ho, hl], by simp [Symbol.bits]⟩

/-- Settles O4: by the two directions above. -/
theorem symbolRoundTrip : Obligations.SymbolRoundTrip :=
  fun _ => ⟨fun _ rest h => takeSymbol_bits h rest, fun _ _ _ h => bits_of_takeSymbol h⟩

end Sys2Proof
end

section
/-! PROOF. The cursor as a reader of a list of bits (R87, R143, R144): a bit, a field and a symbol that it reads are those at the head
of the bits that it has still to read, and where these end the read is `TRUNCATED`. -/

namespace Sys2Proof.Machine

/-- At most the cursor is another one (R47). -/
def MovesCursor (s t : State) : Prop := t = s.setCursor t.pos t.mask t.rack

theorem MovesCursor.setCursor (s : State) (p : Word) (m r : Byte) : MovesCursor s (s.setCursor p m r) := rfl

theorem MovesCursor.trans {s t u : State} (h : MovesCursor s t) (k : MovesCursor t u) : MovesCursor s u := by
  unfold MovesCursor at h k ⊢
  rw [h] at k
  exact k

/-- A cursor inside a source of which no byte faults. -/
structure Readable (s : State) : Prop extends CursorIn s where
  noFault : NoFault s s.srcAddr.toNat s.srcLen.toNat

/-- What is read in `s` is what a decoder takes off the remaining bits: both go on with one value, the cursor moved to the bits that
the decoder leaves, or both run out, the source being used up. -/
inductive ReadsAs (s : State) {α : Type} : Option (α × List Bool) → Res α → Prop
  | some (a : α) {t : State} (hm : MovesCursor s t) (h : Readable t) : ReadsAs s (some (a, remainingBits t)) (.ok a t)
  | none {t : State} (hm : MovesCursor s t) (h : t.pos = t.srcLen) : ReadsAs s none (.stop .truncated t)

theorem ReadsAs.bind {s : State} {α β : Type} {o : Option (α × List Bool)} {x : Res α} (h : ReadsAs s o x)
    {f : α × List Bool → Option (β × List Bool)} {k : α → State → Res β}
    (hk : ∀ a t, Readable t → MovesCursor s t → ReadsAs t (f (a, remainingBits t)) (k a t)) : ReadsAs s (o.bind f) (x.bind k) := by
  cases h with
  | none hm hp => exact .none hm hp
  | @some a t hm ht =>
    have hr := hk a t ht hm
    rw [Option.bind_some, Res.bind]
    generalize f (a, remainingBits t) = o' at hr ⊢
    generalize k a t = x' at hr ⊢
    cases hr with
    | some b hm' h' => exact .some b (hm.trans hm') h'
    | none hm' hp => exact .none (hm.trans hm') hp

/-- The mask selects the bit of `RACK` that has as many below it as the next mask leaves (R143). -/
theorem mask_bit {m : Byte}
    (h : m = 0x80 ∨ m = 0x40 ∨ m = 0x20 ∨ m = 0x10 ∨ m = 0x08 ∨ m = 0x04 ∨ m = 0x02 ∨ m = 0x01) (r : Byte) :
    decide (r &&& m ≠ 0) = r.toNat.testBit (maskLeft (nextMask m)) := by
  have hm : m = BitVec.twoPow 8 (maskLeft (nextMask m)) ∧ m ≠ 0 := by
    rcases h with rfl | rfl | rfl | rfl | rfl | rfl | rfl | rfl <;> decide
  obtain ⟨hm, h0⟩ := hm
  have hand := BitVec.and_twoPow r (maskLeft (nextMask m))
  rw [← hm] at hand
  rw [hand, BitVec.testBit_toNat]
  split <;> rename_i hb
  · rw [hb, decide_eq_true h0]
  · rw [Bool.eq_false_of_not_eq_true hb]
    rfl

/-- The bits of a byte that are left before a read are the one read and those left after it (R143). -/
theorem bitsMsb_mask {m : Byte}
    (h : m = 0x80 ∨ m = 0x40 ∨ m = 0x20 ∨ m = 0x10 ∨ m = 0x08 ∨ m = 0x04 ∨ m = 0x02 ∨ m = 0x01) (r : Byte) :
    bitsMsb (if m = 0x80 then 8 else maskLeft m) r.toNat =
      decide (r &&& m ≠ 0) :: bitsMsb (maskLeft (nextMask m)) r.toNat := by
  rw [← (nextMask_of_cases h).2, bitsMsb, mask_bit h]

theorem bitsOfBytes_cons (b : Byte) (bs : List Byte) : bitsOfBytes (b :: bs) = bitsMsb 8 b.toNat ++ bitsOfBytes bs := rfl

/-- The bits of the source bytes that the cursor has not loaded. -/
def unloadedBits (s : State) : List Bool :=
  bitsOfBytes (bytesFrom s (s.srcAddr.toNat + s.pos.toNat) (s.srcLen.toNat - s.pos.toNat))

theorem remainingBits_eq (s : State) : remainingBits s = bitsMsb (maskLeft s.mask) s.rack.toNat ++ unloadedBits s := rfl

theorem unloadedBits_setCursor (s : State) (p : Word) (m r : Byte) : unloadedBits (s.setCursor p m r) =
    bitsOfBytes (bytesFrom s (s.srcAddr.toNat + p.toNat) (s.srcLen.toNat - p.toNat)) :=
  congrArg bitsOfBytes (bytesFrom_congr (setCursor_mem s p m r) _ _)

/-- The bits not loaded, while the source has a byte left, are those of its next byte and the rest (R87). -/
theorem unloadedBits_of_lt {s : State} (h : s.pos.toNat < s.srcLen.toNat) (m r : Byte) :
    unloadedBits s = bitsMsb 8 (byteAt s (s.srcAddr.toNat + s.pos.toNat)).toNat ++ unloadedBits (s.setCursor (s.pos + 1) m r) := by
  have hn : s.srcLen.toNat - s.pos.toNat = s.srcLen.toNat - (s.pos.toNat + 1) + 1 := by omega
  rw [unloadedBits, hn, bytesFrom, bitsOfBytes_cons, unloadedBits_setCursor, succ_toNat_of_lt h, ← Nat.add_assoc]

theorem unloadedBits_of_le {s : State} (h : s.srcLen.toNat ≤ s.pos.toNat) : unloadedBits s = [] := by
  rw [unloadedBits, Nat.sub_eq_zero_of_le h]
  rfl

/-- A load finds no bit left, or leaves a byte in `RACK` of which the remaining bits begin with those that the mask selects (R143). -/
theorem cursorLoad_bits {s : State} (h : Readable s) :
    (cursorLoad s = .stop .truncated s ∧ s.pos = s.srcLen ∧ remainingBits s = []) ∨
    ∃ p r, cursorLoad s = .ok () (s.setCursor p s.mask r) ∧ p.toNat ≤ s.srcLen.toNat ∧
      remainingBits s =
        bitsMsb (if s.mask = 0x80 then 8 else maskLeft s.mask) r.toNat ++ unloadedBits (s.setCursor p s.mask r) := by
  have hp := h.pos
  have full (h1 : s.mask = 0x80) : remainingBits s = unloadedBits s := by
    rw [remainingBits_eq, h1]
    rfl
  rcases cursorLoad_cases s with ⟨h1, h2, h3⟩ | ⟨-, h2, hf, -⟩ | ⟨h1, h2, h3⟩ | ⟨h1, h3⟩
  · exact .inl ⟨h3, BitVec.eq_of_toNat_eq (by omega), (full h1).trans (unloadedBits_of_le h2)⟩
  · exact absurd ((h.noFault _ (by omega) (by omega)).symm.trans hf) nofun
  · refine .inr ⟨_, _, h3, by rw [succ_toNat_of_lt h2]; omega, ?_⟩
    rw [if_pos h1, full h1]
    exact unloadedBits_of_lt h2 _ _
  · refine .inr ⟨_, _, h3, hp, ?_⟩
    rw [if_neg h1]
    rfl

/-- A bit read is the first of the remaining bits (R87, R143). -/
theorem readBit_readsAs {s : State} (h : Readable s) : ReadsAs s (remainingBits s).next? (readBit s) := by
  have hm := maskOk_cases h.mask
  rw [readBit_eq]
  rcases cursorLoad_bits h with ⟨hl, hp, hb⟩ | ⟨p, r, hl, hp, hb⟩
  · rw [hl, hb]
    exact .none (.setCursor s _ _ _) hp
  · rw [hl, hb, bitsMsb_mask hm, unloadedBits_setCursor, ← unloadedBits_setCursor s p (nextMask s.mask) r]
    exact .some _ (.setCursor s p (nextMask s.mask) r) ⟨⟨maskOk_of_cases (nextMask_of_cases hm).1, hp⟩, h.noFault⟩

theorem takeBits_succ (n v : Nat) (bs : List Bool) :
    takeBits (n + 1) v bs = bs.next?.bind fun p => takeBits n (2 * v + p.1.toNat) p.2 := by
  cases bs <;> rfl

/-- A field read is the field at the head of the remaining bits (R144). -/
theorem readBits_readsAs (n : Nat) : ∀ (v : Nat) {s : State}, Readable s →
    ReadsAs s (takeBits n v (remainingBits s)) (readBits n v s) := by
  induction n with
  | zero => exact fun v s h => .some v (.setCursor s _ _ _) h
  | succ n ih =>
    intro v s h
    rw [takeBits_succ, readBits_succ]
    exact (readBit_readsAs h).bind fun b t ht _ => ih (2 * v + b.toNat) ht

theorem symbolRest_readsAs (l : Literals) (d : Nat) {s : State} (h : Readable s) :
    ReadsAs s (takeRest l d (remainingBits s)) (symbolRest l d s) := by
  unfold takeRest symbolRest
  split
  · exact (readBits_readsAs _ 0 h).bind fun c t ht _ => .some _ (.setCursor t _ _ _) ht
  · refine (readBits_readsAs _ 0 h).bind fun off t ht _ => ?_
    dsimp only
    split
    · exact .some _ (.setCursor t _ _ _) ht
    · exact (readBits_readsAs _ 0 ht).bind fun len u hu _ => .some _ (.setCursor u _ _ _) hu

/-- A symbol read is the symbol at the head of the remaining bits (R89 to R91, R140). -/
theorem readSymbol_readsAs {s : State} (h : Readable s) :
    ReadsAs s (takeSymbol s.params.lits (remainingBits s)) (readSymbol s) := by
  rw [takeSymbol_eq, readSymbol_eq]
  exact (readBits_readsAs 1 0 h).bind fun d t ht _ => symbolRest_readsAs _ d ht

/-- Settles O5: the cursor of the statement's states is readable, and its read is what the bit-level decoder takes. -/
theorem cursorReadsTheBitstream : Obligations.CursorReadsTheBitstream := by
  intro s hm hp hf
  have hr := readSymbol_readsAs ⟨⟨hm, hp⟩, hf⟩
  generalize takeSymbol s.params.lits (remainingBits s) = o at hr
  generalize readSymbol s = x at hr
  cases hr with
  | some y hm ht =>
    refine ⟨fun y' rest h => ?_, nofun⟩
    cases h
    exact ⟨_, rfl, hm, ht.mask, ht.pos, rfl⟩
  | none hm ht => exact ⟨nofun, fun _ => ⟨_, rfl, hm, ht⟩⟩

end Sys2Proof.Machine
end

section
/-! PROOF. What a step runs (R269), and the statements of the host program one by one (R92): branches, register accesses, expressions,
and the copies and fills of data memory. -/

namespace Sys2Proof.Machine

/-! ## The command that a step runs -/

theorem decodeOp_encode (m : Instr) : decodeOp (encode m) = some m := by
  rw [decodeOp, decode_encode]

/-- The word of an opcode-table row decodes as its four bytes do. -/
theorem decodeOp_tableWord (nbits w : Nat) : decodeOp (tableWord nbits w) = decodeTableWord nbits w := by
  have hb := decodeBytes_leBytes (w % 2 ^ nbits) []
  rw [List.append_nil] at hb
  unfold decodeOp decodeTableWord tableWord tableBytes
  rw [hb]
  cases decode (BitVec.ofNat 32 (leNat (leBytes 4 (w % 2 ^ nbits)))) <;> rfl

/-- Settles O46: the running command's transition where the host has no turn, and its next statement where it has. -/
theorem stepRunsTheDecodedCommand : Obligations.StepRunsTheDecodedCommand := by
  refine ⟨fun s i hp ht h0 => ?_, fun s nbits w i hi => ?_, fun s i u t hp ht hu hr hv => ?_, fun s hp => step_idle hp,
    fun s op n hp ht hn => step_waiting hp ht hn⟩
  · rw [step_running hp ht, runCommand_of_untouched i h0]
  · have hp : (s.withFetchWord nbits w).phase = .running (some i) := congrArg Phase.running ((decodeOp_tableWord nbits w).trans hi)
    rw [step_running hp (.inl rfl), runCommand_of_untouched i rfl]
  · rw [step_running hp ht, runCommand_of_race hu hr hv]

/-! ## Branches -/

/-- A branch on the values of expressions, whose evaluation counts free values and changes nothing else. -/
theorem branchIf_of_values {s : State} {l : Label} {k : Nat} (hl : findLabel s.host.prog l = some k) (d : Nat) (c : Prop)
    [Decidable c] : branchIf (decide c) l (s.setDraws d) =
      .next ((s.setDraws d).setHost { s.host with pc := if c then k else s.host.pc + 1 }) := by
  rw [branchIf_of_label (s := s.setDraws d) hl]
  simp only [decide_eq_true_eq]
  rfl

/-- Settles O57: each branch is `branchIf` of its condition, and the label's line is the first that carries it. -/
theorem hostBranches : Obligations.HostBranches := by
  intro s ea eb l k hp hl p q
  refine ⟨fun hn => ?_, fun hn => ?_, fun hn => ?_, findLabel_some _ l k hl, findLabel_first _ l k hl⟩
  · exact (step_of_stmt hp hn).trans (branchIf_of_values hl _ _)
  · rw [← ite_not]
    exact (step_of_stmt hp hn).trans (branchIf_of_values hl _ _)
  · exact (step_of_stmt hp hn).trans (branchIf_of_values hl _ _)

/-! ## Register accesses -/

theorem windowRead_host (off width : Nat) (s : State) : (windowRead off width s).2.host = s.host := by
  rcases windowRead_cases off width s with ⟨w, n, h⟩ | ⟨-, h⟩ <;> exact congrArg (·.2.host) h

theorem HostMoves.host {s u : State} (h : HostMoves s u) : u.host = s.host := by
  rcases h with ⟨-, rfl⟩ | ⟨op, n, -, -, rfl⟩ <;> rfl

theorem busy_of_running {s : State} {op : Option Instr} (h : s.phase = .running op) : busy s = true := by simp only [busy, h]

theorem evalWord_of_lt {e : Expr} {s : State} (h : (evalHost e s).1 < 2 ^ 32) :
    evalWord e s = (BitVec.ofNat 32 (evalHost e s).1, (evalHost e s).2) := if_pos h

theorem lookupVar_setVar_same (x : Var) (v : Nat) (s : State) : lookupVar (setVar x v s).host.vars x = some v :=
  (lookupVar_assignVar _ x v x).trans (if_pos rfl)

theorem lookupVar_setVar_other {x y : Var} (h : y ≠ x) (v : Nat) (s : State) :
    lookupVar (setVar x v s).host.vars y = lookupVar s.host.vars y := (lookupVar_assignVar _ x v y).trans (if_neg h)

/-- A busy block ignores `CMD` and `WR` (R34). -/
theorem hostCmd_of_busy {s : State} (h : busy s = true) (m : Instr) : hostCmd m s = .next (advance s) := by
  rw [hostCmd, windowWrite_of_busy h]

theorem hostWr_of_busy {s : State} (h : busy s = true) (r : HReg) (e : Expr) :
    ∃ d, hostWr r e s = .next (advance (s.setDraws d)) := by
  obtain ⟨d, hd⟩ := evalWord_shape e s
  refine ⟨d, ?_⟩
  rw [hostWr, hd, windowWrite_of_busy (s := s.setDraws d) h]

/-- Settles O58: each statement is one access to the window. -/
theorem hostRegisterWrites : Obligations.HostRegisterWrites := by
  refine ⟨fun s hp => ⟨fun m hn => ?_, fun r e hn hv => ?_⟩, fun s op n hp ht => ?_,
    fun s u hm r => ⟨fun hn => ?_, fun x hn => ?_⟩⟩
  · have hw := windowWrite_regOffset .cmd (encode m) (busy_of_idle hp)
    refine ⟨_, step_of_stmt hp hn, rfl, ?_, ?_, ?_⟩ <;> rw [hw]
    · rfl
    · exact congrArg Phase.running (decodeOp_encode m)
    · rfl
  · rw [step_of_stmt hp hn, hostStmt, hostWr, evalWord_of_lt hv]
  · have hm : HostMoves s { s with turns := n } := .inr ⟨op, n, hp, ht, rfl⟩
    have hb : busy { s with turns := n } = true := busy_of_running hp
    refine ⟨fun m hn => (step_of_moves hm hn).trans (hostCmd_of_busy hb m), fun r e hn => ?_⟩
    obtain ⟨d, hd⟩ := hostWr_of_busy hb r e
    exact ⟨d, (step_of_moves hm hn).trans hd⟩
  · rw [step_of_moves hm hn]
    rfl
  · have hh := (windowRead_host (regOffset r) 4 u).trans hm.host
    refine ⟨_, step_of_moves hm hn, lookupVar_setVar_same x _ _, fun y hy => ?_, ?_, rfl⟩
    · rw [← hh]
      exact lookupVar_setVar_other hy _ _
    · rw [← hh]
      rfl

/-! ## Expressions -/

theorem evalHost_sub_of_le {a b : Expr} {s : State} (h : (evalHost b (evalHost a s).2).1 ≤ (evalHost a s).1) :
    evalHost (.sub a b) s = ((evalHost a s).1 - (evalHost b (evalHost a s).2).1, (evalHost b (evalHost a s).2).2) := by
  change (evalExpr s.host.vars b (evalExpr s.host.vars a s.draws).2).1 ≤ (evalExpr s.host.vars a s.draws).1 at h
  rw [evalHost, evalExpr, if_pos h]
  rfl

/-- Settles O60: the equations of `evalExpr` where R92 states a value, and `LET`. -/
theorem hostExpressions : Obligations.HostExpressions := by
  refine fun s => ⟨fun v => rfl, fun x v hx => ?_, fun a b => ⟨rfl, ?_, rfl, evalHost_sub_of_le⟩, fun x e hp hn => ?_⟩
  · rw [evalHost, evalExpr, hx]
    rfl
  · rw [← Nat.shiftRight_eq_div_pow]
    rfl
  · exact ⟨_, step_of_stmt hp hn, lookupVar_setVar_same x _ _, fun y hy => lookupVar_setVar_other hy _ _, rfl, rfl⟩

/-! ## Data memory -/

theorem length_bytesFrom (s : State) (n : Nat) : ∀ x, (bytesFrom s x n).length = n := by
  induction n with
  | zero => exact fun _ => rfl
  | succ n ih => exact fun x => congrArg (· + 1) (ih (x + 1))

section
variable {s : State} {a n : Nat} (hp : s.phase = .idle) (ha : a + n ≤ memSize s) (hf : NoFault s a n)
include hp ha hf

/-- What the host reads of an idle block's memory, having seen the end of every command that wrote it (R72). -/
theorem hostReadBytes_seen (hs : ∀ y, a ≤ y → y < a + n → ∀ r ∈ pastWrites s, r.has y = false) (d : Nat) :
    hostReadBytes a n (s.setDraws d) = .ok (bytesFrom s a n) (s.setDraws d) := by
  have hu : ∀ y, a ≤ y → y < a + n → ((pastWrites s).any fun r => r.has y) = false := fun y h1 h2 => by
    simpa only [List.any_eq_false, Bool.not_eq_true] using hs y h1 h2
  rw [hostReadBytes_ok n a (s.setDraws d) hp ha hf hu, bytesFrom_congr (setDraws_mem s d)]

/-- A statement that writes bytes of an idle block's memory stores them, goes to the next line, and changes no register. -/
theorem afterWrite_stores (hw : Memory.wf s.mem = true) {bs : List Byte} (hl : bs.length = n) (d : Nat) :
    ∃ t, afterWrite (hostWriteBytes a bs (s.setDraws d)) = .next t ∧ bytesFrom t a n = bs ∧ SameOutside ⟨a, n⟩ s t ∧
      t.host = { s.host with pc := s.host.pc + 1 } ∧
      t = { s with mem := t.mem, draws := t.draws, held := t.held, unseen := t.unseen, host := t.host } := by
  subst hl
  obtain ⟨m, h, u, hb, hout, hin, -⟩ := hostWriteBytes_ok bs a (s.setDraws d) hp ha hf hw
  have hmem : (advance (((s.setDraws d).setMem m).setSeen h u)).mem = ((s.setDraws d).setMem m).mem := rfl
  exact ⟨advance (((s.setDraws d).setMem m).setSeen h u), by rw [hb, afterWrite], (bytesFrom_congr hmem _ _).trans hin,
    fun y hy => hout y (has_false hy), rfl, rfl⟩

end

theorem hostMemrd_of_read {ea en : Expr} {s t : State} {bs : List Byte}
    (h : hostReadBytes (evalHost ea s).1 (evalHost en (evalHost ea s).2).1 (evalHost en (evalHost ea s).2).2 = .ok bs t) (x : Var) :
    hostMemrd ea en x s = .next (advance (setVar x (leNat bs) t)) := by
  rw [hostMemrd, h]

theorem hostMemcpy_of_read {ed ea en : Expr} {s t : State} {bs : List Byte}
    (h : hostReadBytes (evalHost ea (evalHost ed s).2).1 (evalHost en (evalHost ea (evalHost ed s).2).2).1
      (evalHost en (evalHost ea (evalHost ed s).2).2).2 = .ok bs t) :
    hostMemcpy ed ea en s = afterWrite (hostWriteBytes (evalHost ed s).1 bs t) := by
  rw [hostMemcpy, h]

/-- Settles O55: the writes and reads of an idle block's memory, from the values of the statement's expressions. -/
theorem hostMemoryStatements : Obligations.HostMemoryStatements := by
  refine fun s hp hw => ⟨fun ea bytes hn ha hf => ?_, fun ea en b hn ha hf => ?_, fun ea en x hn ha hf hs => ?_⟩
  · rw [step_of_stmt hp hn]
    exact afterWrite_stores hp ha hf hw rfl _
  · rw [step_of_stmt hp hn]
    exact afterWrite_stores hp ha hf hw List.length_replicate _
  · have hstep := (step_of_stmt hp hn).trans (hostMemrd_of_read (hostReadBytes_seen hp ha hf hs _) x)
    exact ⟨_, hstep, lookupVar_setVar_same x _ _, fun y hy => lookupVar_setVar_other hy _ _, rfl, rfl⟩

/-- Settles O56: all bytes are read, and then written, of memory as it was before the statement. -/
theorem hostCopiesBytes : Obligations.HostCopiesBytes := by
  intro s ed ea en hp hw hn p q d a n ha hd hfa hfd hs
  rw [(step_of_stmt hp hn).trans (hostMemcpy_of_read (hostReadBytes_seen hp ha hfa hs _))]
  exact afterWrite_stores hp hd hfd hw (length_bytesFrom s n a) _

end Sys2Proof.Machine
end

section
/-! PROOF. The stream cipher: the table that `CINIT` leaves, in numbers (R100 to R105, R107), and the words drawn from it (R106, R108,
R116). -/

namespace Sys2Proof.Machine

/-! ## The seeded table in numbers -/

theorem accAfter_lt (r : LcgReading) (seed : Word) : ∀ k, accAfter r seed.toNat k < 2 ^ 64
  | 0 => seed.isLt.trans (by decide)
  | k + 1 => by cases r <;> exact Nat.mod_lt _ (by decide)

/-- With R7's constants the accumulator is that of the rules (R102). -/
theorem lcgStep_iterate {p : Params} (hp : p.lits = Literals.source) (seed : Nat) (k : Nat) :
    (lcgStep p)^[k] seed = accAfter p.lcgReading seed k := by
  induction k with
  | zero => rfl
  | succ k ih =>
    rw [Function.iterate_succ_apply', ih, lcgStep, hp]
    rfl

theorem lcgEntry_toNat {a : Nat} (h : a < 2 ^ 64) : (lcgEntry Literals.source a).toNat = entryOf a := by
  show (a / 2 ^ 48 % 2 ^ 16 * 2 ^ 16 + a % 2 ^ 16) % 2 ^ 32 = a / 2 ^ 48 * 2 ^ 16 + a % 2 ^ 16
  omega

/-- What the diagonal makes of an entry: the bit set, the bits above it clear, the bits below it the entry's (R105). -/
theorem diagonalWord_toNat (e : Word) {q : Nat} (hq : q < 32) :
    (((0x80000000 : Word) >>> q) ||| (e &&& ((0xFFFFFFFF : Word) >>> q))).toNat = 2 ^ (31 - q) + e.toNat % 2 ^ (31 - q) := by
  have hsum := Nat.two_pow_add_eq_or_of_lt (Nat.mod_lt e.toNat (Nat.two_pow_pos (31 - q))) 1
  have hbit (m : Nat) : Nat.testBit 0x80000000 m = decide (31 = m) := Nat.testBit_two_pow (n := 31)
  have hones (m : Nat) : Nat.testBit 0xFFFFFFFF m = decide (m < 32) := Nat.testBit_two_pow_sub_one 32 m
  rw [Nat.mul_one] at hsum
  rw [hsum]
  apply Nat.eq_of_testBit_eq
  intro j
  simp only [BitVec.toNat_or, BitVec.toNat_and, BitVec.toNat_ushiftRight, BitVec.reduceToNat, Nat.testBit_or, Nat.testBit_and,
    Nat.testBit_shiftRight, Nat.testBit_two_pow, Nat.testBit_mod_two_pow, hbit, hones]
  cases e.toNat.testBit j with
  | false => simp only [Bool.false_and, Bool.and_false, Bool.or_false, decide_eq_decide]; omega
  | true => simp only [Bool.true_and, Bool.and_true, ← Bool.decide_or, decide_eq_decide]; omega

theorem onDiagonal_iff {i : Nat} : onDiagonal i ↔ 5 ≤ i ∧ i ≤ 222 ∧ (i - 5) % 7 = 0 := by
  constructor
  · rintro ⟨q, hq, rfl⟩
    omega
  · exact fun h => ⟨(i - 5) / 7, by omega, by omega⟩

/-- The lag region of the seeded table, slot by slot (R103, R105). -/
theorem seedTable_toNat {p : Params} (hp : p.lits = Literals.source) (seed : Word) (t : List Word) {i : Nat} (h2 : 2 ≤ i)
    (h251 : i ≤ 251) : (tabGet (seedTable p seed t) i).toNat = seededSlot p.lcgReading seed.toNat i := by
  have he := lcgEntry_toNat (accAfter_lt p.lcgReading seed (252 - i))
  by_cases hd : onDiagonal i
  · rw [seededSlot, if_pos (onDiagonal_iff.mp hd), ← he]
    obtain ⟨q, hq, rfl⟩ := hd
    rw [seedTable_get_diagonal hp seed t hq, lcgStep_iterate hp, diagonalWord_toNat _ hq, show (5 + 7 * q - 5) / 7 = q by omega]
  · rw [seededSlot, if_neg (onDiagonal_iff.not.mp hd), ← he, seedTable_get hp seed t hd, if_neg (by omega), if_neg (by omega),
      if_pos (by omega), lcgStep_iterate hp]

/-- The pre-pass's last accumulator value (R101, R102). -/
theorem lcgRun_source {p : Params} (hp : p.lits = Literals.source) (seed : Word) :
    lcgRun p p.lits.lagWords (accStart p.lits seed) = accAfter p.lcgReading seed.toNat 250 := by
  rw [lcgRun_eq, hp, accStart_source]
  exact lcgStep_iterate hp _ 250

/-- Settles O7: by the pre-pass's entries and what the diagonal makes of them. -/
theorem cinitSeedsTheTable : Obligations.CinitSeedsTheTable :=
  fun s => ⟨_, exec_cinit s, ⟨rfl, rfl, rfl⟩, rfl, fun hs =>
    ⟨seedTable_zero hs _ _, seedTable_one hs _ _, fun _ h2 h => seedTable_toNat hs _ _ h2 h, fun _ h _ => seedTable_high hs _ _ h,
      lcgRun_source hs _⟩⟩

/-- Settles O8: `CINIT` writes the cipher's registers and completes. -/
theorem cinitFrame : Obligations.CinitFrame := by
  intro s
  obtain ⟨t, he, hops⟩ := commandsKeepTheOperands .cinit s
  cases he.symm.trans (exec_cinit s)
  exact ⟨_, he, rfl, hops, ⟨rfl, rfl, rfl, rfl, rfl, rfl, rfl, rfl⟩, rfl⟩

/-! ## One draw -/

/-- A draw from cursors as R38 and R44 have them: the word, the slot that it is stored in, and both cursors one further (R106). -/
theorem keyStep_of_cursorPair {l : Literals} (hl : CipherSizes l) {t : List Word} (h : CursorPair t) :
    (keyStep l t).1 = tabGet t (((tabGet t 0).toNat + 103) % 250 + 2) ^^^ tabGet t ((tabGet t 0).toNat + 2) ∧
    (tabGet (keyStep l t).2 0).toNat = ((tabGet t 0).toNat + 1) % 250 ∧
    ∀ i, 2 ≤ i → tabGet (keyStep l t).2 i = if i = (tabGet t 0).toNat + 2 then (keyStep l t).1 else tabGet t i := by
  obtain ⟨h0, h1⟩ := h
  have ha := cursorIndex_of_lt hl h0
  have hb := cursorIndex_of_lt hl (a := tabGet t 1) (by omega)
  refine ⟨?_, ?_, fun i hi => ?_⟩
  · rw [keyStep_word hl, ha, hb, h1]
  · rw [keyStep_tab hl, if_pos rfl, ha, mapAt_toNat hl, mapAt_eq hl]
  · rw [keyStep_tab hl, if_neg (by omega), if_neg (by omega), ha]

/-- Settles O9: by what a draw from the cursors of R38 and R44 does. -/
theorem cnextDrawsOneWord : Obligations.CnextDrawsOneWord := by
  intro s hk
  refine ⟨_, exec_cnext hk, ⟨rfl, rfl, rfl⟩, fun hl hc => ?_⟩
  have hp : CursorPair s.tab := by simpa [cursorsOk, hk, CursorPair] using hc
  obtain ⟨hw, h0, ht⟩ := keyStep_of_cursorPair hl hp
  obtain ⟨-, h1⟩ := keyStep_cursorPair hl hp
  exact ⟨hw, h0, h1.trans (by rw [h0]; omega), fun i hi _ => ht i hi⟩

/-- Settles O10: a draw writes the table and `RESULT`, a refused `CNEXT` neither. -/
theorem cnextFrame : Obligations.CnextFrame := by
  intro s
  obtain ⟨t, he, hops⟩ := commandsKeepTheOperands .cnext s
  refine ⟨t, he, ?_⟩
  cases hk : s.ksv with
  | false =>
    cases he.symm.trans (exec_cnext_unseeded hk)
    exact ⟨rfl, hops, ⟨rfl, rfl, rfl, rfl, rfl, rfl, rfl, rfl⟩, rfl, hk⟩
  | true =>
    cases he.symm.trans (exec_cnext hk)
    exact ⟨rfl, hops, ⟨rfl, rfl, rfl, rfl, rfl, rfl, rfl, rfl⟩, rfl, hk⟩

/-! ## The keystream from a seeded table -/

/-- Draws from tables that are the same below slot 252 leave such tables, and give the same words. -/
theorem keyTab_low {l : Literals} (hl : CipherSizes l) (n : Nat) : ∀ {t u : List Word},
    (∀ i, i < 252 → tabGet u i = tabGet t i) → ∀ i, i < 252 → tabGet (keyTab l n u) i = tabGet (keyTab l n t) i := by
  induction n with
  | zero => exact id
  | succ n ih => exact fun h => ih (keyStep_low hl h).2

theorem keyWord_low {l : Literals} (hl : CipherSizes l) (n : Nat) {t u : List Word}
    (h : ∀ i, i < 252 → tabGet u i = tabGet t i) : keyWord l u n = keyWord l t n :=
  (keyStep_low hl (keyTab_low hl n h)).1

/-- Settles O13: seeding overwrites the table below slot 252, which alone the draws depend on. -/
theorem keystreamDependsOnTheSeedAlone : Obligations.KeystreamDependsOnTheSeedAlone := by
  intro seed s s' hl hr hp n
  rw [← hp]
  refine keyWord_low hl n fun i hi => ?_
  show tabGet (seedTable s.params seed s.tab) i = tabGet (seedTable s'.params seed s'.tab) i
  rw [seedTable_params hr hp]
  exact seedTable_low (hp ▸ hl) seed _ _ hi

section
variable {l : Literals} (hl : CipherSizes l) {u : List Word} (hu : CursorPair u) (h0 : tabGet u 0 = 0)
include hl hu h0

/-- The first cursor after `n` draws from a table where it is 0. -/
theorem keyTab_cursor (n : Nat) : (tabGet (keyTab l n u) 0).toNat = n % 250 := by
  induction n with
  | zero => rw [keyTab, h0]; rfl
  | succ n ih =>
    rw [keyTab_succ, (keyStep_of_cursorPair hl (keyTab_cursorPair hl n hu)).2.1, ih]
    omega

theorem keyWord_eq (n : Nat) : keyWord l u n =
    tabGet (keyTab l n u) (n % 250 + 2) ^^^ tabGet (keyTab l n u) ((n + 103) % 250 + 2) := by
  have hw := (keyStep_of_cursorPair hl (keyTab_cursorPair hl n hu)).1
  rw [keyTab_cursor hl hu h0, BitVec.xor_comm, show (n % 250 + 103) % 250 = (n + 103) % 250 by omega] at hw
  exact hw

/-- A draw stores its word in the slot of its turn and leaves the others of the lag region. -/
theorem keyTab_succ_get (n : Nat) {i : Nat} (hi : 2 ≤ i) :
    tabGet (keyTab l (n + 1) u) i = if i = n % 250 + 2 then keyWord l u n else tabGet (keyTab l n u) i := by
  rw [keyTab_succ, (keyStep_of_cursorPair hl (keyTab_cursorPair hl n hu)).2.2 i hi, keyTab_cursor hl hu h0]
  rfl

/-- A word stays in its slot until the 250th draw after its own. -/
theorem keyTab_get_word (n m : Nat) (hm : m < 250) : tabGet (keyTab l (n + 1 + m) u) (n % 250 + 2) = keyWord l u n := by
  induction m with
  | zero => rw [Nat.add_zero, keyTab_succ_get hl hu h0 n (by omega), if_pos rfl]
  | succ m ih =>
    rw [← Nat.add_assoc, keyTab_succ_get hl hu h0 (n + 1 + m) (by omega), if_neg (by omega)]
    exact ih (by omega)

end

/-- Settles O12: the draw finds in its two slots the words drawn 250 and 147 draws before it. -/
theorem keystreamRecurrence : Obligations.KeystreamRecurrence := by
  intro seed s n hs l u
  have hl : CipherSizes l := hs.sizes
  have hu : CursorPair u := seedTable_cursorPair hs seed s.tab
  have h0 : tabGet u 0 = 0 := seedTable_zero hs seed s.tab
  have hc := keyTab_cursor hl hu h0 n
  have hd := (keyTab_cursorPair hl n hu).2
  rw [hc] at hd
  have hw := keyTab_get_word hl hu h0
  refine ⟨?_, ?_, keyWord_eq hl hu h0 n, hw n 0 (by omega), ?_⟩
  · exact BitVec.eq_of_toNat_eq (by rw [hc, BitVec.toNat_ofNat]; omega)
  · exact BitVec.eq_of_toNat_eq (by rw [hd, BitVec.toNat_ofNat]; omega)
  · have h1 := hw n 249 (by omega)
    have h2 := hw (n + 103) 146 (by omega)
    rw [show n + 1 + 249 = n + 250 by omega] at h1
    rw [show n + 103 + 1 + 146 = n + 250 by omega] at h2
    rw [keyWord_eq hl hu h0, Nat.add_mod_right, h1, show (n + 250 + 103) % 250 = (n + 103) % 250 by omega, h2]

end Sys2Proof.Machine
end

section
/-! PROOF. `DECRYPT` with either seed source (R109 to R116, R230, R232). Its body is followed up to the first byte that faults, or to
its end where none does: the bytes before it are decrypted, a word whole or not at all, and that place depends on the platform
alone, so a second run stops there too. -/

namespace Sys2Proof.Machine

/-! ## The first fault of a region -/

/-- Byte `k` of the `n` bytes from `x` up is the first that faults, or none of them does and `k` is `n` (R67). -/
def FirstFault (s : State) (x n k : Nat) : Prop := NoFault s x k ∧ (k = n ∨ k < n ∧ memFault s (x + k) = true)

theorem exists_firstFault (s : State) (x n : Nat) : ∃ k, FirstFault s x n k := by
  induction n with
  | zero => exact ⟨0, fun y h1 h2 => by omega, .inl rfl⟩
  | succ n ih =>
    obtain ⟨k, hn, rfl | ⟨hk, hf⟩⟩ := ih
    · cases hf : memFault s (x + k)
      · refine ⟨k + 1, fun y h1 h2 => ?_, .inl rfl⟩
        rcases Nat.lt_or_ge y (x + k) with h | h
        · exact hn y h1 h
        · rw [show y = x + k by omega, hf]
      · exact ⟨k, hn, .inr ⟨Nat.lt_succ_self k, hf⟩⟩
    · exact ⟨k, hn, .inr ⟨Nat.lt_succ_of_lt hk, hf⟩⟩

theorem FirstFault.congr {s t : State} (hp : t.params = s.params) {x n k : Nat} (h : FirstFault s x n k) : FirstFault t x n k :=
  ⟨fun y h1 h2 => (memFault_congr hp y).trans (h.1 y h1 h2), h.2.imp_right fun h => ⟨h.1, (memFault_congr hp _).trans h.2⟩⟩

/-- A part of a command that goes on, or stops with `BUS` (R230). -/
def Res.orBus (go : Prop) [Decidable go] (s : State) : Res Unit := if go then .ok () s else .stop .bus s

theorem Res.orBus_pos {go : Prop} [Decidable go] (h : go) (s : State) : Res.orBus go s = .ok () s := if_pos h

theorem Res.orBus_neg {go : Prop} [Decidable go] (h : ¬go) (s : State) : Res.orBus go s = .stop .bus s := if_neg h

theorem decryptEnd_orBus (go : Prop) [Decidable go] (s : State) :
    decryptEnd (Res.orBus go s) = complete (if go then .ok else .bus) s := by
  unfold Res.orBus
  split <;> rfl

/-! ## The word loop and the tail up to a fault -/

theorem decryptWords_add (a b : Nat) : ∀ (x : Nat) (s : State), decryptWords (a + b) x s =
    (decryptWords a x s).bind fun _ s1 => decryptWords b (x + 4 * a) s1 := by
  induction a with
  | zero => intro x s; rw [Nat.zero_add]; rfl
  | succ a ih =>
    intro x s
    rw [Nat.add_right_comm a 1 b]
    cases hr : readWord x s with
    | none => simp only [decryptWords, hr, Res.bind]
    | some w =>
      rw [decryptWords_succ hr, decryptWords_succ hr, show x + 4 * (a + 1) = x + 4 + 4 * a by omega]
      cases memWrite x 4 (w ^^^ (cipherNext s).1).toNat (cipherNext s).2 with
      | ok _ s1 => exact ih (x + 4) s1
      | stop c s1 => rfl

/-- The word loop decrypts the words before the first fault and draws no word for the one with the fault. -/
theorem decryptWords_firstFault {n x k : Nat} {s : State} (h : FirstFault s x (4 * n) k) (hw : Memory.wf s.mem = true) : ∃ m,
    decryptWords n x s = Res.orBus (k = 4 * n) ((s.setMem m).setTab (keyTab s.params.lits (k / 4) s.tab)) ∧
    Memory.wf m = true ∧ (∀ y, ¬(x ≤ y ∧ y < x + 4 * (k / 4)) → Memory.read m y = Memory.read s.mem y) ∧
    (∀ i, i < 4 * (k / 4) →
      Memory.read m (x + i) = Memory.read s.mem (x + i) ^^^ (keyWord s.params.lits s.tab (i / 4)).extractLsb' (8 * (i % 4)) 8) := by
  obtain ⟨hn, hk⟩ := h
  obtain ⟨m, h1, h2⟩ := decryptWords_ok (k / 4) x s (fun y a b => hn y a (by omega)) hw
  refine ⟨m, ?_, h2⟩
  rcases hk with rfl | ⟨hk, hf⟩
  · rw [Res.orBus_pos rfl, ← h1, Nat.mul_div_cancel_left n (by decide)]
  · obtain ⟨d, rfl⟩ : ∃ d, n = k / 4 + (d + 1) := ⟨n - k / 4 - 1, by omega⟩
    rw [Res.orBus_neg (by omega), decryptWords_add, h1]
    have hr := readWord_of_fault (s := (s.setMem m).setTab (keyTab s.params.lits (k / 4) s.tab)) (x := x + 4 * (k / 4))
      (y := x + k) (by omega) (by omega) hf
    simp only [Res.bind, decryptWords, hr]

theorem decryptTailBytes_succ {x j : Nat} {w : Word} {s : State} (h : memFault s x = false) (n : Nat) :
    decryptTailBytes (n + 1) j x w s = decryptTailBytes n (j + 1) (x + 1) w
      (s.setMem (Memory.write s.mem x (byteAt s x ^^^ tailByte s.params.tailOrder w j))) := by
  simp only [decryptTailBytes, readByte_of_ok h, writeByte_of_ok _ h]

theorem decryptTailBytes_add (a b : Nat) : ∀ (j x : Nat) (w : Word) (s : State), decryptTailBytes (a + b) j x w s =
    (decryptTailBytes a j x w s).bind fun _ s1 => decryptTailBytes b (j + a) (x + a) w s1 := by
  induction a with
  | zero => intro j x w s; rw [Nat.zero_add]; rfl
  | succ a ih =>
    intro j x w s
    rw [Nat.add_right_comm a 1 b]
    rcases readByte_cases s x with ⟨-, hr⟩ | ⟨hf, -⟩
    · simp only [decryptTailBytes, hr, Res.bind]
    · rw [decryptTailBytes_succ hf, decryptTailBytes_succ hf, ih, Nat.add_right_comm j, Nat.add_right_comm x]
      rfl

theorem decryptTailBytes_firstFault {n x k : Nat} {s : State} (h : FirstFault s x n k) (hw : Memory.wf s.mem = true) (j : Nat)
    (w : Word) : ∃ m, decryptTailBytes n j x w s = Res.orBus (k = n) (s.setMem m) ∧
    Memory.wf m = true ∧ (∀ y, ¬(x ≤ y ∧ y < x + k) → Memory.read m y = Memory.read s.mem y) ∧
    (∀ i, i < k → Memory.read m (x + i) = Memory.read s.mem (x + i) ^^^ tailByte s.params.tailOrder w (j + i)) := by
  obtain ⟨hn, hk⟩ := h
  obtain ⟨m, h1, h2⟩ := decryptTailBytes_ok k j x w s hn hw
  refine ⟨m, ?_, h2⟩
  rcases hk with rfl | ⟨hk, hf⟩
  · rw [Res.orBus_pos rfl, h1]
  · obtain ⟨d, rfl⟩ : ∃ d, n = k + (d + 1) := ⟨n - k - 1, by omega⟩
    rw [Res.orBus_neg (by omega), decryptTailBytes_add, h1]
    simp only [Res.bind, decryptTailBytes, readByte_of_fault (s := s.setMem m) hf]

/-- The tail decrypts the bytes before the first fault, from one word drawn for all of them. -/
theorem decryptTail_firstFault {n x k : Nat} {s : State} (h : FirstFault s x n k) (hw : Memory.wf s.mem = true) : ∃ m,
    decryptTail n x s =
      Res.orBus (k = n) ((s.setMem m).setTab (keyTab s.params.lits (if n = 0 then 0 else 1) s.tab)) ∧
    Memory.wf m = true ∧ (∀ y, ¬(x ≤ y ∧ y < x + k) → Memory.read m y = Memory.read s.mem y) ∧
    (∀ i, i < k → Memory.read m (x + i) =
      Memory.read s.mem (x + i) ^^^ tailByte s.params.tailOrder (keyWord s.params.lits s.tab 0) i) := by
  by_cases hn : n = 0
  · obtain rfl : k = 0 := by rcases h.2 with h | h <;> omega
    refine ⟨s.mem, ?_, hw, fun _ _ => rfl, fun i hi => absurd hi (by omega)⟩
    rw [Res.orBus_pos hn.symm, decryptTail, if_pos hn, if_pos hn]
    rfl
  · obtain ⟨m, h1, h2, h3, h4⟩ := decryptTailBytes_firstFault (s := (cipherNext s).2) (h.congr rfl) hw 0 (cipherNext s).1
    refine ⟨m, ?_, h2, h3, fun i hi => ?_⟩
    · rw [decryptTail, if_neg hn, if_neg hn]
      exact h1
    · rw [h4 i hi, Nat.zero_add]
      rfl

/-! ## The body up to a fault -/

/-- Two tables that are the same below slot 252 give the same keystream bytes. -/
theorem keyByte_low {p : Params} (hl : CipherSizes p.lits) (n i : Nat) {t u : List Word} (h : ∀ j, j < 252 → tabGet u j = tabGet t j) :
    keyByte p u n i = keyByte p t n i := by
  rw [keyByte, keyByte, keyWord_low hl _ h, keyWord_low hl _ h]

/-- How many of `n` bytes a `DECRYPT` has decrypted where it stops at byte `k`: a word whole or not at all (R230, R232). -/
def decryptedBefore (n k : Nat) : Nat := if k < 4 * (n / 4) then 4 * (k / 4) else k

/-- How many words it has then drawn: none for the word that it stops in, one for the whole tail (R230). -/
def drawnBefore (n k : Nat) : Nat := if k < 4 * (n / 4) then k / 4 else keyCount n

theorem decryptedBefore_self (n : Nat) : decryptedBefore n n = n := if_neg (by omega)

theorem drawnBefore_self (n : Nat) : drawnBefore n n = keyCount n := if_neg (by omega)

theorem keyTab_add (l : Literals) (a b : Nat) : ∀ t, keyTab l (a + b) t = keyTab l b (keyTab l a t) := by
  induction a with
  | zero => intro t; rw [Nat.zero_add]; rfl
  | succ a ih => intro t; rw [Nat.add_right_comm a 1 b]; exact ih _

theorem keyByte_of_words {n i : Nat} (h : i < 4 * (n / 4)) (p : Params) (t : List Word) :
    keyByte p t n i = (keyWord p.lits t (i / 4)).extractLsb' (8 * (i % 4)) 8 := if_pos h

theorem keyByte_of_tail (p : Params) (t : List Word) {n j : Nat} (hj : j < 4) :
    keyByte p t n (4 * (n / 4) + j) = tailByte p.tailOrder (keyWord p.lits t (n / 4)) j := by
  rw [keyByte, if_neg (by omega), show (4 * (n / 4) + j) % 4 = j by omega]
  rfl

theorem decryptBody_firstFault (seed : Word) {base n k : Nat} {s : State} (h : FirstFault s base n k)
    (hw : Memory.wf s.mem = true) : ∃ m,
    decryptBody seed base n s = complete (if k = n then .ok else .bus)
      (((decryptSetup seed s).setMem m).setTab (keyTab s.params.lits (drawnBefore n k) (decryptTable seed s))) ∧
    Memory.wf m = true ∧ (∀ y, ¬(base ≤ y ∧ y < base + decryptedBefore n k) → Memory.read m y = Memory.read s.mem y) ∧
    (∀ i, i < decryptedBefore n k →
      Memory.read m (base + i) = Memory.read s.mem (base + i) ^^^ keyByte s.params (decryptTable seed s) n i) := by
  obtain ⟨hn, hk⟩ := h
  rw [decryptBody_eq]
  by_cases hwords : k < 4 * (n / 4)
  · have hf : FirstFault (decryptSetup seed s) base (4 * (n / 4)) k :=
      .congr rfl ⟨hn, .inr ⟨hwords, (hk.resolve_left (by omega)).2⟩⟩
    obtain ⟨m, h1, h2, h3, h4⟩ := decryptWords_firstFault hf hw
    rw [decryptedBefore, drawnBefore, if_pos hwords, if_pos hwords, if_neg (by omega), h1, Res.orBus_neg (by omega)]
    refine ⟨m, rfl, h2, h3, fun i hi => ?_⟩
    rw [h4 i hi, keyByte_of_words (by omega)]
    rfl
  · obtain ⟨j, rfl⟩ : ∃ j, k = 4 * (n / 4) + j := ⟨k - 4 * (n / 4), by omega⟩
    have hf : FirstFault (decryptSetup seed s) base (4 * (n / 4)) (4 * (n / 4)) :=
      .congr rfl ⟨fun y h1 h2 => hn y h1 (by omega), .inl rfl⟩
    obtain ⟨m1, a1, a2, a3, a4⟩ := decryptWords_firstFault hf hw
    rw [Nat.mul_div_cancel_left _ (by decide : 0 < 4)] at a1 a3 a4
    have ht : FirstFault s (base + 4 * (n / 4)) (n % 4) j :=
      ⟨fun y h1 h2 => hn y (by omega) (by omega), hk.imp (by omega) fun h => ⟨by omega, Nat.add_assoc base _ j ▸ h.2⟩⟩
    obtain ⟨m, h1, h2, h3, h4⟩ := decryptTail_firstFault
      (s := ((decryptSetup seed s).setMem m1).setTab (keyTab s.params.lits (n / 4) (decryptTable seed s))) (ht.congr rfl) a2
    rw [decryptedBefore, drawnBefore, if_neg hwords, if_neg hwords, a1, Res.orBus_pos rfl]
    refine ⟨m, ?_, h2, fun y hy => ?_, fun i hi => ?_⟩
    · refine (congrArg decryptEnd h1).trans ?_
      rw [decryptEnd_orBus, keyCount, keyTab_add]
      simp only [show 4 * (n / 4) + j = n ↔ j = n % 4 by omega]
      rfl
    · rw [h3 y (by omega)]
      exact a3 y (by omega)
    · by_cases hi' : i < 4 * (n / 4)
      · rw [h3 _ (by omega), keyByte_of_words hi']
        exact a4 i hi'
      · obtain ⟨q, rfl⟩ : ∃ q, i = 4 * (n / 4) + q := ⟨i - 4 * (n / 4), by omega⟩
        rw [keyByte_of_tail _ _ (by omega), ← Nat.add_assoc, h4 q (by omega)]
        exact congrArg (· ^^^ _) (a3 _ (by omega))

/-! ## The command -/

/-- A `DECRYPT` runs its body: the pre-checks pass, and with `S = 1` the seed read does not fault (R109, R230). -/
def DecryptRuns (i : Instr) (s : State) : Prop := DecryptReady i s ∧ (i = .decryptS → NoFault s s.srcAddr.toNat 4)

theorem exec_decrypt_runs {i : Instr} {s : State} (h : DecryptRuns i s) :
    exec i s = .next (decryptBody (decryptSeed i s) (decryptBase i s) (decryptLen i s) s) := by
  obtain ⟨hr, hf⟩ := h
  rcases hr.1 with rfl | ⟨rfl, -⟩
  · exact exec_decrypt (decryptReady_decrypt.mp hr)
  · rcases exec_decryptS_cases (decryptReady_decryptS.mp hr) with ⟨⟨y, h1, h2, hy⟩, -⟩ | ⟨-, he⟩
    · exact absurd ((hf rfl y h1 h2).symm.trans hy) nofun
    · exact he

/-- A `DECRYPT` runs its body or completes at once, and then does so again. -/
theorem exec_decrypt_cases {i : Instr} (hi : i = .decrypt ∨ i = .decryptS) (s : State) :
    DecryptRuns i s ∨ ∃ c, exec i s = .next (complete c s) ∧ exec i (complete c s) = .next (complete c s) := by
  have hpre (c : ErrCode) : precheck i (complete c s) = precheck i s := by cases i <;> rfl
  cases hp : precheck i s with
  | some c => exact .inr ⟨c, exec_of_precheck hp, exec_of_precheck ((hpre c).trans hp)⟩
  | none =>
    rcases hi with rfl | rfl
    · exact .inl ⟨decryptReady_decrypt.mpr hp, nofun⟩
    · rcases exec_decryptS_cases hp with ⟨⟨y, h1, h2, hy⟩, he⟩ | ⟨hf, -⟩
      · refine .inr ⟨.bus, he, ?_⟩
        rcases exec_decryptS_cases ((hpre .bus).trans hp) with ⟨-, he'⟩ | ⟨hf, -⟩
        · exact he'
        · exact absurd ((hf y h1 h2).symm.trans hy) nofun
      · exact .inl ⟨decryptReady_decryptS.mpr hp, fun _ => hf⟩

/-- The bootstrap changes no byte of the keystream (R110). -/
theorem keyByte_decryptTable {i : Instr} {s : State} (hl : CipherSizes s.params.lits) (n k : Nat) :
    keyByte s.params (decryptTable (decryptSeed i s) s) n k = keyByte s.params (seededTab i s) n k :=
  keyByte_low hl n k fun _ h => decryptTable_low hl _ h

/-- The table after a `DECRYPT`'s draws is that of its seed, but for `T[254]` (R110). -/
theorem tableIs_of_draws {i : Instr} {s t : State} (hs : SourceLiterals s) {n : Nat}
    (ht : t.tab = keyTab s.params.lits n (decryptTable (decryptSeed i s) s)) :
    TableIs t (keyTab s.params.lits n (seededTab i s)) := by
  have hl := hs.sizes
  have hhigh (k : Nat) (hk : 252 ≤ k) :
      tabGet (decryptTable (decryptSeed i s) s) k = if k = 254 then 0 else tabGet s.tab k := by
    rw [decryptTable, seedTable_high hs _ _ hk, slot_of_lt hl.1 (by omega), tabGet_tabSet, seedTable_high hs _ _ hk]
  rw [TableIs, ht]
  refine ⟨?_, fun k hk hne => ?_⟩
  · rw [keyTab_high hl n (by omega), hhigh 254 (by omega), if_pos rfl]
  · rcases Nat.lt_or_ge k 252 with h | h
    · exact keyTab_low hl n (fun _ h => decryptTable_low hl _ h) k h
    · rw [keyTab_high hl n h, keyTab_high hl n h, hhigh k h, if_neg hne, seededTab, seedTable_high hs _ _ h]

/-- What a `DECRYPT` that runs its body does, up to its first fault or its end. -/
theorem exec_decrypt_firstFault {i : Instr} {s : State} (hr : DecryptRuns i s) (hw : Memory.wf s.mem = true) {k : Nat}
    (hk : FirstFault s (decryptBase i s) (decryptLen i s) k) : ∃ t, exec i s = .next t ∧
    CompletedWith (if k = decryptLen i s then .ok else .bus) t ∧ t.ksv = true ∧ Memory.wf t.mem = true ∧
    SameOutside ⟨decryptBase i s, decryptedBefore (decryptLen i s) k⟩ s t ∧
    (CipherSizes s.params.lits → DecryptedUpTo (decryptedBefore (decryptLen i s) k) i s t) ∧
    (SourceLiterals s → TableIs t (keyTab s.params.lits (drawnBefore (decryptLen i s) k) (seededTab i s)) ∧
      t.acc = accAfter s.params.lcgReading (decryptSeed i s).toNat 250) := by
  obtain ⟨m, h1, h2, h3, h4⟩ := decryptBody_firstFault (decryptSeed i s) hk hw
  have hout : ∀ x, (⟨decryptBase i s, decryptedBefore (decryptLen i s) k⟩ : Range).has x = false →
      Memory.read m x = Memory.read s.mem x := fun x hx => h3 x (has_false hx)
  refine ⟨_, (exec_decrypt_runs hr).trans (congrArg _ h1), ⟨rfl, rfl, rfl⟩, rfl, h2, hout, fun hl => ⟨fun j hj => ?_, hout⟩,
    fun hs => ⟨tableIs_of_draws hs rfl, lcgRun_source hs _⟩⟩
  rw [← keyByte_decryptTable hl]
  exact h4 j hj

/-- Where its source region does not fault, a `DECRYPT` that passes its pre-checks runs its body to the end (R109). -/
theorem DecryptReady.runs_of_noFault {i : Instr} {s : State} (hr : DecryptReady i s) (hf : NoFault s s.srcAddr.toNat s.srcLen.toNat) :
    DecryptRuns i s ∧ FirstFault s (decryptBase i s) (decryptLen i s) (decryptLen i s) := by
  rcases hr.1 with rfl | ⟨rfl, h4⟩
  · exact ⟨⟨hr, nofun⟩, hf, .inl rfl⟩
  · refine ⟨⟨hr, fun _ y h1 h2 => hf y h1 (by omega)⟩, fun y h1 h2 => ?_, .inl rfl⟩
    have h2 : y < s.srcAddr.toNat + 4 + (s.srcLen.toNat - 4) := h2
    exact hf y (Nat.le_of_add_right_le h1) (by omega)

/-- Settles O14: nothing faults, so the body runs to its end. -/
theorem decryptXorsTheRegion : Obligations.DecryptXorsTheRegion := by
  intro i s hr hw hf
  obtain ⟨hruns, hk⟩ := hr.runs_of_noFault hf
  have h := exec_decrypt_firstFault hruns hw hk
  rw [if_pos rfl, decryptedBefore_self, drawnBefore_self] at h
  obtain ⟨t, he, hc, hv, -, h⟩ := h
  exact ⟨t, he, hc, hv, h⟩

/-- Settles O15: a `DECRYPT` completes at once or runs its body, which writes the cipher's registers and its region. -/
theorem decryptFrame : Obligations.DecryptFrame := by
  intro i s hi
  obtain ⟨t, he, hops⟩ := commandsKeepTheOperands i s
  refine ⟨t, he, ?_⟩
  rcases exec_decrypt_cases hi s with hr | ⟨c, hc, -⟩
  · obtain ⟨m, k, c, a, u, -, -, hb, -, hm, -⟩ :=
      decryptBody_shape (decryptSeed i s) (decryptBase i s) (decryptLen i s) s
    have heq := he.symm.trans ((exec_decrypt_runs hr).trans (congrArg _ hb))
    cases heq
    exact ⟨fun x hx => hm x (has_false hx), hops, ⟨rfl, rfl, rfl, rfl, rfl, rfl, rfl, rfl⟩, rfl⟩
  · cases he.symm.trans hc
    exact ⟨fun _ _ => rfl, hops, ⟨rfl, rfl, rfl, rfl, rfl, rfl, rfl, rfl⟩, rfl⟩

/-! ## Two runs -/

/-- A second `DECRYPT` has the region and the seed of the first, whose seed bytes are outside the region (R115). -/
theorem DecryptRuns.again {i : Instr} {s t : State} (hr : DecryptRuns i s) (hops : KeepsOperands s t)
    (hm : SameOutside ⟨decryptBase i s, decryptLen i s⟩ s t) :
    DecryptRuns i t ∧ decryptSeed i t = decryptSeed i s ∧ decryptBase i t = decryptBase i s ∧ decryptLen i t = decryptLen i s := by
  obtain ⟨-, hseed, haddr, hlen, -, -, hpar, -⟩ := hops
  obtain ⟨⟨hi, hin⟩, hf⟩ := hr
  have hruns : DecryptRuns i t := by
    refine ⟨⟨hlen ▸ hi, ?_⟩, fun h y h1 h2 => ?_⟩
    · rw [SrcInRange, memSize, hlen, haddr, hpar]
      exact hin
    · rw [haddr] at h1 h2
      exact (memFault_congr hpar y).trans (hf h y h1 h2)
  refine ⟨hruns, ?_, by rw [decryptBase, decryptBase, haddr], by rw [decryptLen, decryptLen, hlen]⟩
  rcases hi with rfl | ⟨rfl, -⟩
  · exact hseed
  · have hb : ∀ x, x < s.srcAddr.toNat + 4 → byteAt t x = byteAt s x := fun x hx =>
      hm x (Bool.eq_false_iff.mpr fun h => absurd (has_true.mp h).1 (Nat.not_le.mpr hx))
    show wordAt t t.srcAddr.toNat = wordAt s s.srcAddr.toNat
    rw [haddr, wordAt, wordAt, hb _ (by omega), hb _ (by omega), hb _ (by omega), hb _ (by omega)]

/-- The second `DECRYPT` has the keystream of the first (R116). -/
theorem keyByte_again {i : Instr} {s t : State} (hl : CipherSizes s.params.lits) (hp : t.params = s.params)
    (hseed : decryptSeed i t = decryptSeed i s) (n j : Nat) :
    keyByte t.params (seededTab i t) n j = keyByte s.params (seededTab i s) n j := by
  rw [hp, seededTab, hp, hseed]
  exact keyByte_low hl n j fun _ h => seedTable_low hl _ _ _ h

/-- Decrypting the same bytes with one keystream twice restores them (R115). -/
theorem DecryptedUpTo.restores {m : Nat} {i : Instr} {s t u : State} (h : DecryptedUpTo m i s t) (h' : DecryptedUpTo m i t u)
    (hbase : decryptBase i t = decryptBase i s)
    (hkey : ∀ j, keyByte t.params (seededTab i t) (decryptLen i t) j = keyByte s.params (seededTab i s) (decryptLen i s) j) :
    SameMemory s u := by
  intro x
  obtain ⟨hin, hout⟩ := h
  obtain ⟨hin', hout'⟩ := h'
  rw [hbase] at hin' hout'
  cases hx : (⟨decryptBase i s, m⟩ : Range).has x with
  | false => exact (hout' x hx).trans (hout x hx)
  | true =>
    obtain ⟨hle, hlt⟩ := has_true.mp hx
    obtain ⟨j, rfl⟩ := Nat.exists_eq_add_of_le hle
    have hj : j < m := Nat.add_lt_add_iff_left.mp hlt
    rw [hin' j hj, hin j hj, hkey, BitVec.xor_assoc, BitVec.xor_self, BitVec.xor_zero]

/-- Settles O16: the second run stops where the first did, and XORs the same keystream bytes into the same bytes of memory. -/
theorem decryptTwiceRestores : Obligations.DecryptTwiceRestores := by
  intro i s hi hw
  rcases exec_decrypt_cases hi s with hr | ⟨c, h1, h2⟩
  · obtain ⟨k, hk⟩ := exists_firstFault s (decryptBase i s) (decryptLen i s)
    obtain ⟨t, ht, ⟨herr, -⟩, -, hwt, -, hx, -⟩ := exec_decrypt_firstFault hr hw hk
    obtain ⟨t', ht', hout, hops, -⟩ := decryptFrame i s hi
    cases ht.symm.trans ht'
    obtain ⟨hr', hseed, hbase, hlen⟩ := hr.again hops hout
    obtain ⟨-, -, -, -, -, -, hp, -⟩ := hops
    have hk' : FirstFault t (decryptBase i t) (decryptLen i t) k := hbase ▸ hlen ▸ hk.congr hp
    obtain ⟨u, hu, ⟨herr', -⟩, -, -, -, hx', -⟩ := exec_decrypt_firstFault hr' hwt hk'
    refine ⟨t, u, ht, hu, by rw [herr, herr', hlen], fun hl => (hx hl).restores (hlen ▸ hx' (hp ▸ hl)) hbase fun j => ?_⟩
    rw [hlen]
    exact keyByte_again hl hp hseed _ j
  · exact ⟨_, _, h1, h2, rfl, fun _ _ => rfl⟩

end Sys2Proof.Machine
end

section
/-! PROOF. `LZDEC` as one command: its overlap check (R154), its start (R141, R142), its end within R155's bound, and what it writes
(R140, R149 to R152). -/

namespace Sys2Proof.Machine

/-- A failing pre-check of `LZDEC` is one of a region's range or of the overlap (R231). -/
theorem precheck_lzdec_some {s : State} {c : ErrCode} (h : precheck .lzdec s = some c) : c = .range ∨ c = .overlap := by
  simp only [precheck] at h
  split_ifs at h <;> cases h
  · exact .inl rfl
  · exact .inl rfl
  · exact .inr rfl

theorem precheck_lzdec_overlap {s : State} (hs : SrcInRange s) (hd : DstInRange s)
    (ho : (srcRegion s).overlaps (dstRegion s) = true) : precheck .lzdec s = some .overlap := by
  simp [precheck, (inRange_src s).mpr hs, (inRange_dst s).mpr hd, ho]

/-- How an `LZDEC` of `s` has ended in `t`, past its pre-checks (R149 to R151). -/
def LzEnded (s t : State) : Prop :=
  (CompletedWith .ok t ∧ t.eos = false ∧ t.outCount = s.dstLen) ∨ (CompletedWith .ok t ∧ t.eos = true) ∨
    (CompletedWith .truncated t ∧ t.eos = false ∧ t.inPos = s.srcLen) ∨ (CompletedWith .bus t ∧ t.eos = false)

theorem completedWith_lzStop (c : ErrCode) (t : State) : CompletedWith c (lzStop c t) := ⟨rfl, rfl, rfl⟩

/-- Where the loop stops, started afresh, decides how the command has ended. -/
theorem LzStopped.ended {s t : State} {c : ErrCode} (h : LzStopped (lzStart s) c t) : LzEnded s (lzStop c t) := by
  rcases h with ⟨rfl, he, ho⟩ | ⟨rfl, he⟩ | ⟨rfl, he, hp⟩ | ⟨rfl, he⟩
  · exact .inl ⟨completedWith_lzStop _ t, he, ho⟩
  · exact .inr (.inl ⟨completedWith_lzStop _ t, he⟩)
  · exact .inr (.inr (.inl ⟨completedWith_lzStop _ t, he, hp⟩))
  · exact .inr (.inr (.inr ⟨completedWith_lzStop _ t, he⟩))

theorem LzEnded.completed {s t : State} (h : LzEnded s t) :
    t.err ∈ [ErrCode.ok, .truncated, .bus] ∧ t.done = true ∧ t.phase = .idle := by
  rcases h with ⟨⟨he, h⟩, -⟩ | ⟨⟨he, h⟩, -⟩ | ⟨⟨he, h⟩, -⟩ | ⟨⟨he, h⟩, -⟩ <;> exact ⟨by rw [he]; decide, h⟩

theorem LzEnded.err_ne {s t : State} (h : LzEnded s t) {c : ErrCode} (hc : c ∉ [ErrCode.ok, .truncated, .bus]) : t.err ≠ c :=
  fun e => hc (e ▸ h.completed.1)

theorem exec_lzdec_ended {s : State} (h : precheck .lzdec s = none) : ∃ t, exec .lzdec s = .next t ∧ LzEnded s t := by
  obtain ⟨c, t, he, -, -, -, ⟨hd, rfl, rfl⟩ | ⟨-, -, hs⟩⟩ := exec_lzdec_cases h
  · exact ⟨_, he, .inl ⟨completedWith_lzStop _ _, rfl, hd.symm⟩⟩
  · exact ⟨_, he, hs.ended⟩

/-- The output of a run, started afresh, is all that it changes in memory. -/
theorem LzFrame.sameOutside {s t : State} (f : LzFrame (lzStart s) t) (c : ErrCode) :
    SameOutside ⟨s.dstAddr.toNat, t.outCount.toNat⟩ s (lzStop c t) := fun y hy => f.mem y (has_false hy)

theorem SameOutside.mono {b m n : Nat} {s t : State} (h : SameOutside ⟨b, m⟩ s t) (hmn : m ≤ n) : SameOutside ⟨b, n⟩ s t := by
  intro y hy
  have hy := has_false hy
  refine h y (Bool.eq_false_iff.mpr fun hh => ?_)
  have := has_true.mp hh
  omega

/-- Settles O21: the overlap is a pre-check, and past the pre-checks `LZDEC` ends with `OK`, `TRUNCATED` or `BUS`. -/
theorem lzdecRefusesOverlap : Obligations.LzdecRefusesOverlap := by
  intro s hs hd
  rw [← overlaps_regions]
  refine ⟨fun ho => exec_of_precheck (precheck_lzdec_overlap hs hd ho), fun ho => ?_⟩
  obtain ⟨t, he, hend⟩ := exec_lzdec_ended ((precheck_lzdec_none s).mpr ⟨hs, hd, Bool.eq_false_iff.mpr ho⟩)
  exact ⟨t, he, hend.err_ne (by decide), hend.err_ne (by decide)⟩

/-- Settles O22: with an empty destination both remaining pre-checks pass, and the command stops in its start. -/
theorem lzdecWithNoCapacity : Obligations.LzdecWithNoCapacity := by
  intro s hs hd
  have h0 : s.dstLen.toNat = 0 := by rw [hd]; rfl
  have hp : precheck .lzdec s = none := by
    refine (precheck_lzdec_none s).mpr ⟨hs, .inl h0, Bool.eq_false_iff.mpr fun ho => ?_⟩
    obtain ⟨-, hpos, -⟩ := (overlaps_regions s).mp ho
    omega
  obtain ⟨c, t, he, -, -, -, ⟨-, rfl, rfl⟩ | ⟨hne, -⟩⟩ := exec_lzdec_cases hp
  · exact he
  · exact absurd hd hne

/-- Settles O23: the bound of R155 is enough for the bits of the source, so the loop's count never runs out. -/
theorem lzdecAlwaysStops : Obligations.LzdecAlwaysStops := by
  refine ⟨fun s hp hd => ?_, fun s => ?_⟩
  · obtain ⟨c, t, -, -, -, -, ⟨h0, -⟩ | ⟨-, hl, -⟩⟩ := exec_lzdec_cases hp
    · exact absurd h0 hd
    · refine ⟨⟨c, t, hl⟩, fun hs => ⟨c, t, ?_⟩⟩
      rwa [lzPassBound, hs, symbolBits_source] at hl
  · cases hp : precheck .lzdec s with
    | some c =>
      refine ⟨_, exec_of_precheck hp, rfl, rfl, ?_⟩
      rcases precheck_lzdec_some hp with rfl | rfl <;> exact ⟨nofun, nofun, nofun⟩
    | none =>
      obtain ⟨t, he, hend⟩ := exec_lzdec_ended hp
      obtain ⟨-, hdone, hidle⟩ := hend.completed
      exact ⟨t, he, hidle, hdone, hend.err_ne (by decide), hend.err_ne (by decide), hend.err_ne (by decide)⟩

/-- Settles O24: what the decompressor may change, where its cursor may stand, and how its loop stops. -/
theorem lzdecStaysInBounds : Obligations.LzdecStaysInBounds := by
  intro s hp
  obtain ⟨t, he, hend⟩ := exec_lzdec_ended hp
  obtain ⟨c, u, he', f, hc, ho, -⟩ := exec_lzdec_cases hp
  cases he.symm.trans he'
  have hpos : u.pos.toNat ≤ s.srcLen.toNat := f.srcLen ▸ hc.pos
  exact ⟨_, he, f.sameOutside c, ho, rfl, hpos, hend⟩

/-- Settles O25: a failing pre-check completes at once, and past the pre-checks only the decompressor's registers and its output
change. -/
theorem lzdecFrame : Obligations.LzdecFrame := by
  intro s
  obtain ⟨t, he, hk⟩ := commandsKeepTheOperands .lzdec s
  suffices h : SameOutside (dstRegion s) s t ∧ KeepsCipher s t ∧ t.result = s.result from ⟨t, he, h.1, hk, h.2⟩
  cases hp : precheck .lzdec s with
  | some c =>
    cases he.symm.trans (exec_of_precheck hp)
    exact ⟨fun _ _ => rfl, ⟨rfl, rfl, rfl⟩, rfl⟩
  | none =>
    obtain ⟨c, u, he', f, -, ho, -⟩ := exec_lzdec_cases hp
    cases he.symm.trans he'
    refine ⟨(f.sameOutside c).mono ho, ?_⟩
    rw [f.shape]
    exact ⟨⟨rfl, rfl, rfl⟩, rfl⟩

/-- Two runs that differ in the cipher and in `RACK` alone, and in the cipher not, differ in `RACK` alone. -/
theorem SameUnpacking.only_rack {s t u v : State} (h : SameUnpacking u v) (fu : LzFrame s u) (fv : LzFrame t v) (ht : t.tab = s.tab)
    (ha : t.acc = s.acc) : v = { u with rack := v.rack } := by
  have htab : v.tab = u.tab := by rw [fv.shape, fu.shape]; exact ht
  have hacc : v.acc = u.acc := by rw [fv.shape, fu.shape]; exact ha
  have hv := h.shape
  rwa [htab, hacc] at hv

/-- Settles O27: the two starts differ in `RACK` alone, and a bit of it is read only once a byte has been loaded into it. -/
theorem lzdecStartsFresh : Obligations.LzdecStartsFresh := by
  intro s d w p m r n hp
  generalize hs' : { s with dict := d, wIndex := w, pos := p, mask := m, rack := r, outCount := n } = s'
  have hp' : precheck .lzdec s' = none := by rw [← hs']; exact hp
  have hstart : SameUnpacking (lzStart s) (lzStart s') := by rw [← hs']; exact ⟨rfl, fun _ _ _ => rfl, fun h => absurd rfl h⟩
  obtain ⟨c, t, he, f, -, -, ht⟩ := exec_lzdec_cases hp
  obtain ⟨c', t', he', f', -, -, ht'⟩ := exec_lzdec_cases hp'
  suffices h : c' = c ∧ SameUnpacking t t' by
    obtain ⟨rfl, h⟩ := h
    refine ⟨_, _, he, he', ?_⟩
    exact congrArg (lzStop c') (h.only_rack f f' (by rw [← hs']; rfl) (by rw [← hs']; rfl))
  have hd : s'.dstLen = s.dstLen := by rw [← hs']
  have hb : lzPassBound s' = lzPassBound s := by rw [← hs']; rfl
  rw [hd, hb] at ht'
  rcases ht with ⟨h0, rfl, rfl⟩ | ⟨h0, hl, -⟩ <;> rcases ht' with ⟨h0', rfl, rfl⟩ | ⟨h0', hl', -⟩
  · exact ⟨rfl, hstart⟩
  · exact absurd h0 h0'
  · exact absurd h0' h0
  · have hr := lzLoop_sameUnpacking (lzPassBound s) hstart
    rw [hl, hl'] at hr
    cases hr with
    | stop _ h => exact ⟨rfl, h⟩

end Sys2Proof.Machine
end

section
/-! PROOF. `LZDEC` as the decompressor over lists (R140 to R153, R230, R232). The cursor is followed in a source that ends before the
first byte that faults, where it reads a list of bits; the pass and the loop are then followed beside the decompressor's. -/

namespace Sys2Proof.Machine

/-! ## A source cut off before its first fault -/

/-- Replaces the length of the source. -/
def State.setSrcLen (s : State) (n : Word) : State := { s with srcLen := n }

/-- What a part of a command does over a source of `n` bytes, given what it does over the bytes before the first that faults: where
those run out, it stops with the code `e`. -/
def Res.widen (n : Word) (e : ErrCode) {α : Type} : Res α → Res α
  | .ok a t => .ok a (t.setSrcLen n)
  | .stop c t => .stop (if c = .truncated then e else c) (t.setSrcLen n)

/-- The code where the bits run out: `n` bytes of source have ended (R150), or the next of them faults (R230). -/
def shortCode (k n : Nat) : ErrCode := if k = n then .truncated else .bus

/-- The source of `s` is cut off before the first fault of its `n` bytes, and the cursor is inside it. -/
structure CutSource (n : Word) (s : State) : Prop extends CursorIn s where
  first : FirstFault s s.srcAddr.toNat n.toNat s.srcLen.toNat

theorem CutSource.readable {n : Word} {s : State} (h : CutSource n s) : Readable s := ⟨h.toCursorIn, h.first.1⟩

theorem CutSource.moved {n : Word} {s t : State} (h : CutSource n s) (hm : MovesCursor s t) (ht : CursorIn t) : CutSource n t := by
  refine ⟨ht, ?_⟩
  rw [hm]
  exact h.first

/-- A part of a command does over the whole source what it does over the cut one, but for the code where the bits run out. -/
def Widens (n : Word) {α : Type} (f : State → Res α) : Prop := ∀ s, CutSource n s →
  f (s.setSrcLen n) = (f s).widen n (shortCode s.srcLen.toNat n.toNat)

section
variable {n : Word} {α β : Type}

/-- Parts that widen do so one after the other, the first being the read of what a decoder takes. -/
theorem Widens.bind {f : State → Res α} {k : α → State → Res β} (hf : Widens n f)
    (hr : ∀ s, Readable s → ∃ o, ReadsAs s o (f s)) (hk : ∀ a, Widens n (k a)) : Widens n fun s => (f s).bind k := by
  intro s h
  obtain ⟨o, ho⟩ := hr s h.readable
  show (f (s.setSrcLen n)).bind k = ((f s).bind k).widen _ _
  rw [hf s h]
  generalize f s = x at ho ⊢
  cases ho with
  | @some a t hm ht =>
    have hl : t.srcLen = s.srcLen := by rw [hm]; rfl
    rw [← hl]
    exact hk a t (h.moved hm ht.toCursorIn)
  | none hm hp => rfl

/-- A load as one expression: where there is a bit left, where the source has ended, where its next byte faults, and else (R143). -/
theorem cursorLoad_eq (s : State) : cursorLoad s =
    if s.mask ≠ 0x80 then .ok () s
    else if s.srcLen.toNat ≤ s.pos.toNat then .stop .truncated s
    else if memFault s (s.srcAddr.toNat + s.pos.toNat) then .stop .bus s
    else .ok () (s.setCursor (s.pos + 1) s.mask (byteAt s (s.srcAddr.toNat + s.pos.toNat))) := by
  unfold cursorLoad readByte
  split
  · rename_i hm
    rw [if_neg (not_not_intro hm)]
    split
    · rfl
    · cases memFault s (s.srcAddr.toNat + s.pos.toNat) <;> rfl
  · rfl

/-- A load finds the cut source used up exactly where the whole one is or its next byte faults (R67, R143). -/
theorem cursorLoad_widens : Widens n cursorLoad := by
  intro s h
  have hp := h.pos
  rw [cursorLoad_eq, cursorLoad_eq]
  show (if s.mask ≠ 0x80 then _ else if n.toNat ≤ s.pos.toNat then _
    else if memFault s (s.srcAddr.toNat + s.pos.toNat) then _ else _) = _
  by_cases hm : s.mask ≠ 0x80
  · rw [if_pos hm, if_pos hm]
    rfl
  rw [if_neg hm, if_neg hm]
  by_cases hlt : s.srcLen.toNat ≤ s.pos.toNat
  · rw [if_pos hlt, shortCode]
    have hps : s.pos.toNat = s.srcLen.toNat := Nat.le_antisymm hp hlt
    rcases h.first.2 with hk | ⟨hk, hf⟩
    · rw [if_pos (by omega), if_pos hk]
      rfl
    · rw [if_neg (by omega), hps, if_pos hf, if_neg (by omega)]
      rfl
  · have hle := h.first.2
    have hf := h.first.1 (s.srcAddr.toNat + s.pos.toNat) (by omega) (by omega)
    rw [if_neg hlt, if_neg (by omega), hf]
    rfl

theorem readBit_widens : Widens n readBit := by
  intro s h
  rw [readBit_eq, readBit_eq, cursorLoad_widens s h]
  cases cursorLoad s <;> rfl

theorem readBits_widens (k : Nat) : ∀ v, Widens n (readBits k v) := by
  induction k with
  | zero => exact fun v s h => rfl
  | succ k ih =>
    intro v
    rw [funext (readBits_succ k v)]
    exact readBit_widens.bind (fun s h => ⟨_, readBit_readsAs h⟩) fun b => ih _

/-- A field and what follows it. -/
theorem Widens.field (k : Nat) {r : Nat → State → Res β} (hr : ∀ v, Widens n (r v)) :
    Widens n fun s => (readBits k 0 s).bind r :=
  (readBits_widens k 0).bind (fun _ h => ⟨_, readBits_readsAs k 0 h⟩) hr

theorem symbolRest_widens (l : Literals) (d : Nat) : Widens n (symbolRest l d) := by
  unfold symbolRest
  split
  · exact .field _ fun v s h => rfl
  · refine .field _ fun off => ?_
    split
    · exact fun s h => rfl
    · exact .field _ fun len s h => rfl

theorem readSymbol_widens : Widens n readSymbol := by
  intro s h
  rw [readSymbol_eq, readSymbol_eq]
  exact Widens.field 1 (symbolRest_widens s.params.lits) s h

end
/-! ## Lists of bytes and bits -/

theorem goodBytes_firstFault (s : State) (n : Nat) : ∀ x, FirstFault s x n (goodBytes s x n) := by
  induction n with
  | zero => exact fun x => ⟨fun y h1 h2 => absurd h2 (Nat.not_lt.mpr h1), .inl rfl⟩
  | succ n ih =>
    intro x
    obtain ⟨hn, hk⟩ := ih (x + 1)
    rw [goodBytes]
    split
    · rename_i hf
      exact ⟨fun y h1 h2 => absurd h2 (Nat.not_lt.mpr h1), .inr ⟨Nat.succ_pos n, hf⟩⟩
    · rename_i hf
      refine ⟨fun y h1 h2 => ?_, hk.imp (congrArg (· + 1)) fun ⟨h1, h2⟩ => ⟨Nat.succ_lt_succ h1, ?_⟩⟩
      · rcases Nat.eq_or_lt_of_le h1 with rfl | h
        · exact Bool.eq_false_of_not_eq_true hf
        · exact hn y h (by omega)
      · rwa [Nat.add_right_comm] at h2

theorem FirstFault.le {s : State} {x n k : Nat} (h : FirstFault s x n k) : k ≤ n := by
  have := h.2
  omega

/-- Up to the first fault a byte faults exactly if it is that one. -/
theorem FirstFault.fault_iff {s : State} {x n k i : Nat} (h : FirstFault s x n k) (hi : i ≤ k) (hn : i < n) :
    memFault s (x + i) = true ↔ i = k := by
  refine ⟨fun hf => ?_, fun e => ?_⟩
  · by_contra hne
    exact absurd ((h.1 (x + i) (by omega) (by omega)).symm.trans hf) nofun
  · rcases h.2 with hk | ⟨-, hf⟩
    · omega
    · rwa [e]

theorem sourceGood_firstFault (s : State) : FirstFault s s.srcAddr.toNat s.srcLen.toNat (sourceGood s) := goodBytes_firstFault s _ _

theorem sourceGood_toNat (s : State) : (BitVec.ofNat 32 (sourceGood s)).toNat = sourceGood s := by
  have := (sourceGood_firstFault s).le
  have := s.srcLen.isLt
  rw [BitVec.toNat_ofNat, Nat.mod_eq_of_lt (by omega)]

theorem bytesFrom_concat (s : State) (n : Nat) : ∀ x, bytesFrom s x (n + 1) = bytesFrom s x n ++ [byteAt s (x + n)] := by
  induction n with
  | zero => exact fun _ => rfl
  | succ n ih =>
    intro x
    rw [bytesFrom, ih (x + 1), Nat.add_assoc, Nat.add_comm 1 n]
    rfl

theorem bytesFrom_agree {s t : State} (n : Nat) : ∀ {x : Nat}, (∀ y, x ≤ y → y < x + n → byteAt t y = byteAt s y) →
    bytesFrom t x n = bytesFrom s x n := by
  induction n with
  | zero => exact fun _ => rfl
  | succ n ih =>
    intro x h
    rw [bytesFrom, bytesFrom, h x (by omega) (by omega), ih fun y h1 h2 => h y (by omega) (by omega)]

theorem length_bitsMsb (n v : Nat) : (bitsMsb n v).length = n := by
  induction n with
  | zero => rfl
  | succ n ih => exact congrArg (· + 1) ih

theorem length_bitsOfBytes (bs : List Byte) : (bitsOfBytes bs).length = 8 * bs.length := by
  induction bs with
  | nil => rfl
  | cons b bs ih => rw [bitsOfBytes_cons, List.length_append, length_bitsMsb, ih, List.length_cons]; omega

theorem length_remainingBits (s : State) : (remainingBits s).length = bitsLeft s := by
  rw [remainingBits, List.length_append, length_bitsMsb, length_bitsOfBytes, length_bytesFrom, bitsLeft, Nat.add_comm]

/-! ## The decompressor over lists, one symbol at a time -/

/-- What follows, unless the decompressor has stopped. -/
def Unpacked.bind (u : Unpacked) (k : List Byte → Unpacked) : Unpacked :=
  match u.stop with
  | none => k u.out
  | some _ => u

/-- What a symbol does to the bytes emitted (R146 to R148). -/
def applyList (o : Sink) (y : Symbol) (rest : List Bool) (out : List Byte) : Unpacked :=
  match y with
  | .literal c => emitList o (BitVec.ofNat 8 c) rest out
  | .copy off len => copyList o rest (len + o.lits.minMatch) off out
  | .endOfStream => ⟨out, rest, some (.ok, true)⟩

theorem copyList_succ (o : Sink) (rest : List Bool) (n off : Nat) (out : List Byte) : copyList o rest (n + 1) off out =
    (emitList o (windowByte o.lits out (off % o.lits.dictSize)) rest out).bind (copyList o rest n (off + 1)) := by
  rw [copyList]
  rcases emitList o (windowByte o.lits out (off % o.lits.dictSize)) rest out with ⟨out', r, _ | e⟩ <;> rfl

theorem unpack_of_none {o : Sink} {bits : List Bool} (h : takeSymbol o.lits bits = none) (e : ErrCode) (n : Nat) (out : List Byte) :
    unpack o e (n + 1) bits out = ⟨out, [], some (e, false)⟩ := by
  rw [unpack, h]

theorem unpack_of_some {o : Sink} {bits rest : List Bool} {y : Symbol} (h : takeSymbol o.lits bits = some (y, rest)) (e : ErrCode)
    (n : Nat) (out : List Byte) : unpack o e (n + 1) bits out = (applyList o y rest out).bind (unpack o e n rest) := by
  rw [unpack, h]
  cases y with
  | literal c =>
    dsimp only [applyList]
    rcases emitList o (BitVec.ofNat 8 c) rest out with ⟨out', r, _ | e⟩ <;> rfl
  | copy off len =>
    dsimp only [applyList]
    rcases copyList o rest (len + o.lits.minMatch) off out with ⟨out', r, _ | e⟩ <;> rfl
  | endOfStream => rfl

/-! ## A run beside the decompressor over lists -/

/-- The run of the `LZDEC` that began in `s` has in `t` emitted the bytes `out`, last first (R145). -/
structure HasEmitted (s : State) (out : List Byte) (t : State) : Prop where
  frame : LzFrame (lzStart s) t
  wf : Memory.wf t.mem = true
  count : t.outCount.toNat = out.length
  good : out.length ≤ (sinkOf s).good
  bytes : bytesFrom t s.dstAddr.toNat out.length = out.reverse
  wIndex : t.wIndex = (s.params.lits.wInit + out.length) % s.params.lits.dictSize
  dict : ∀ j, dictGet t.dict j = windowByte s.params.lits out j

/-- What has been emitted stands in memory, `OUT_COUNT`, `DICT` and `W` alone. -/
theorem HasEmitted.of_same {s t u : State} {out : List Byte} (h : HasEmitted s out t) (hf : LzFrame t u) (hm : u.mem = t.mem)
    (hc : u.outCount = t.outCount) (hi : u.wIndex = t.wIndex) (hd : u.dict = t.dict) : HasEmitted s out u :=
  ⟨h.frame.trans hf, hm ▸ h.wf, hc ▸ h.count, h.good, (bytesFrom_congr hm _ _).trans h.bytes, hi ▸ h.wIndex, hd ▸ h.dict⟩

/-- `t` with its source cut off before the first byte that faults in `s`. -/
def State.cut (s t : State) : State := t.setSrcLen (BitVec.ofNat 32 (sourceGood s))

/-- The run has emitted `out`, has `bits` still to read before the first fault of the source, and goes on. -/
structure Unpacking (s : State) (out : List Byte) (bits : List Bool) (t : State) : Prop extends HasEmitted s out t where
  cursor : CursorIn (s.cut t)
  bits : remainingBits (s.cut t) = bits
  eos : t.eos = false
  room : out.length < s.dstLen.toNat

/-- A part of the run ends as a part of the decompressor over lists does, with `bits` left to read: both go on, or both stop with one
code, `EOS` being set if the end marker stopped them, and as many source bytes loaded as hold the bits read. -/
inductive EndsAs (s : State) (bits : List Bool) : Unpacked → Res Unit → Prop
  | ok {out : List Byte} {t : State} (h : Unpacking s out bits t) : EndsAs s bits ⟨out, bits, none⟩ (.ok () t)
  | stop {out : List Byte} {t : State} (c : ErrCode) (h : HasEmitted s out t)
      (hp : t.pos.toNat = (8 * sourceGood s - bits.length + 7) / 8) : EndsAs s bits ⟨out, bits, some (c, t.eos)⟩ (.stop c t)

theorem EndsAs.bind {s : State} {bits : List Bool} {u : Unpacked} {r : Res Unit} (h : EndsAs s bits u r) {k : List Byte → Unpacked}
    {k' : Unit → State → Res Unit} (hk : ∀ out t, Unpacking s out bits t → EndsAs s bits (k out) (k' () t)) :
    EndsAs s bits (u.bind k) (r.bind k') := by
  cases h with
  | ok h => exact hk _ _ h
  | stop c h hp => exact .stop c h hp

/-- The bytes loaded are those that hold the bits read: the last of them has at most seven bits left. -/
theorem Unpacking.pos_eq {s : State} {out : List Byte} {bits : List Bool} {t : State} (h : Unpacking s out bits t) :
    t.pos.toNat = (8 * sourceGood s - bits.length + 7) / 8 := by
  have hl : (remainingBits (s.cut t)).length = 8 * ((s.cut t).srcLen.toNat - t.pos.toNat) + maskLeft t.mask :=
    length_remainingBits _
  have hm : maskLeft t.mask ≤ 7 := by
    rcases maskOk_cases h.cursor.mask with e | e | e | e | e | e | e | e <;>
      rw [show t.mask = _ from e] <;> decide
  have hp : t.pos.toNat ≤ (s.cut t).srcLen.toNat := h.cursor.pos
  have hg : (s.cut t).srcLen.toNat = sourceGood s := sourceGood_toNat s
  rw [h.bits] at hl
  omega

section
variable {s : State} (hp : precheck .lzdec s = none) {out : List Byte} {bits : List Bool} {t : State}
include hp

/-- A byte of the output is none of the source (R154). -/
theorem source_ne_output {x i : Nat} (h1 : s.srcAddr.toNat ≤ x) (h2 : x < s.srcAddr.toNat + s.srcLen.toNat) (hi : i < s.dstLen.toNat) :
    x ≠ s.dstAddr.toNat + i := by
  obtain ⟨-, -, ho⟩ := (precheck_lzdec_none s).mp hp
  rintro rfl
  rw [(overlaps_regions s).mpr ⟨by omega, by omega, by omega, by omega⟩] at ho
  cases ho

/-- A byte emitted leaves the bits still to read. -/
theorem remainingBits_emitted (h : Unpacking s out bits t) (c : Byte) : remainingBits (s.cut (emitted c t)) = bits := by
  have hg : (s.cut t).srcLen.toNat = sourceGood s := sourceGood_toNat s
  have hle := (sourceGood_firstFault s).le
  have hpos : t.pos.toNat ≤ (s.cut t).srcLen.toNat := h.cursor.pos
  have ha : t.srcAddr.toNat = s.srcAddr.toNat := by rw [h.frame.srcAddr]; rfl
  have hd : t.dstAddr.toNat = s.dstAddr.toNat := by rw [h.frame.dstAddr]; rfl
  rw [← h.bits]
  refine congrArg (bitsMsb (maskLeft t.mask) t.rack.toNat ++ bitsOfBytes ·) (bytesFrom_agree _ fun y h1 h2 => ?_)
  refine Memory.read_write_other t.mem c ?_
  change t.srcAddr.toNat + t.pos.toNat ≤ y at h1
  change y < t.srcAddr.toNat + t.pos.toNat + ((s.cut t).srcLen.toNat - t.pos.toNat) at h2
  rw [h.count, hd]
  exact source_ne_output hp (by omega) (by omega) h.room

omit hp in
/-- A byte emitted, where it does not fault, is one byte more (R145). -/
theorem Unpacking.emitted (h : Unpacking s out bits t) (hne : out.length ≠ (sinkOf s).good) (c : Byte) :
    HasEmitted s (c :: out) (emitted c t) := by
  have hl : t.dstLen = s.dstLen := h.frame.dstLen
  have hd : t.dstAddr = s.dstAddr := h.frame.dstAddr
  have hp : t.params = s.params := h.frame.params
  have hcount := h.count
  have hroom := h.room
  obtain ⟨hf, hc⟩ := emitted_frame c (s := t) (by rw [hl]; omega)
  have haddr : t.dstAddr.toNat + t.outCount.toNat = s.dstAddr.toNat + out.length := by rw [hd, hcount]
  refine ⟨h.frame.trans hf, hf.wf h.wf, by rw [hc, hcount, List.length_cons], Nat.lt_of_le_of_ne h.good hne, ?_, ?_, fun j => ?_⟩
  · have hnew : byteAt (Machine.emitted c t) (s.dstAddr.toNat + out.length) = c := by
      rw [← haddr]
      exact Memory.read_write_same h.wf _ c
    rw [List.length_cons, bytesFrom_concat, hnew, List.reverse_cons, ← h.bytes]
    refine congrArg (· ++ [c]) (bytesFrom_agree _ fun y h1 h2 => hf.mem y ?_)
    omega
  · show (t.wIndex + 1) % t.params.lits.dictSize = _
    rw [h.wIndex, hp, Nat.mod_add_mod, List.length_cons, Nat.add_assoc]
  · show dictGet (dictSet t.dict t.wIndex c) j = _
    rw [dictGet_dictSet, h.wIndex, h.dict, windowByte]
    exact if_congr eq_comm rfl rfl

theorem emit_endsAs (h : Unpacking s out bits t) (c : Byte) : EndsAs s bits (emitList (sinkOf s) c bits out) (emit c t) := by
  have hroom := h.room
  have hcount := h.count
  have hd : t.dstAddr = s.dstAddr := h.frame.dstAddr
  have hl : t.dstLen = s.dstLen := h.frame.dstLen
  have hfault : memFault t (t.dstAddr.toNat + t.outCount.toNat) = true ↔ out.length = (sinkOf s).good := by
    rw [memFault_congr (s := s) h.frame.params, hd, hcount]
    exact (goodBytes_firstFault s _ _).fault_iff h.good hroom
  have hfull : t.outCount + 1 = t.dstLen ↔ out.length + 1 = (sinkOf s).cap := by
    rw [← BitVec.toNat_inj, succ_toNat_of_lt (q := s.dstLen) (by omega), hcount, hl]
    rfl
  rw [emit_eq, emitList]
  simp only [hfault, hfull]
  split
  · rw [← h.eos]
    exact .stop _ h.toHasEmitted h.pos_eq
  · rename_i hne
    have he := h.emitted hne c
    split
    · rw [← h.eos]
      exact .stop _ he h.pos_eq
    · rename_i hcap
      exact .ok ⟨he, ⟨h.cursor.mask, h.cursor.pos⟩, remainingBits_emitted hp h c, h.eos, Nat.lt_of_le_of_ne hroom hcap⟩

theorem copyMatch_endsAs (n : Nat) : ∀ (off : Nat) {out : List Byte} {t : State}, Unpacking s out bits t →
    EndsAs s bits (copyList (sinkOf s) bits n off out) (copyMatch n off t) := by
  induction n with
  | zero => exact fun _ _ _ h => .ok h
  | succ n ih =>
    intro off out t h
    have hb : dictGet t.dict (off % t.params.lits.dictSize) = windowByte s.params.lits out (off % s.params.lits.dictSize) := by
      rw [h.dict, h.frame.params]
      rfl
    rw [copyList_succ, copyMatch_succ, hb]
    exact (emit_endsAs hp h _).bind fun _ _ h' => ih (off + 1) h'

theorem applySymbol_endsAs (y : Symbol) (h : Unpacking s out bits t) :
    EndsAs s bits (applyList (sinkOf s) y bits out) (applySymbol y t) := by
  cases y with
  | literal c => exact emit_endsAs hp h _
  | copy off len =>
    rw [applySymbol, h.frame.params]
    exact copyMatch_endsAs hp _ off h
  | endOfStream =>
    have hf : LzFrame t { t with eos := true } := ⟨rfl, Nat.le_refl _, fun _ _ => rfl, id, fun _ h _ => h, fun h1 h2 => ⟨h1, h2⟩⟩
    exact .stop .ok (t := { t with eos := true }) (h.toHasEmitted.of_same hf rfl rfl rfl rfl) h.pos_eq

omit hp in
/-- A moved cursor leaves what has been emitted. -/
theorem HasEmitted.movesCursor (h : HasEmitted s out t) {u : State} (hm : MovesCursor t u) : HasEmitted s out u := by
  rw [hm]
  exact h.of_same (.setCursor t _ _ _) rfl rfl rfl rfl

omit hp in
/-- A symbol is read as the decoder takes it off the bits still to read; where they run out, so has the source or its next byte
faults (R150, R230). -/
theorem Unpacking.readSymbol (h : Unpacking s out bits t) :
    (∃ y rest u, takeSymbol s.params.lits bits = some (y, rest) ∧ readSymbol t = .ok y u ∧ Unpacking s out rest u) ∨
    (∃ u, takeSymbol s.params.lits bits = none ∧ readSymbol t = .stop (shortCode (sourceGood s) s.srcLen.toNat) u ∧
      HasEmitted s out u ∧ u.pos.toNat = sourceGood s ∧ u.eos = false) := by
  have hg : (s.cut t).srcLen.toNat = sourceGood s := sourceGood_toNat s
  have hn : t.srcLen = s.srcLen := h.frame.srcLen
  have hcut : CutSource t.srcLen (s.cut t) := by
    refine ⟨h.cursor, ?_⟩
    rw [hg, hn]
    show FirstFault (s.cut t) t.srcAddr.toNat _ _
    rw [h.frame.srcAddr]
    exact (sourceGood_firstFault s).congr h.frame.params
  have hw : Machine.readSymbol t = (Machine.readSymbol (s.cut t)).widen t.srcLen _ := readSymbol_widens _ hcut
  have hr := readSymbol_readsAs hcut.readable
  have hparams : (s.cut t).params = s.params := h.frame.params
  rw [h.bits, hparams] at hr
  rw [hg, hn] at hw
  have moved {u : State} (hm : MovesCursor (s.cut t) u) : MovesCursor t (u.setSrcLen s.srcLen) := by
    have hu : u.setSrcLen s.srcLen = ((s.cut t).setCursor u.pos u.mask u.rack).setSrcLen t.srcLen := by rw [hn, ← hm]
    exact hu
  generalize takeSymbol s.params.lits bits = o at hr ⊢
  generalize Machine.readSymbol (s.cut t) = x at hr hw
  cases hr with
  | @some y u hm hu =>
    have hback : s.cut (u.setSrcLen s.srcLen) = u := by
      have hsrc : u.srcLen = BitVec.ofNat 32 (sourceGood s) := by rw [hm]; rfl
      show u.setSrcLen _ = u
      rw [← hsrc]
      rfl
    refine .inl ⟨y, _, _, rfl, hw, h.toHasEmitted.movesCursor (moved hm), ?_, by rw [hback], ?_, h.room⟩
    · rw [hback]
      exact hu.toCursorIn
    · rw [moved hm]
      exact h.eos
  | @none u hm hu =>
    refine .inr ⟨_, rfl, hw, h.toHasEmitted.movesCursor (moved hm), ?_, ?_⟩
    · have hsrc : u.srcLen.toNat = sourceGood s := by rw [hm]; exact hg
      rw [← hsrc, ← hu]
      rfl
    · rw [moved hm]
      exact h.eos

/-- The loop ends as the decompressor over lists does with as many passes. -/
theorem lzLoop_endsAs (n : Nat) : ∀ {out : List Byte} {bits : List Bool} {t : State}, Unpacking s out bits t →
    ∃ rest, EndsAs s rest (unpack (sinkOf s) (shortCode (sourceGood s) s.srcLen.toNat) n bits out) (lzLoop n t) := by
  induction n with
  | zero => exact fun h => ⟨_, .ok h⟩
  | succ n ih =>
    intro out bits t h
    rw [lzLoop_succ, lzPass_eq]
    rcases h.readSymbol with ⟨y, rest, u, hy, hr, hu⟩ | ⟨u, hy, hr, hu, hpos, heos⟩
    · rw [unpack_of_some hy, hr]
      have ha := applySymbol_endsAs hp y hu
      generalize applyList (sinkOf s) y rest out = v at ha ⊢
      show ∃ rest', EndsAs s rest' _ ((applySymbol y u).bind _)
      generalize applySymbol y u = r at ha ⊢
      cases ha with
      | ok h' => exact ih h'
      | stop c h' hp' => exact ⟨rest, .stop c h' hp'⟩
    · rw [unpack_of_none hy, hr, ← heos]
      refine ⟨[], .stop _ hu ?_⟩
      rw [hpos, List.length_nil]
      omega

end

/-! ## The command -/

/-- The start of `LZDEC` has emitted nothing (R141). -/
theorem hasEmitted_lzStart {s : State} (hw : Memory.wf s.mem = true) : HasEmitted s [] (lzStart s) :=
  ⟨.refl _, hw, rfl, Nat.zero_le _, rfl, rfl, fun j => dictGet_replicate _ j⟩

theorem length_sourceBits (s : State) : (sourceBits s).length = 8 * sourceGood s := by
  rw [sourceBits, length_bitsOfBytes, length_bytesFrom]

theorem dstLen_toNat_ne_zero {s : State} (h : s.dstLen ≠ 0) : s.dstLen.toNat ≠ 0 := fun h0 => h (BitVec.eq_of_toNat_eq h0)

/-- The start has the bits of the source before its first fault still to read. -/
theorem unpacking_lzStart {s : State} (hw : Memory.wf s.mem = true) (hd : s.dstLen ≠ 0) :
    Unpacking s [] (sourceBits s) (lzStart s) := by
  refine ⟨hasEmitted_lzStart hw, ⟨rfl, Nat.zero_le _⟩, ?_, rfl, ?_⟩
  · show bitsOfBytes (bytesFrom _ s.srcAddr.toNat ((BitVec.ofNat 32 (sourceGood s)).toNat - 0)) = _
    rw [sourceGood_toNat]
    exact congrArg bitsOfBytes (bytesFrom_congr (s := s.cut (lzStart s)) (t := s) rfl _ _)
  · exact Nat.pos_of_ne_zero (dstLen_toNat_ne_zero hd)

/-- `LZDEC` past its pre-checks ends as the decompressor over lists does on the source. -/
theorem exec_lzdec_endsAs {s : State} (hp : precheck .lzdec s = none) (hw : Memory.wf s.mem = true) : ∃ c t rest,
    exec .lzdec s = .next (lzStop c t) ∧ EndsAs s rest (unpackSource s) (.stop c t) := by
  obtain ⟨c, t, he, -, -, -, ⟨hd, rfl, rfl⟩ | ⟨hd, hl, -⟩⟩ := exec_lzdec_cases hp
  · refine ⟨_, _, sourceBits s, he, ?_⟩
    rw [unpackSource, if_pos (by rw [hd]; rfl)]
    refine .stop .ok (hasEmitted_lzStart hw) ?_
    rw [length_sourceBits, Nat.sub_self]
    rfl
  · obtain ⟨rest, h⟩ := lzLoop_endsAs hp (lzPassBound s) (unpacking_lzStart hw hd)
    rw [hl] at h
    rw [unpackSource, if_neg (dstLen_toNat_ne_zero hd)]
    exact ⟨c, t, rest, he, h⟩

/-- Settles O26: the run and the decompressor over lists end alike, and what the run has emitted is what the statement asks of its
end. -/
theorem lzdecRefinesTheListDecompressor : Obligations.LzdecRefinesTheListDecompressor := by
  intro s hp hw
  obtain ⟨c, t, rest, he, h⟩ := exec_lzdec_endsAs hp hw
  generalize unpackSource s = u at h ⊢
  cases h with
  | stop _ h hpos =>
    refine ⟨_, c, t.eos, he, rfl, completedWith_lzStop c t, rfl, h.count, ?_, h.frame.sameOutside c, h.wIndex, h.dict, rfl, hpos⟩
    show bytesFrom _ _ t.outCount.toNat = _
    rw [h.count]
    exact (bytesFrom_congr (s := lzStop c t) (t := t) rfl _ _).trans h.bytes

end Sys2Proof.Machine
end

section
/-! PROOF. `CSUM` (R180 to R184): its three ends, each as the exact next state. Which of them a run takes, and the value it folds,
depend on its full words alone. -/

namespace Sys2Proof.Machine

/-- The fold over the full words of the source region (R180, R182). -/
def csumValue (s : State) : Word :=
  (List.range (s.srcLen.toNat / 4)).foldl (fun acc i => foldWord i acc (wordAt s (s.srcAddr.toNat + 4 * i))) 0

/-- Where no full word faults, `CSUM` completes with `OK` and the fold in `RESULT`. -/
theorem exec_csum_ok {s : State} (hr : SrcInRange s) (hf : NoFault s s.srcAddr.toNat (4 * (s.srcLen.toNat / 4))) :
    exec .csum s = .next (complete .ok { s with result := csumValue s }) := by
  have hl := csumLoop_ok (s.srcLen.toNat / 4) 0 s.srcAddr.toNat 0 s hf
  rcases exec_csum_cases ((precheck_csum_none s).mpr hr) with ⟨acc, hc, he⟩ | ⟨hc, -⟩
  · cases hl.symm.trans hc
    rw [he, csumValue, List.range_eq_range']
    rfl
  · cases hl.symm.trans hc

/-- Where a byte of a full word faults, `CSUM` completes with `BUS` and does nothing else (R230). -/
theorem exec_csum_bus {s : State} {y : Nat} (hr : SrcInRange s) (h1 : s.srcAddr.toNat ≤ y)
    (h2 : y < s.srcAddr.toNat + 4 * (s.srcLen.toNat / 4)) (hf : memFault s y = true) :
    exec .csum s = .next (complete .bus s) := by
  have hl := csumLoop_fault (s.srcLen.toNat / 4) 0 s.srcAddr.toNat y 0 s h1 h2 hf
  rcases exec_csum_cases ((precheck_csum_none s).mpr hr) with ⟨acc, hc, -⟩ | ⟨-, he⟩
  · cases hl.symm.trans hc
  · exact he

/-- A source region out of range fails the pre-check of `CSUM`. -/
theorem exec_csum_range {s : State} (hr : ¬SrcInRange s) : exec .csum s = .next (complete .range s) := by
  rw [← inRange_src] at hr
  exact exec_of_precheck (by simp only [precheck, if_neg hr])

/-- Settles O19: each clause is one of the three ends. -/
theorem csumFoldsTheWords : Obligations.CsumFoldsTheWords :=
  fun _ => ⟨exec_csum_ok, fun hr ⟨_, h1, h2, hf⟩ => exec_csum_bus hr h1 h2 hf, exec_csum_range⟩

theorem wordAt_congr {s t : State} {x : Nat} (h : ∀ y, x ≤ y → y < x + 4 → byteAt t y = byteAt s y) :
    wordAt t x = wordAt s x := by
  rw [wordAt, h x (by omega) (by omega), h (x + 1) (by omega) (by omega), h (x + 2) (by omega) (by omega),
    h (x + 3) (by omega) (by omega), wordAt]

/-- The fold depends on the bytes of the full words alone (R181). -/
theorem csumValue_congr {s t : State} (ha : t.srcAddr = s.srcAddr) (hl : t.srcLen = s.srcLen)
    (h : ∀ x, s.srcAddr.toNat ≤ x → x < s.srcAddr.toNat + 4 * (s.srcLen.toNat / 4) → byteAt t x = byteAt s x) :
    csumValue t = csumValue s := by
  rw [csumValue, csumValue, ha, hl]
  refine List.foldl_ext _ _ _ fun acc i hi => ?_
  have hi := List.mem_range.mp hi
  rw [wordAt_congr fun y h1 h2 => h y (by omega) (by omega)]

/-- A region of fewer than 4 bytes has no full word. -/
theorem csumValue_of_short {s : State} (h : s.srcLen.toNat < 4) : csumValue s = 0 := by
  rw [csumValue, Nat.div_eq_of_lt h]
  rfl

/-- Settles O20: both runs take the same end of the three, whose premises speak of the full words alone; a region of fewer than 4 bytes
has none. -/
theorem csumIgnoresTrailingBytes : Obligations.CsumIgnoresTrailingBytes := by
  refine ⟨fun s m f h => ?_, fun s hs hr => ?_⟩
  · by_cases hr : SrcInRange s
    · obtain ⟨k, hn, rfl | ⟨hk, hf⟩⟩ := exists_firstFault s s.srcAddr.toNat (4 * (s.srcLen.toNat / 4))
      · exact ⟨_, _, exec_csum_ok hr hn, exec_csum_ok hr fun y h1 h2 => (h y h1 h2).2.trans (hn y h1 h2),
          csumValue_congr rfl rfl fun y h1 h2 => (h y h1 h2).1, rfl⟩
      · have h1 := Nat.le_add_right s.srcAddr.toNat k
        have h2 := Nat.add_lt_add_left hk s.srcAddr.toNat
        exact ⟨_, _, exec_csum_bus hr h1 h2 hf, exec_csum_bus hr h1 h2 ((h _ h1 h2).2.trans hf), rfl, rfl⟩
    · exact ⟨_, _, exec_csum_range hr, exec_csum_range hr, rfl, rfl⟩
  · have hn : NoFault s s.srcAddr.toNat (4 * (s.srcLen.toNat / 4)) := fun y h1 h2 => by omega
    exact ⟨_, exec_csum_ok hr hn, ⟨rfl, rfl, rfl⟩, csumValue_of_short hs⟩

end Sys2Proof.Machine
end

section
/-! PROOF. The dispatch of the reference host program on the `Compression` field (R192, R196, R206): where its lines stand, and what each
of them does with the field in `%comp`. -/

namespace Sys2Proof.Machine

/-- Every value but the three of R192 is of the kind `Unknown`. -/
theorem kindOf_of_three_le {c : Nat} (h : 3 ≤ c) : kindOf c = .unknown := by
  rw [kindOf, if_neg (by omega), if_neg (by omega), if_neg (by omega)]

/-! ## The lines of the dispatch -/

/-- The index of the line `s1ok`: the `explicit` decryption writes `SEED` first, which is one line more (R194). -/
def dispatchLine : KsAlign → Nat
  | .explicit => 27
  | .reference => 26

/-- From the line `s1ok` the reference program goes on with the dispatch. -/
theorem refProgram_drop_dispatchLine (align : KsAlign) (size : Nat) :
    (refProgram align size).drop (dispatchLine align) = refDispatch ++ (refPlain ++ refLz ++ refStage2) := by
  cases align <;> rfl

theorem findLabel_refProgram_s1ok (align : KsAlign) (size : Nat) :
    findLabel (refProgram align size) lblS1ok = some (dispatchLine align) := by cases align <;> rfl

theorem findLabel_refProgram_rle (align : KsAlign) (size : Nat) :
    findLabel (refProgram align size) lblRle = some (dispatchLine align + 4) := by cases align <;> rfl

theorem findLabel_refProgram_plain (align : KsAlign) (size : Nat) :
    findLabel (refProgram align size) lblPlain = some (dispatchLine align + 5) := by cases align <;> rfl

theorem findLabel_refProgram_lz (align : KsAlign) (size : Nat) :
    findLabel (refProgram align size) lblLz = some (dispatchLine align + 11) := by cases align <;> rfl

/-! ## The steps of the dispatch -/

/-- The state with the host at another line. -/
def State.atLine (s : State) (k : Nat) : State := s.setHost { s.host with pc := k }

/-- An idle block whose host runs the reference program and has the `Compression` field `c` in `%comp`. -/
structure HoldsField (align : KsAlign) (size c : Nat) (s : State) : Prop where
  idle : s.phase = .idle
  going : s.host.ended = none
  prog : s.host.prog = refProgram align size
  field : lookupVar s.host.vars varComp = some c

theorem steps_succ_of_next {s t : State} (h : step s = .next t) (n : Nat) : steps (n + 1) s = steps n t := by
  rw [steps, h]

section
variable {align : KsAlign} {size c : Nat} {s : State} (h : HoldsField align size c s)
include h

/-- The next statement of a host that is at a line of the dispatch. -/
theorem nextStmt_dispatch {i : Nat} {line : Line} (hi : refDispatch[i]? = some line) :
    nextStmt (s.atLine (dispatchLine align + i)) = some line.stmt := by
  have hline : s.host.prog[dispatchLine align + i]? = some line := by
    rw [h.prog, ← List.getElem?_drop, refProgram_drop_dispatchLine]
    exact (List.getElem?_append_left (List.getElem?_eq_some_iff.mp hi).1).trans hi
  unfold nextStmt
  rw [show (s.atLine (dispatchLine align + i)).host.ended = none from h.going]
  exact congrArg (Option.map Line.stmt) hline

/-- A line of the dispatch that compares `%comp` with a value goes to its label where the two are equal, and on where not. -/
theorem step_dispatch_beq {i v k : Nat} {l : Label} {mark : Option Label}
    (hi : refDispatch[i]? = some ⟨mark, .beq (.var varComp) (.val v) l⟩) (hl : findLabel (refProgram align size) l = some k) :
    step (s.atLine (dispatchLine align + i)) = .next (s.atLine (if c = v then k else dispatchLine align + i + 1)) := by
  have hv : evalHost (.var varComp) (s.atLine (dispatchLine align + i)) = (c, s.atLine (dispatchLine align + i)) :=
    (hostExpressions _).2.1 _ _ h.field
  have hb := (hostBranches (s.atLine (dispatchLine align + i)) (.var varComp) (.val v) l k h.idle (h.prog ▸ hl)).1
    (nextStmt_dispatch h hi)
  rw [hv] at hb
  exact hb

/-- A line of the dispatch that is a fatal error ends the host there. -/
theorem step_dispatch_fatal {i : Nat} {f : Fatal} {mark : Option Label} (hi : refDispatch[i]? = some ⟨mark, .fatal f none⟩) :
    step (s.atLine (dispatchLine align + i)) =
      .next (s.setHost { s.host with pc := dispatchLine align + i, ended := some (.fatal f) }) :=
  step_of_stmt (s := s.atLine (dispatchLine align + i)) h.idle (nextStmt_dispatch h hi)

end

/-- Settles O59: the dispatch compares `%comp` with 0, 2 and 1 in this order, each value that it passes leading one line on. -/
theorem containerKinds : Obligations.ContainerKinds := by
  refine ⟨⟨rfl, rfl, rfl, fun c => kindOf_of_three_le⟩, fun s align size c hi he hp hs hf => ?_⟩
  have h : HoldsField align size c s := ⟨hi, he, hp, hf⟩
  rw [hp] at hs ⊢
  have hpc : s.atLine (dispatchLine align + 0) = s := by
    rw [Nat.add_zero, Option.some.inj ((findLabel_refProgram_s1ok align size).symm.trans hs)]
    rfl
  have plain := step_dispatch_beq h (i := 0) rfl (findLabel_refProgram_plain align size)
  have lz := step_dispatch_beq h (i := 1) rfl (findLabel_refProgram_lz align size)
  have rle := step_dispatch_beq h (i := 2) rfl (findLabel_refProgram_rle align size)
  rw [hpc] at plain
  by_cases h0 : c = 0
  · subst h0
    exact ⟨1, _, by decide, steps_succ_of_next plain 0, rfl, he, findLabel_refProgram_plain align size⟩
  rw [if_neg h0] at plain
  by_cases h2 : c = 2
  · subst h2
    exact ⟨2, _, by decide, (steps_succ_of_next plain 1).trans (steps_succ_of_next lz 0), rfl, he, findLabel_refProgram_lz align size⟩
  rw [if_neg h2] at lz
  have toRle (n : Nat) : steps (n + 2) s = steps n (s.atLine (dispatchLine align + 2)) :=
    (steps_succ_of_next plain (n + 1)).trans (steps_succ_of_next lz n)
  by_cases h1 : c = 1
  · subst h1
    exact ⟨4, _, by decide, (toRle 2).trans ((steps_succ_of_next rle 1).trans
      (steps_succ_of_next (step_dispatch_fatal h (i := 4) rfl) 0)), rfl, rfl⟩
  rw [if_neg h1] at rle
  rw [kindOf_of_three_le (by omega)]
  exact ⟨4, _, by decide, (toRle 2).trans ((steps_succ_of_next rle 1).trans
    (steps_succ_of_next (step_dispatch_fatal h (i := 3) rfl) 0)), rfl, rfl⟩

end Sys2Proof.Machine
end

section
/-! PROOF. Pre-checks, partial effects and completion (R221 to R232): the pre-checks as one chain in the order of R231, how a
command can end past them, an illegal word, and a fault inside `DECRYPT`. -/

namespace Sys2Proof.Machine

/-! ## The order of the pre-checks (R231) -/

/-- The code of the first pre-check that fails, in the order of R231, each for the commands it applies to. -/
def firstFailing (i : Instr) (s : State) : Option ErrCode :=
  if i ∈ [Instr.decrypt, .decryptS, .csum, .lzdec] ∧ ¬SrcInRange s then some .range
  else if i = .lzdec ∧ ¬DstInRange s then some .range
  else if i = .decryptS ∧ s.srcLen.toNat < 4 then some .length
  else if i = .lzdec ∧ (srcRegion s).overlaps (dstRegion s) = true then some .overlap
  else if i = .cnext ∧ s.ksv = false then some .notInit
  else none

/-- The pre-checks that each command makes are those of the order of R231 that apply to it. -/
theorem precheck_eq_firstFailing (i : Instr) (s : State) : precheck i s = firstFailing i s := by
  simp only [firstFailing, ← inRange_src, ← inRange_dst]
  cases i with
  | cinit => simp [precheck]
  | cnext => cases h : s.ksv <;> simp [precheck, h]
  | decrypt => cases h : (srcRegion s).inRange (memSize s) <;> simp [precheck, h]
  | decryptS => simp [precheck]
  | csum => cases h : (srcRegion s).inRange (memSize s) <;> simp [precheck, h]
  | lzdec => simp [precheck]

theorem exec_of_firstFailing {i : Instr} {s : State} {c : ErrCode} (h : firstFailing i s = some c) :
    exec i s = .next (complete c s) :=
  exec_of_precheck ((precheck_eq_firstFailing i s).trans h)

/-- Settles O28: a region out of range fails the first pre-check that concerns it, and both give `RANGE`. -/
theorem rangeIsRefused : Obligations.RangeIsRefused := by
  refine ⟨fun i s hi hs => exec_of_firstFailing (if_pos ⟨hi, hs⟩), fun s hd => exec_of_firstFailing ?_⟩
  by_cases hs : SrcInRange s
  · exact (if_neg fun h => h.2 hs).trans (if_pos ⟨rfl, hd⟩)
  · exact if_pos ⟨by decide, hs⟩

/-- Settles O11: it is the one pre-check of `CNEXT`. -/
theorem cnextBeforeSeeding : Obligations.CnextBeforeSeeding :=
  fun s h => exec_of_firstFailing (by simp [firstFailing, h])

/-! ## How a command completes (R221, R231) -/

/-- The codes of the pre-checks of a command (R231). -/
def precheckCodes : Instr → List ErrCode
  | .cinit => []
  | .cnext => [.notInit]
  | .decrypt => [.range]
  | .decryptS => [.range, .length]
  | .csum => [.range]
  | .lzdec => [.range, .overlap]

/-- The codes with which a command ends once its pre-checks have passed (R231). -/
def runCodes : Instr → List ErrCode
  | .cinit => [.ok]
  | .cnext => [.ok]
  | .decrypt => [.ok, .bus]
  | .decryptS => [.ok, .bus]
  | .csum => [.ok, .bus]
  | .lzdec => [.ok, .truncated, .bus]

/-- The codes that the row of a command allows it (R231). -/
def rowCodes : Instr → List ErrCode
  | .cinit => [.ok]
  | .cnext => [.ok, .notInit]
  | .decrypt => [.ok, .range, .bus]
  | .decryptS => [.ok, .range, .length, .bus]
  | .csum => [.ok, .range, .bus]
  | .lzdec => [.ok, .range, .overlap, .truncated, .bus]

theorem runCodes_subset (i : Instr) : runCodes i ⊆ [.ok, .truncated, .bus] := by
  cases i <;> decide

theorem precheckCodes_subset_rowCodes (i : Instr) : precheckCodes i ⊆ rowCodes i := by
  cases i <;> decide

theorem runCodes_subset_rowCodes (i : Instr) : runCodes i ⊆ rowCodes i := by
  cases i <;> decide

theorem mem_precheckCodes {i : Instr} {s : State} {c : ErrCode} (h : precheck i s = some c) : c ∈ precheckCodes i := by
  rw [precheck_eq_firstFailing, firstFailing] at h
  split_ifs at h with hsrc hdst hlen hover hksv <;> cases h
  · have hrange : ∀ i ∈ [Instr.decrypt, .decryptS, .csum, .lzdec], ErrCode.range ∈ precheckCodes i := by decide
    exact hrange i hsrc.1
  · rw [hdst.1]; decide
  · rw [hlen.1]; decide
  · rw [hover.1]; decide
  · rw [hksv.1]; decide

theorem decryptBody_completed (seed : Word) (base n : Nat) (s : State) :
    ∃ c ∈ [ErrCode.ok, .bus], CompletedWith c (decryptBody seed base n s) := by
  obtain ⟨m, k, c, h, hc, -⟩ := decryptBody_cases seed base n s
  exact ⟨c, by simpa using hc, h ▸ ⟨rfl, rfl, rfl⟩⟩

/-- A command whose pre-checks pass completes, with one of the codes of its run. -/
theorem exec_of_precheck_none {i : Instr} {s : State} (hp : precheck i s = none) :
    ∃ t, exec i s = .next t ∧ ∃ c ∈ runCodes i, CompletedWith c t := by
  cases i with
  | cinit => exact ⟨_, exec_cinit s, .ok, by decide, rfl, rfl, rfl⟩
  | cnext =>
    have hk : s.ksv = true := by simpa [precheck] using hp
    exact ⟨_, exec_cnext hk, .ok, by decide, rfl, rfl, rfl⟩
  | decrypt => exact ⟨_, exec_decrypt hp, decryptBody_completed ..⟩
  | decryptS =>
    rcases exec_decryptS_cases hp with ⟨-, he⟩ | ⟨-, he⟩
    · exact ⟨_, he, .bus, by decide, rfl, rfl, rfl⟩
    · exact ⟨_, he, decryptBody_completed ..⟩
  | csum =>
    rcases exec_csum_cases hp with ⟨acc, -, he⟩ | ⟨-, he⟩
    · exact ⟨_, he, .ok, by decide, rfl, rfl, rfl⟩
    · exact ⟨_, he, .bus, by decide, rfl, rfl, rfl⟩
  | lzdec =>
    obtain ⟨t, he, hend⟩ := exec_lzdec_ended hp
    obtain ⟨hc, hdone, hphase⟩ := hend.completed
    exact ⟨t, he, t.err, hc, rfl, hdone, hphase⟩

/-- Settles O30: the chain is that of `precheck`; past it the command ends with a code of its run. -/
theorem prechecksComeFirst : Obligations.PrechecksComeFirst := by
  intro i s
  refine ⟨fun c (h : firstFailing i s = some c) => exec_of_firstFailing h, fun (h : firstFailing i s = none) => ?_⟩
  obtain ⟨t, he, c, hc, herr, -⟩ := exec_of_precheck_none ((precheck_eq_firstFailing i s).trans h)
  exact ⟨t, he, herr ▸ runCodes_subset i hc⟩

/-- Settles O31: the code is that of a pre-check of the command, or one of its run. -/
theorem everyCommandCompletes : Obligations.EveryCommandCompletes := by
  intro i s
  show ∃ t, exec i s = .next t ∧ t.phase = .idle ∧ t.done = true ∧ t.err ∈ rowCodes i
  cases hp : precheck i s with
  | some c => exact ⟨_, exec_of_precheck hp, rfl, rfl, precheckCodes_subset_rowCodes i (mem_precheckCodes hp)⟩
  | none =>
    obtain ⟨t, he, c, hc, herr, hdone, hphase⟩ := exec_of_precheck_none hp
    exact ⟨t, he, hphase, hdone, herr ▸ runCodes_subset_rowCodes i hc⟩

/-- Settles O29: of the pre-checks of `DECRYPT` with `S = 1` the second fails; the row of `DECRYPT` with `S = 0` has no `LENGTH`. -/
theorem lengthIsRefused : Obligations.LengthIsRefused := by
  refine ⟨fun s hlen hs => exec_of_firstFailing ?_, fun s => ?_⟩
  · exact (if_neg fun h => h.2 hs).trans ((if_neg nofun).trans (if_pos ⟨rfl, hlen⟩))
  · obtain ⟨t, he, -, -, hc⟩ := everyCommandCompletes .decrypt s
    exact ⟨t, he, fun h => absurd (h ▸ hc) (by decide)⟩

/-! ## Illegal words (R84, R223) -/

/-- No command's word has reserved bits, a reserved opcode, or `S = 1` without `DECRYPT`'s opcode (R82 to R84). -/
theorem decodeOp_of_malformed {v : Word}
    (h : v.extractLsb' 5 27 ≠ 0 ∨ v.extractLsb' 0 4 = 0 ∨ 6 ≤ (v.extractLsb' 0 4).toNat ∨
      (v.extractLsb' 4 1 = 1 ∧ v.extractLsb' 0 4 ≠ 3)) : decodeOp v = none := by
  unfold decodeOp
  cases hd : decode v with
  | error e => rfl
  | ok i =>
    rw [decode_eq_ok_iff.mp hd] at h
    cases i <;> exact absurd h (by decide)

/-- Settles O3: the word decodes to no command, so its start holds no byte and its transition is the completion alone. -/
theorem illegalWordsOnlyComplete : Obligations.IllegalWordsOnlyComplete := by
  intro v hv
  have hop := decodeOp_of_malformed hv
  refine ⟨fun s hb => ?_, fun s hp ht => ?_⟩
  · rw [show windowWrite 0x00 4 v s = startCommand v s from windowWrite_regOffset .cmd v hb]
    exact ⟨congrArg Phase.running hop, rfl, congrArg (heldBy · _) hop⟩
  · rw [step_running hp ht, hop]
    rfl

/-! ## A fault inside `DECRYPT` (R230, R232) -/

/-- Settles O17: the seed read is what comes first once the pre-checks have passed. -/
theorem decryptSeedFault : Obligations.DecryptSeedFault := by
  intro s y hlen hs h1 h2 hf
  rcases exec_decryptS_cases ((precheck_decryptS_none s).mpr ⟨hs, hlen⟩) with ⟨-, he⟩ | ⟨hn, -⟩
  · exact he
  · exact absurd ((hn y h1 h2).symm.trans hf) nofun

/-- A `DECRYPT` whose first fault comes after its seed runs its body up to it. -/
theorem DecryptReady.runs_of_firstFault {i : Instr} {s : State} (hr : DecryptReady i s) {k : Nat} (hk : k < decryptLen i s)
    (hn : NoFault s s.srcAddr.toNat (decryptBase i s - s.srcAddr.toNat + k)) (hf : memFault s (decryptBase i s + k) = true) :
    DecryptRuns i s ∧ FirstFault s (decryptBase i s) (decryptLen i s) k := by
  have hb : s.srcAddr.toNat ≤ decryptBase i s := by
    unfold decryptBase
    split_ifs <;> omega
  refine ⟨⟨hr, fun hi y h1 h2 => hn y h1 ?_⟩, fun y h1 h2 => hn y (by omega) (by omega), .inr ⟨hk, hf⟩⟩
  have : decryptBase i s = s.srcAddr.toNat + 4 := if_pos hi
  omega

/-- Where a `DECRYPT` stops before its end it has drawn the words before its own, or all the words and the tail's one (R230). -/
theorem drawnBefore_of_lt {n k : Nat} (h : k < n) : drawnBefore n k = if k < 4 * (n / 4) then k / 4 else n / 4 + 1 := by
  unfold drawnBefore
  split_ifs with hk
  · rfl
  · rw [keyCount, if_neg (by omega)]

/-- Settles O18: the body runs up to its first fault, which comes before its end. -/
theorem decryptBusKeepsPartialEffects : Obligations.DecryptBusKeepsPartialEffects := by
  intro i s k hr hw hk hn hf
  obtain ⟨hruns, hfirst⟩ := hr.runs_of_firstFault hk hn hf
  obtain ⟨t, he, hc, hv, -, hout, hbytes, htab⟩ := exec_decrypt_firstFault hruns hw hfirst
  rw [if_neg (Nat.ne_of_lt hk)] at hc
  rw [drawnBefore_of_lt hk] at htab
  exact ⟨t, he, hc, hv, hout, hbytes, fun hs => (htab hs).1⟩

end Sys2Proof.Machine
end

section
/-! PROOF. Writes to a busy block, and the reset event (R34, R260, R261, R267). -/

namespace Sys2Proof.Machine

/-- Settles O38: a running command makes the block busy. -/
theorem busyWritesAreIgnored : Obligations.BusyWritesAreIgnored :=
  fun _ _ h off width v => windowWrite_of_busy (busy_of_running h) off width v

/-! ## A reset -/

/-- The fields of `STATUS` are those of `State.reset`, whatever the free values are. -/
theorem statusWord_resetBlock (s : State) : statusWord (resetBlock s) = 0 :=
  calc statusWord (resetBlock s)
    _ = statusWord State.reset := rfl
    _ = 0 := by decide

theorem platformReset_of_idle {s : State} (h : s.phase = .idle) : platformReset s = resetBlock s := by
  simp only [platformReset, h]

/-- A reset in either phase is the block's reset over a memory that differs at most in the bytes of a running command. -/
theorem platformReset_shape (s : State) : ∃ m n,
    platformReset s = resetBlock ((s.setMem m).setDraws n) ∧ (s.phase = .idle → m = s.mem) ∧
    ∀ x, (∀ l ∈ exposed s, l.region.has x = false) → Memory.read m x = Memory.read s.mem x := by
  cases hp : s.phase with
  | idle => exact ⟨s.mem, s.draws, platformReset_of_idle hp, fun _ => rfl, fun _ _ => rfl⟩
  | running op =>
    rcases platformReset_cases s with ⟨hi, -⟩ | ⟨m, n, e, hout, -⟩
    · exact absurd (hi.symm.trans hp) nofun
    · exact ⟨m, n, e, nofun, fun x hx => hout x (inLoans_eq_false.mpr hx)⟩

/-- Settles O53: the registers are the block reset's, the memory is the one it ran over, and a reset statement runs it. -/
theorem resetEvent : Obligations.ResetEvent := by
  refine ⟨fun s => ?_, fun s u hm hn => step_of_moves hm hn⟩
  obtain ⟨m, n, e, hidle, hout⟩ := platformReset_shape s
  exact ⟨_, e, rfl, statusWord_resetBlock _, rfl, rfl, rfl, rfl, rfl, rfl, rfl, rfl, rfl, freeMask_maskOk rfl, hidle, hout,
    rfl, rfl⟩

end Sys2Proof.Machine
end
